-- ==== Sys2Proof/Word.lean ====
section
/-! DEFINITION. The word types of the block: the 64-bit register word, the binary64 encoding and the 73-bit BUS73
transaction word (00_scope.md R7, R9; 30_encoding.md R80). -/

namespace Sys2Proof

/-- A 64-bit register word, DATA[63:0] (20_memory.md R65). -/
abbrev Word64 := BitVec 64

/-- A binary64 value, held as its 64-bit encoding; `f64(b)` and `bits64(x)` of 00_scope.md R9 are the identity here. -/
abbrev F64 := BitVec 64

/-- A BUS73 transaction word `{W, ADDR[7:0], DATA[63:0]}` (30_encoding.md R80). -/
abbrev Bus73 := BitVec 73

/-- A register word address, ADDR[7:0] (20_memory.md R60). -/
abbrev RegAddr := BitVec 8

end Sys2Proof
end

