-- ==== Sys2Proof/Syntax.lean ====
section
/-! DEFINITION. The abstract syntax of host transactions (30_encoding.md R80 to R91): one constructor of `Instr` for each
row of the opcode map R87, the register-map vocabulary of 10_state.md R22, and the three verdicts of R85. -/

namespace Sys2Proof

/-- An operation of the opcode map (30_encoding.md R87). A read takes no operand, since its DATA is ignored (R80), and so
does CLRERR (40_control.md R105); a write carries its whole operand word `DATA[63:0]`, legal or not, because the operand
checks come last (40_control.md R100, step 9). -/
inductive Instr where
  -- 40_control.md
  /-- RD.ID (R102). -/
  | rdId
  /-- RD.STATUS (R103). -/
  | rdStatus
  /-- RD.ERR (R104). -/
  | rdErr
  /-- CLRERR (R105). -/
  | clrErr
  /-- START (R106). -/
  | start
  /-- STOP (R108). -/
  | stop
  /-- RD.MODE (R109). -/
  | rdMode
  /-- WR.MODE (R110). -/
  | wrMode (d : Word64)
  /-- RD.SAMPLE_RATE (R111). -/
  | rdSampleRate
  /-- WR.SAMPLE_RATE (R112). -/
  | wrSampleRate (d : Word64)
  -- 41_oscillator.md
  /-- RD.WAVEFORM (R143). -/
  | rdWaveform
  /-- WR.WAVEFORM (R144). -/
  | wrWaveform (d : Word64)
  /-- RD.FREQ (R145). -/
  | rdFreq
  /-- WR.FREQ (R146). -/
  | wrFreq (d : Word64)
  /-- RD.CUR_FREQ (R147). -/
  | rdCurFreq
  /-- RD.PHASE (R148). -/
  | rdPhase
  -- 42_envelope.md
  /-- RD.VOLUME (R153). -/
  | rdVolume
  /-- WR.VOLUME (R154). -/
  | wrVolume (d : Word64)
  /-- RD.ENV_K1 (R155). -/
  | rdEnvK1
  /-- WR.ENV_K1 (R156). -/
  | wrEnvK1 (d : Word64)
  /-- RD.ENV_K2 (R157). -/
  | rdEnvK2
  /-- WR.ENV_K2 (R158). -/
  | wrEnvK2 (d : Word64)
  /-- RD.CUR_VOLUME (R159). -/
  | rdCurVolume
  -- 43_period.md
  /-- ACTIVATE (R170). -/
  | activate
  /-- DEACTIVATE (R171). -/
  | deactivate
  /-- RD.FREQ_RAISE_RATE (R172). -/
  | rdFreqRaiseRate
  /-- WR.FREQ_RAISE_RATE (R173). -/
  | wrFreqRaiseRate (d : Word64)
  /-- RD.VOL_RAISE_RATE (R174). -/
  | rdVolRaiseRate
  /-- WR.VOL_RAISE_RATE (R175). -/
  | wrVolRaiseRate (d : Word64)
  /-- RD.HOLD_DURATION (R176). -/
  | rdHoldDuration
  /-- WR.HOLD_DURATION (R177). -/
  | wrHoldDuration (d : Word64)
  /-- RD.TIME_IN_CYCLE (R178). -/
  | rdTimeInCycle
  /-- RD.VOLUME_FACTOR (R179). -/
  | rdVolumeFactor
  -- 44_framing.md
  /-- TXBYTE (R195). -/
  | txByte (d : Word64)
  /-- TXCOMMIT (R196). -/
  | txCommit
  /-- TXABORT (R197). -/
  | txAbort
  /-- RD.SYMQ_FREE (R198). -/
  | rdSymqFree
  /-- RD.DATA_BITS (R199). -/
  | rdDataBits
  /-- WR.DATA_BITS (R200). -/
  | wrDataBits (d : Word64)
  /-- RD.PARITY (R201). -/
  | rdParity
  /-- WR.PARITY (R202). -/
  | wrParity (d : Word64)
  /-- RD.STOP_BITS (R203). -/
  | rdStopBits
  /-- WR.STOP_BITS (R204). -/
  | wrStopBits (d : Word64)
  /-- RD.MARK_FREQ (R205). -/
  | rdMarkFreq
  /-- WR.MARK_FREQ (R206). -/
  | wrMarkFreq (d : Word64)
  /-- RD.SPACE_FREQ (R207). -/
  | rdSpaceFreq
  /-- WR.SPACE_FREQ (R208). -/
  | wrSpaceFreq (d : Word64)
  -- 45_scheduler.md
  /-- RD.BAUD (R220). -/
  | rdBaud
  /-- WR.BAUD (R221). -/
  | wrBaud (d : Word64)
  /-- RD.IDLE_FREQ (R222). -/
  | rdIdleFreq
  /-- WR.IDLE_FREQ (R223). -/
  | wrIdleFreq (d : Word64)
  /-- RD.WAIT_SAMPLES (R224). -/
  | rdWaitSamples
  /-- RD.CARRIED_ERR (R225). -/
  | rdCarriedErr
  -- 46_pipeline.md
  /-- RD.BUF_SIZE (R240). -/
  | rdBufSize
  /-- WR.BUF_SIZE (R241). -/
  | wrBufSize (d : Word64)
  /-- RD.BUF_COUNT (R242). -/
  | rdBufCount
  /-- WR.BUF_COUNT (R243). -/
  | wrBufCount (d : Word64)
  /-- RD.UNDERRUN_COUNT (R244). -/
  | rdUnderrunCount
  /-- RD.FILL_POS (R245). -/
  | rdFillPos
  deriving DecidableEq, Repr

/-- The access column of the register map (10_state.md R22). -/
inductive Access where
  | ro | wo | rw | rc
  deriving DecidableEq, Repr

/-- The class column of the register map (10_state.md R22): CFG, LIVE, or not applicable. -/
inductive RegClass where
  | cfg | live | notApplicable
  deriving DecidableEq, Repr

/-- A row of the register map (10_state.md R22). -/
structure RegRow where
  addr : RegAddr
  name : String
  access : Access
  cls : RegClass
  deriving DecidableEq, Repr

/-- A row of the opcode map (30_encoding.md R87): its match and mask, and the operation it gives for a word's DATA. -/
structure OpcodeRow where
  mnemonic : String
  pattern : Bus73
  mask : Bus73
  op : Word64 → Instr

/-- What the decoder answers for a word that is no row of the opcode map (30_encoding.md R85). -/
inductive Verdict where
  /-- A reserved address (R88). -/
  | badAddr
  /-- A write to a read-only register or a read of a write-only one (R89). -/
  | access
  /-- A CMD or ACTIVATE write with an unlisted DATA (R90). -/
  | reservedValue
  deriving DecidableEq, Repr

end Sys2Proof
end

