-- ==== Sys2Proof/Decode.lean ====
section
/-! DEFINITION. The decoder of 30_encoding.md R85 to R90, total on every BUS73 word, and the encoder written from the same
opcode map R87. -/

namespace Sys2Proof

/-! ### The register map -/

/-- The register map (10_state.md R22). Every other address is reserved (30_encoding.md R88). -/
def regMap : List RegRow := [
  ⟨0x00#8, "ID", .ro, .notApplicable⟩,
  ⟨0x01#8, "STATUS", .ro, .notApplicable⟩,
  ⟨0x02#8, "CMD", .wo, .notApplicable⟩,
  ⟨0x03#8, "ERR", .rc, .notApplicable⟩,
  ⟨0x08#8, "MODE", .rw, .cfg⟩,
  ⟨0x09#8, "SAMPLE_RATE", .rw, .cfg⟩,
  ⟨0x0A#8, "WAVEFORM", .rw, .cfg⟩,
  ⟨0x0B#8, "BUF_SIZE", .rw, .cfg⟩,
  ⟨0x0C#8, "BUF_COUNT", .rw, .cfg⟩,
  ⟨0x10#8, "FREQ", .rw, .live⟩,
  ⟨0x11#8, "VOLUME", .rw, .live⟩,
  ⟨0x12#8, "ENV_K1", .rw, .live⟩,
  ⟨0x13#8, "ENV_K2", .rw, .live⟩,
  ⟨0x18#8, "FREQ_RAISE_RATE", .rw, .live⟩,
  ⟨0x19#8, "VOL_RAISE_RATE", .rw, .live⟩,
  ⟨0x1A#8, "HOLD_DURATION", .rw, .live⟩,
  ⟨0x1B#8, "ACTIVATE", .wo, .notApplicable⟩,
  ⟨0x20#8, "BAUD", .rw, .live⟩,
  ⟨0x21#8, "DATA_BITS", .rw, .live⟩,
  ⟨0x22#8, "PARITY", .rw, .live⟩,
  ⟨0x23#8, "STOP_BITS", .rw, .live⟩,
  ⟨0x24#8, "MARK_FREQ", .rw, .live⟩,
  ⟨0x25#8, "SPACE_FREQ", .rw, .live⟩,
  ⟨0x26#8, "IDLE_FREQ", .rw, .live⟩,
  ⟨0x27#8, "TX_BYTE", .wo, .notApplicable⟩,
  ⟨0x28#8, "SYMQ_FREE", .ro, .notApplicable⟩,
  ⟨0x30#8, "UNDERRUN_COUNT", .ro, .notApplicable⟩,
  ⟨0x31#8, "CUR_FREQ", .ro, .notApplicable⟩,
  ⟨0x32#8, "CUR_VOLUME", .ro, .notApplicable⟩,
  ⟨0x33#8, "PHASE", .ro, .notApplicable⟩,
  ⟨0x34#8, "WAIT_SAMPLES", .ro, .notApplicable⟩,
  ⟨0x35#8, "CARRIED_ERR", .ro, .notApplicable⟩,
  ⟨0x36#8, "TIME_IN_CYCLE", .ro, .notApplicable⟩,
  ⟨0x37#8, "VOLUME_FACTOR", .ro, .notApplicable⟩,
  ⟨0x38#8, "FILL_POS", .ro, .notApplicable⟩ ]

/-- The row of the register map at an address, or none at a reserved address (30_encoding.md R88). -/
def regAt? (a : RegAddr) : Option RegRow :=
  regMap.find? (fun r => r.addr == a)

/-- Whether the access column lets a write (`w = true`) or a read through (30_encoding.md R89). -/
def Access.permits (x : Access) (w : Bool) : Bool :=
  match x, w with
  | .ro, true => false
  | .wo, false => false
  | _, _ => true

/-! ### The fields of a word -/

/-- Bit 72, W: 1 for a write (30_encoding.md R80). -/
def fieldW (t : Bus73) : Bool := t.getLsbD 72

/-- Bits 71:64, ADDR. -/
def fieldA (t : Bus73) : RegAddr := t.extractLsb' 64 8

/-- Bits 63:0, DATA. -/
def fieldD (t : Bus73) : Word64 := t.extractLsb' 0 64

/-- `{W, ADDR, DATA}` (30_encoding.md R80). -/
def bus73 (w : Bool) (a : RegAddr) (d : Word64) : Bus73 := BitVec.ofBool w ++ a ++ d

/-! ### Decoding -/

/-- The row of the opcode map selected by `(W, ADDR)`, and by DATA for CMD and ACTIVATE (30_encoding.md R86, R87). -/
def selectOp (w : Bool) (a : RegAddr) (d : Word64) : Option Instr :=
  match w with
  | false =>
    match a.toNat with
    | 0x00 => some .rdId
    | 0x01 => some .rdStatus
    | 0x03 => some .rdErr
    | 0x08 => some .rdMode
    | 0x09 => some .rdSampleRate
    | 0x0A => some .rdWaveform
    | 0x10 => some .rdFreq
    | 0x31 => some .rdCurFreq
    | 0x33 => some .rdPhase
    | 0x11 => some .rdVolume
    | 0x12 => some .rdEnvK1
    | 0x13 => some .rdEnvK2
    | 0x32 => some .rdCurVolume
    | 0x18 => some .rdFreqRaiseRate
    | 0x19 => some .rdVolRaiseRate
    | 0x1A => some .rdHoldDuration
    | 0x36 => some .rdTimeInCycle
    | 0x37 => some .rdVolumeFactor
    | 0x28 => some .rdSymqFree
    | 0x21 => some .rdDataBits
    | 0x22 => some .rdParity
    | 0x23 => some .rdStopBits
    | 0x24 => some .rdMarkFreq
    | 0x25 => some .rdSpaceFreq
    | 0x20 => some .rdBaud
    | 0x26 => some .rdIdleFreq
    | 0x34 => some .rdWaitSamples
    | 0x35 => some .rdCarriedErr
    | 0x0B => some .rdBufSize
    | 0x0C => some .rdBufCount
    | 0x30 => some .rdUnderrunCount
    | 0x38 => some .rdFillPos
    | _ => none
  | true =>
    match a.toNat with
    | 0x03 => some .clrErr
    | 0x02 =>
      match d.toNat with
      | 1 => some .start
      | 2 => some .stop
      | 3 => some .txCommit
      | 4 => some .txAbort
      | _ => none
    | 0x08 => some (.wrMode d)
    | 0x09 => some (.wrSampleRate d)
    | 0x0A => some (.wrWaveform d)
    | 0x10 => some (.wrFreq d)
    | 0x11 => some (.wrVolume d)
    | 0x12 => some (.wrEnvK1 d)
    | 0x13 => some (.wrEnvK2 d)
    | 0x1B =>
      match d.toNat with
      | 0 => some .deactivate
      | 1 => some .activate
      | _ => none
    | 0x18 => some (.wrFreqRaiseRate d)
    | 0x19 => some (.wrVolRaiseRate d)
    | 0x1A => some (.wrHoldDuration d)
    | 0x27 => some (.txByte d)
    | 0x21 => some (.wrDataBits d)
    | 0x22 => some (.wrParity d)
    | 0x23 => some (.wrStopBits d)
    | 0x24 => some (.wrMarkFreq d)
    | 0x25 => some (.wrSpaceFreq d)
    | 0x20 => some (.wrBaud d)
    | 0x26 => some (.wrIdleFreq d)
    | 0x0B => some (.wrBufSize d)
    | 0x0C => some (.wrBufCount d)
    | _ => none

/-- The decoder: an operation or a verdict, in the order of 40_control.md R100 steps 1, 2 and 5 (30_encoding.md R85). -/
def decode (t : Bus73) : Except Verdict Instr :=
  match regAt? (fieldA t) with
  | none => .error .badAddr
  | some r =>
    if r.access.permits (fieldW t) then
      match selectOp (fieldW t) (fieldA t) (fieldD t) with
      | some i => .ok i
      | none => .error .reservedValue
    else .error .access

/-! ### Encoding -/

/-- The W bit of an operation's row (30_encoding.md R87). -/
def Instr.isWrite (i : Instr) : Bool :=
  match i with
  | .rdId => false
  | .rdStatus => false
  | .rdErr => false
  | .clrErr => true
  | .start => true
  | .stop => true
  | .rdMode => false
  | .wrMode _ => true
  | .rdSampleRate => false
  | .wrSampleRate _ => true
  | .rdWaveform => false
  | .wrWaveform _ => true
  | .rdFreq => false
  | .wrFreq _ => true
  | .rdCurFreq => false
  | .rdPhase => false
  | .rdVolume => false
  | .wrVolume _ => true
  | .rdEnvK1 => false
  | .wrEnvK1 _ => true
  | .rdEnvK2 => false
  | .wrEnvK2 _ => true
  | .rdCurVolume => false
  | .activate => true
  | .deactivate => true
  | .rdFreqRaiseRate => false
  | .wrFreqRaiseRate _ => true
  | .rdVolRaiseRate => false
  | .wrVolRaiseRate _ => true
  | .rdHoldDuration => false
  | .wrHoldDuration _ => true
  | .rdTimeInCycle => false
  | .rdVolumeFactor => false
  | .txByte _ => true
  | .txCommit => true
  | .txAbort => true
  | .rdSymqFree => false
  | .rdDataBits => false
  | .wrDataBits _ => true
  | .rdParity => false
  | .wrParity _ => true
  | .rdStopBits => false
  | .wrStopBits _ => true
  | .rdMarkFreq => false
  | .wrMarkFreq _ => true
  | .rdSpaceFreq => false
  | .wrSpaceFreq _ => true
  | .rdBaud => false
  | .wrBaud _ => true
  | .rdIdleFreq => false
  | .wrIdleFreq _ => true
  | .rdWaitSamples => false
  | .rdCarriedErr => false
  | .rdBufSize => false
  | .wrBufSize _ => true
  | .rdBufCount => false
  | .wrBufCount _ => true
  | .rdUnderrunCount => false
  | .rdFillPos => false

/-- The ADDR field of an operation's row (30_encoding.md R87). -/
def Instr.addr (i : Instr) : RegAddr :=
  match i with
  | .rdId => 0x00#8
  | .rdStatus => 0x01#8
  | .rdErr => 0x03#8
  | .clrErr => 0x03#8
  | .start => 0x02#8
  | .stop => 0x02#8
  | .rdMode => 0x08#8
  | .wrMode _ => 0x08#8
  | .rdSampleRate => 0x09#8
  | .wrSampleRate _ => 0x09#8
  | .rdWaveform => 0x0A#8
  | .wrWaveform _ => 0x0A#8
  | .rdFreq => 0x10#8
  | .wrFreq _ => 0x10#8
  | .rdCurFreq => 0x31#8
  | .rdPhase => 0x33#8
  | .rdVolume => 0x11#8
  | .wrVolume _ => 0x11#8
  | .rdEnvK1 => 0x12#8
  | .wrEnvK1 _ => 0x12#8
  | .rdEnvK2 => 0x13#8
  | .wrEnvK2 _ => 0x13#8
  | .rdCurVolume => 0x32#8
  | .activate => 0x1B#8
  | .deactivate => 0x1B#8
  | .rdFreqRaiseRate => 0x18#8
  | .wrFreqRaiseRate _ => 0x18#8
  | .rdVolRaiseRate => 0x19#8
  | .wrVolRaiseRate _ => 0x19#8
  | .rdHoldDuration => 0x1A#8
  | .wrHoldDuration _ => 0x1A#8
  | .rdTimeInCycle => 0x36#8
  | .rdVolumeFactor => 0x37#8
  | .txByte _ => 0x27#8
  | .txCommit => 0x02#8
  | .txAbort => 0x02#8
  | .rdSymqFree => 0x28#8
  | .rdDataBits => 0x21#8
  | .wrDataBits _ => 0x21#8
  | .rdParity => 0x22#8
  | .wrParity _ => 0x22#8
  | .rdStopBits => 0x23#8
  | .wrStopBits _ => 0x23#8
  | .rdMarkFreq => 0x24#8
  | .wrMarkFreq _ => 0x24#8
  | .rdSpaceFreq => 0x25#8
  | .wrSpaceFreq _ => 0x25#8
  | .rdBaud => 0x20#8
  | .wrBaud _ => 0x20#8
  | .rdIdleFreq => 0x26#8
  | .wrIdleFreq _ => 0x26#8
  | .rdWaitSamples => 0x34#8
  | .rdCarriedErr => 0x35#8
  | .rdBufSize => 0x0B#8
  | .wrBufSize _ => 0x0B#8
  | .rdBufCount => 0x0C#8
  | .wrBufCount _ => 0x0C#8
  | .rdUnderrunCount => 0x30#8
  | .rdFillPos => 0x38#8

/-- The DATA field of an operation's word: the operand, or the value that selects a command (30_encoding.md R87). Reads and
CLRERR ignore DATA; the encoder writes 0, as the assembler does (R92, R93). -/
def Instr.data (i : Instr) : Word64 :=
  match i with
  | .rdId => 0#64
  | .rdStatus => 0#64
  | .rdErr => 0#64
  | .clrErr => 0#64
  | .start => 1#64
  | .stop => 2#64
  | .rdMode => 0#64
  | .wrMode d => d
  | .rdSampleRate => 0#64
  | .wrSampleRate d => d
  | .rdWaveform => 0#64
  | .wrWaveform d => d
  | .rdFreq => 0#64
  | .wrFreq d => d
  | .rdCurFreq => 0#64
  | .rdPhase => 0#64
  | .rdVolume => 0#64
  | .wrVolume d => d
  | .rdEnvK1 => 0#64
  | .wrEnvK1 d => d
  | .rdEnvK2 => 0#64
  | .wrEnvK2 d => d
  | .rdCurVolume => 0#64
  | .activate => 1#64
  | .deactivate => 0#64
  | .rdFreqRaiseRate => 0#64
  | .wrFreqRaiseRate d => d
  | .rdVolRaiseRate => 0#64
  | .wrVolRaiseRate d => d
  | .rdHoldDuration => 0#64
  | .wrHoldDuration d => d
  | .rdTimeInCycle => 0#64
  | .rdVolumeFactor => 0#64
  | .txByte d => d
  | .txCommit => 3#64
  | .txAbort => 4#64
  | .rdSymqFree => 0#64
  | .rdDataBits => 0#64
  | .wrDataBits d => d
  | .rdParity => 0#64
  | .wrParity d => d
  | .rdStopBits => 0#64
  | .wrStopBits d => d
  | .rdMarkFreq => 0#64
  | .wrMarkFreq d => d
  | .rdSpaceFreq => 0#64
  | .wrSpaceFreq d => d
  | .rdBaud => 0#64
  | .wrBaud d => d
  | .rdIdleFreq => 0#64
  | .wrIdleFreq d => d
  | .rdWaitSamples => 0#64
  | .rdCarriedErr => 0#64
  | .rdBufSize => 0#64
  | .wrBufSize d => d
  | .rdBufCount => 0#64
  | .wrBufCount d => d
  | .rdUnderrunCount => 0#64
  | .rdFillPos => 0#64

/-- The BUS73 word of an operation. -/
def encode (i : Instr) : Bus73 := bus73 i.isWrite i.addr i.data

/-! ### The opcode map as masks and matches -/

/-- The opcode map (30_encoding.md R87), row by row: a row matches a word `T` when `T & mask = match` (R86), and it
selects its operation on the word's DATA. -/
def opcodeMap : List OpcodeRow := [
  ⟨"RD.ID", 0x0000000000000000000#73, 0x1FF0000000000000000#73, fun _ => .rdId⟩,
  ⟨"RD.STATUS", 0x0010000000000000000#73, 0x1FF0000000000000000#73, fun _ => .rdStatus⟩,
  ⟨"RD.ERR", 0x0030000000000000000#73, 0x1FF0000000000000000#73, fun _ => .rdErr⟩,
  ⟨"CLRERR", 0x1030000000000000000#73, 0x1FF0000000000000000#73, fun _ => .clrErr⟩,
  ⟨"START", 0x1020000000000000001#73, 0x1FFFFFFFFFFFFFFFFFF#73, fun _ => .start⟩,
  ⟨"STOP", 0x1020000000000000002#73, 0x1FFFFFFFFFFFFFFFFFF#73, fun _ => .stop⟩,
  ⟨"RD.MODE", 0x0080000000000000000#73, 0x1FF0000000000000000#73, fun _ => .rdMode⟩,
  ⟨"WR.MODE", 0x1080000000000000000#73, 0x1FF0000000000000000#73, .wrMode⟩,
  ⟨"RD.SAMPLE_RATE", 0x0090000000000000000#73, 0x1FF0000000000000000#73, fun _ => .rdSampleRate⟩,
  ⟨"WR.SAMPLE_RATE", 0x1090000000000000000#73, 0x1FF0000000000000000#73, .wrSampleRate⟩,
  ⟨"RD.WAVEFORM", 0x00A0000000000000000#73, 0x1FF0000000000000000#73, fun _ => .rdWaveform⟩,
  ⟨"WR.WAVEFORM", 0x10A0000000000000000#73, 0x1FF0000000000000000#73, .wrWaveform⟩,
  ⟨"RD.FREQ", 0x0100000000000000000#73, 0x1FF0000000000000000#73, fun _ => .rdFreq⟩,
  ⟨"WR.FREQ", 0x1100000000000000000#73, 0x1FF0000000000000000#73, .wrFreq⟩,
  ⟨"RD.CUR_FREQ", 0x0310000000000000000#73, 0x1FF0000000000000000#73, fun _ => .rdCurFreq⟩,
  ⟨"RD.PHASE", 0x0330000000000000000#73, 0x1FF0000000000000000#73, fun _ => .rdPhase⟩,
  ⟨"RD.VOLUME", 0x0110000000000000000#73, 0x1FF0000000000000000#73, fun _ => .rdVolume⟩,
  ⟨"WR.VOLUME", 0x1110000000000000000#73, 0x1FF0000000000000000#73, .wrVolume⟩,
  ⟨"RD.ENV_K1", 0x0120000000000000000#73, 0x1FF0000000000000000#73, fun _ => .rdEnvK1⟩,
  ⟨"WR.ENV_K1", 0x1120000000000000000#73, 0x1FF0000000000000000#73, .wrEnvK1⟩,
  ⟨"RD.ENV_K2", 0x0130000000000000000#73, 0x1FF0000000000000000#73, fun _ => .rdEnvK2⟩,
  ⟨"WR.ENV_K2", 0x1130000000000000000#73, 0x1FF0000000000000000#73, .wrEnvK2⟩,
  ⟨"RD.CUR_VOLUME", 0x0320000000000000000#73, 0x1FF0000000000000000#73, fun _ => .rdCurVolume⟩,
  ⟨"ACTIVATE", 0x11B0000000000000001#73, 0x1FFFFFFFFFFFFFFFFFF#73, fun _ => .activate⟩,
  ⟨"DEACTIVATE", 0x11B0000000000000000#73, 0x1FFFFFFFFFFFFFFFFFF#73, fun _ => .deactivate⟩,
  ⟨"RD.FREQ_RAISE_RATE", 0x0180000000000000000#73, 0x1FF0000000000000000#73, fun _ => .rdFreqRaiseRate⟩,
  ⟨"WR.FREQ_RAISE_RATE", 0x1180000000000000000#73, 0x1FF0000000000000000#73, .wrFreqRaiseRate⟩,
  ⟨"RD.VOL_RAISE_RATE", 0x0190000000000000000#73, 0x1FF0000000000000000#73, fun _ => .rdVolRaiseRate⟩,
  ⟨"WR.VOL_RAISE_RATE", 0x1190000000000000000#73, 0x1FF0000000000000000#73, .wrVolRaiseRate⟩,
  ⟨"RD.HOLD_DURATION", 0x01A0000000000000000#73, 0x1FF0000000000000000#73, fun _ => .rdHoldDuration⟩,
  ⟨"WR.HOLD_DURATION", 0x11A0000000000000000#73, 0x1FF0000000000000000#73, .wrHoldDuration⟩,
  ⟨"RD.TIME_IN_CYCLE", 0x0360000000000000000#73, 0x1FF0000000000000000#73, fun _ => .rdTimeInCycle⟩,
  ⟨"RD.VOLUME_FACTOR", 0x0370000000000000000#73, 0x1FF0000000000000000#73, fun _ => .rdVolumeFactor⟩,
  ⟨"TXBYTE", 0x1270000000000000000#73, 0x1FF0000000000000000#73, .txByte⟩,
  ⟨"TXCOMMIT", 0x1020000000000000003#73, 0x1FFFFFFFFFFFFFFFFFF#73, fun _ => .txCommit⟩,
  ⟨"TXABORT", 0x1020000000000000004#73, 0x1FFFFFFFFFFFFFFFFFF#73, fun _ => .txAbort⟩,
  ⟨"RD.SYMQ_FREE", 0x0280000000000000000#73, 0x1FF0000000000000000#73, fun _ => .rdSymqFree⟩,
  ⟨"RD.DATA_BITS", 0x0210000000000000000#73, 0x1FF0000000000000000#73, fun _ => .rdDataBits⟩,
  ⟨"WR.DATA_BITS", 0x1210000000000000000#73, 0x1FF0000000000000000#73, .wrDataBits⟩,
  ⟨"RD.PARITY", 0x0220000000000000000#73, 0x1FF0000000000000000#73, fun _ => .rdParity⟩,
  ⟨"WR.PARITY", 0x1220000000000000000#73, 0x1FF0000000000000000#73, .wrParity⟩,
  ⟨"RD.STOP_BITS", 0x0230000000000000000#73, 0x1FF0000000000000000#73, fun _ => .rdStopBits⟩,
  ⟨"WR.STOP_BITS", 0x1230000000000000000#73, 0x1FF0000000000000000#73, .wrStopBits⟩,
  ⟨"RD.MARK_FREQ", 0x0240000000000000000#73, 0x1FF0000000000000000#73, fun _ => .rdMarkFreq⟩,
  ⟨"WR.MARK_FREQ", 0x1240000000000000000#73, 0x1FF0000000000000000#73, .wrMarkFreq⟩,
  ⟨"RD.SPACE_FREQ", 0x0250000000000000000#73, 0x1FF0000000000000000#73, fun _ => .rdSpaceFreq⟩,
  ⟨"WR.SPACE_FREQ", 0x1250000000000000000#73, 0x1FF0000000000000000#73, .wrSpaceFreq⟩,
  ⟨"RD.BAUD", 0x0200000000000000000#73, 0x1FF0000000000000000#73, fun _ => .rdBaud⟩,
  ⟨"WR.BAUD", 0x1200000000000000000#73, 0x1FF0000000000000000#73, .wrBaud⟩,
  ⟨"RD.IDLE_FREQ", 0x0260000000000000000#73, 0x1FF0000000000000000#73, fun _ => .rdIdleFreq⟩,
  ⟨"WR.IDLE_FREQ", 0x1260000000000000000#73, 0x1FF0000000000000000#73, .wrIdleFreq⟩,
  ⟨"RD.WAIT_SAMPLES", 0x0340000000000000000#73, 0x1FF0000000000000000#73, fun _ => .rdWaitSamples⟩,
  ⟨"RD.CARRIED_ERR", 0x0350000000000000000#73, 0x1FF0000000000000000#73, fun _ => .rdCarriedErr⟩,
  ⟨"RD.BUF_SIZE", 0x00B0000000000000000#73, 0x1FF0000000000000000#73, fun _ => .rdBufSize⟩,
  ⟨"WR.BUF_SIZE", 0x10B0000000000000000#73, 0x1FF0000000000000000#73, .wrBufSize⟩,
  ⟨"RD.BUF_COUNT", 0x00C0000000000000000#73, 0x1FF0000000000000000#73, fun _ => .rdBufCount⟩,
  ⟨"WR.BUF_COUNT", 0x10C0000000000000000#73, 0x1FF0000000000000000#73, .wrBufCount⟩,
  ⟨"RD.UNDERRUN_COUNT", 0x0300000000000000000#73, 0x1FF0000000000000000#73, fun _ => .rdUnderrunCount⟩,
  ⟨"RD.FILL_POS", 0x0380000000000000000#73, 0x1FF0000000000000000#73, fun _ => .rdFillPos⟩ ]

/-- Whether a row matches a word (30_encoding.md R86). -/
def OpcodeRow.selects (r : OpcodeRow) (t : Bus73) : Prop := t &&& r.mask = r.pattern

/-! ### The opcode table's numbering -/

/-- The operation the decoder reads from a word numbered as spec/opcode_table.json numbers it: a BUS73 word is one word of
73 bits, so bit 72 of the number is W. A number with a bit above bit 72 is no BUS73 word (log entry 14). -/
def decodeTableWord (nbits w : Nat) : Option Instr :=
  let t := w % 2 ^ nbits
  if t < 2 ^ 73 then (decode (BitVec.ofNat 73 t)).toOption else none

end Sys2Proof
end

