-- ==== Sys2Proof/Config.lean ====
section
/-! DEFINITION. What an implementation fixes (00_scope.md R6) and the free values the spec leaves open.
The five parameters of R6 are plain data that State carries (log entries 4 and 5). The constants without a body have no value that a
proof could use: a statement about them holds whatever they are. -/

namespace Sys2Proof

/-- SIN, the sine function of the datapath (00_scope.md R6, 41_oscillator.md R131), as data: the points at which it is given, and
at every other operand it is the correctly rounded sine, the default. Since binary64 has finitely many values, every total
function is one of these (log entry 5). `sinOf` in Machine/Sine.lean applies it. -/
structure SinFn where
  points : List (F64 × F64)
  deriving DecidableEq, Repr

/-- The correctly rounded sine, the default of R6. -/
def SinFn.correctlyRounded : SinFn := ⟨[]⟩

/-- The implementation parameters of 00_scope.md R6. -/
structure Params where
  /-- NBUF_MAX, the largest legal BUF_COUNT. -/
  nbufMax : Nat
  /-- BUFSZ_MAX, the largest legal BUF_SIZE in samples. -/
  bufszMax : Nat
  /-- SYMQ_DEPTH, the capacity of the symbol FIFO, staged and committed together. -/
  symqDepth : Nat
  /-- FS_MAX, the largest legal SAMPLE_RATE in Hz. -/
  fsMax : F64
  /-- SIN. -/
  sin : SinFn
  deriving DecidableEq, Repr

/-- The default column of 00_scope.md R6. -/
def Params.default : Params where
  nbufMax := 8
  bufszMax := 4096
  symqDepth := 64
  fsMax := 0x412E848000000000#64
  sin := SinFn.correctlyRounded

/-- The operation that delivered a NaN, for `Config.nanBits`. -/
inductive FloatOp where
  | add | sub | mul | div
  deriving DecidableEq, Repr

/-- The default SIN of an operand whose correctly rounded sine is not computed: a NaN or an infinity, which has none, or an
operand whose enclosure does not decide (log entry 5). -/
opaque Config.sinUndecided : F64 → F64

/-- The sign and payload of the NaN that an invalid operation delivers (log entry 6). -/
opaque Config.nanBits : FloatOp → F64 → F64 → F64

/-- The integer nearest to a NaN or an infinity, which 00_scope.md R10 does not define (log entry 7). -/
opaque Config.roundNonFinite : F64 → Int

end Sys2Proof
end

