-- ==== Sys2Proof/Machine/Float.lean ====
section
/-! DEFINITION. The binary64 arithmetic of the datapath (00_scope.md R9, R10, R14): every finite value is an integer multiple
of 2^-1074, an operation is computed exactly in the integers and rounded once, to nearest with ties to even. Subnormals
are supported, nothing traps, and no flag is kept. -/

namespace Sys2Proof.Machine

/-! ### The fields of an encoding (20_memory.md R63) -/

/-- Bit 63, the sign. -/
def signBit (x : F64) : Bool := x.getLsbD 63

/-- Bits 62:52, the biased exponent. -/
def expField (x : F64) : Nat := x.toNat / 2 ^ 52 % 2 ^ 11

/-- Bits 51:0, the fraction. -/
def fracField (x : F64) : Nat := x.toNat % 2 ^ 52

/-- A NaN. -/
def isNaN (x : F64) : Bool := expField x == 2047 && fracField x != 0

/-- An infinity. -/
def isInf (x : F64) : Bool := expField x == 2047 && fracField x == 0

/-- `finite(v)` of 40_control.md R101: neither a NaN nor an infinity. -/
def isFinite (x : F64) : Bool := expField x != 2047

/-- The magnitude of a value in units of 2^-1074. An infinity gets 2^2098, which is above every finite value. -/
def magnitude (x : F64) : Nat :=
  if expField x = 0 then fracField x else (2 ^ 52 + fracField x) * 2 ^ (expField x - 1)

/-- The number 1 in units of 2^-1074. -/
def unitsPerOne : Nat := 2 ^ 1074

/-- The value in units of 2^-1074. -/
def scaled (x : F64) : Int := if signBit x then -(magnitude x : Int) else (magnitude x : Int)

/-! ### Rounding -/

/-- The encoding of +infinity. -/
def infBits : Nat := 0x7FF0000000000000

/-- `n / d` rounded to the nearest integer, a tie to the even one. -/
def rneDiv (n d : Nat) : Nat :=
  let q := n / d
  let r := n % d
  if 2 * r < d then q else if d < 2 * r then q + 1 else q + q % 2

/-- The encoding of the binary64 value nearest to `n / d` in units of 2^-1074, ties to even; +infinity on overflow. `u` is
the exponent of a unit in the last place; a mantissa that rounds up to 2^53 carries into the exponent. -/
def roundMag (n d : Nat) : Nat :=
  let u := (n / d).log2 - 52
  min (u * 2 ^ 52 + rneDiv n (d * 2 ^ u)) infBits

/-- An encoding from a sign and the 63 lower bits. -/
def packF64 (neg : Bool) (bits : Nat) : F64 :=
  BitVec.ofNat 64 ((if neg then 2 ^ 63 else 0) + bits)

/-- The NaN that an invalid operation delivers: quiet, with a free sign and payload (log entry 6). -/
def nanResult (op : FloatOp) (a b : F64) : F64 :=
  Config.nanBits op a b ||| 0x7FF8000000000000#64

/-! ### Operations (00_scope.md R9) -/

/-- `-x` flips the sign bit. -/
def fneg (x : F64) : F64 := x ^^^ 0x8000000000000000#64

/-- `a +. b`. An exact zero sum is -0.0 only when both operands are negative zeros. -/
def fadd (a b : F64) : F64 :=
  if isNaN a || isNaN b || (isInf a && isInf b && (signBit a != signBit b)) then nanResult .add a b
  else if isInf a then a
  else if isInf b then b
  else
    let k := scaled a + scaled b
    if k = 0 then packF64 (signBit a && signBit b) 0
    else packF64 (decide (k < 0)) (roundMag k.natAbs 1)

/-- `a -. b`. -/
def fsub (a b : F64) : F64 :=
  if isNaN a || isNaN b || (isInf a && isInf b && (signBit a == signBit b)) then nanResult .sub a b
  else fadd a (fneg b)

/-- `a *. b`. -/
def fmul (a b : F64) : F64 :=
  let neg := signBit a != signBit b
  if isNaN a || isNaN b || (isInf a && magnitude b == 0) || (isInf b && magnitude a == 0) then nanResult .mul a b
  else if isInf a || isInf b then packF64 neg infBits
  else packF64 neg (roundMag (magnitude a * magnitude b) unitsPerOne)

/-- `a /. b`. -/
def fdiv (a b : F64) : F64 :=
  let neg := signBit a != signBit b
  if isNaN a || isNaN b || (isInf a && isInf b) || (magnitude a == 0 && magnitude b == 0) then nanResult .div a b
  else if isInf a || magnitude b == 0 then packF64 neg infBits
  else if isInf b then packF64 neg 0
  else packF64 neg (roundMag (magnitude a * unitsPerOne) (magnitude b))

/-- `a == b`, the IEEE ordered comparison: false on a NaN, and +0.0 == -0.0. -/
def feq (a b : F64) : Bool := !isNaN a && !isNaN b && decide (scaled a = scaled b)

/-- `a ≤ b`. -/
def fle (a b : F64) : Bool := !isNaN a && !isNaN b && decide (scaled a ≤ scaled b)

/-- `a < b`; `a > b` is `flt b a`. -/
def flt (a b : F64) : Bool := !isNaN a && !isNaN b && decide (scaled a < scaled b)

/-- `min(a, b)` of R9. -/
def fmin (a b : F64) : F64 := if fle a b then a else b

/-- `roundHalfEven(t)` (00_scope.md R10). A NaN or an infinity has no nearest integer: free (log entry 7). -/
def roundHalfEven (t : F64) : Int :=
  if isFinite t then
    if signBit t then -(rneDiv (magnitude t) unitsPerOne : Int) else (rneDiv (magnitude t) unitsPerOne : Int)
  else Config.roundNonFinite t

/-- The binary64 value nearest to an integer, `f64(w)` of 45_scheduler.md R216. -/
def fofInt (w : Int) : F64 := packF64 (decide (w < 0)) (roundMag (w.natAbs * unitsPerOne) 1)

/-- `sat_inc32(n)` (00_scope.md R10). -/
def satInc32 (n : BitVec 32) : BitVec 32 := if n.toNat < 2 ^ 32 - 1 then n + 1#32 else n

/-! ### Constants (00_scope.md R14) -/

def fPi : F64 := 0x400921FB54442D18#64
def fHalfPi : F64 := 0x3FF921FB54442D18#64
def fThreeHalfPi : F64 := 0x4012D97C7F3321D2#64
def fTwoPi : F64 := 0x401921FB54442D18#64

/-- +0.0. -/
def fZero : F64 := 0#64
def fOne : F64 := 0x3FF0000000000000#64
def fMinusOne : F64 := 0xBFF0000000000000#64
def fTwo : F64 := 0x4000000000000000#64
def fFour : F64 := 0x4010000000000000#64
def fMinusFour : F64 := 0xC010000000000000#64

end Sys2Proof.Machine
end

