-- ==== Sys2Proof/Machine/State.lean ====
section
/-! DEFINITION. The state of the block: the configuration and live registers (10_state.md R22 to R42), the error record
(R47), the internal state (R59), the ports (30_encoding.md R81, 46_pipeline.md R246), and the reset state
(70_reset_and_hazards.md R275, R277). Reads and writes of it are in Machine/Ops.lean. -/

namespace Sys2Proof.Machine

/-- Why the machine stops with a fault. -/
inductive Fault where
  /-- Raised by a SAMPLE or a POP that names a word outside the BUF_COUNT buffers of BUF_SIZE words of the pool
  (20_memory.md R61). The spec gives no such access and no run from reset makes one (46_pipeline.md R238); safe. -/
  | poolAddress
  deriving DecidableEq, Repr

/-- Why the machine gives an instruction no meaning. -/
inductive Refusal where
  /-- Raised only by an arm of `exec` for an operation without a meaning, with its mnemonic; safe. No arm raises it. -/
  | notModelled (mnemonic : String)
  deriving DecidableEq, Repr

/-- The operating mode, MODE (10_state.md R24). -/
inductive OpMode where
  | continuous | pulse | modem
  deriving DecidableEq, Repr

/-- The waveform kind, WAVEFORM (10_state.md R26). -/
inductive Waveform where
  | sine | sineSquaredAlt | sineCubed | triangle | square
  deriving DecidableEq, Repr

/-- The data-bit count, DATA_BITS (10_state.md R37). -/
inductive DataBits where
  | seven | eight
  deriving DecidableEq, Repr

/-- The parity mode, PARITY (10_state.md R38). -/
inductive Parity where
  | none | even | odd
  deriving DecidableEq, Repr

/-- A duration in half-bits, 2, 3 or 4: STOP_BITS (10_state.md R39) and a symbol's duration (44_framing.md R190). -/
inductive HalfBits where
  | two | three | four
  deriving DecidableEq, Repr

/-- The mode of the period state machine, `pmode` (43_period.md R165). -/
inductive PeriodMode where
  | resting | holding | ramping
  deriving DecidableEq, Repr

/-- The error codes (60_exceptions.md R256). Codes 10 to 255 are never produced, so they have no name here. -/
inductive ErrCode where
  | none | badAddr | access | busy | mode | notRunning | reservedValue | range | symqFull | device
  deriving DecidableEq, Repr

/-- A symbol `(f, h)`: a tone frequency in Hz and a duration in half-bits (44_framing.md R190). -/
structure SymbolT where
  tone : F64
  dur : HalfBits
  deriving DecidableEq, Repr

/-- 64-bit words by address: strictly rising addresses, no word equal to +0.0; an unlisted word reads +0.0, the reset
contents of the pool (10_state.md R59; log entry 8). `Memory.wf` says the form holds. -/
abbrev Memory := List (Nat × F64)

/-- A sequence of `len` samples, sample `j` being word `j` of `words`. -/
structure SampleBuf where
  len : Nat
  words : Memory
  deriving DecidableEq, Repr

/-- The class CFG registers (10_state.md R24 to R28). -/
structure CfgRegs where
  mode : OpMode
  sampleRate : F64
  waveform : Waveform
  bufSize : Word64
  bufCount : Word64
  deriving DecidableEq, Repr

/-- The class LIVE registers (10_state.md R29 to R42). -/
structure LiveRegs where
  freq : F64
  volume : F64
  envK1 : F64
  envK2 : F64
  freqRaiseRate : F64
  volRaiseRate : F64
  holdDuration : F64
  baud : F64
  dataBits : DataBits
  parity : Parity
  stopBits : HalfBits
  markFreq : F64
  spaceFreq : F64
  idleFreq : F64
  deriving DecidableEq, Repr

/-- The oscillator, envelope, period and scheduler state, which the producer owns (10_state.md R59, 20_memory.md R74). -/
structure Synth where
  phase : F64
  dphi : F64
  curF : F64
  curV : F64
  tgt : F64
  tgtValid : Bool
  pmode : PeriodMode
  vf : F64
  tic : F64
  frd : F64
  vrd : F64
  invFs : F64
  ws : BitVec 32
  cerr : F64
  deriving DecidableEq, Repr

/-- The symbol FIFO (44_framing.md R191); the head of a list is the oldest symbol (00_scope.md R11). -/
structure SymFifo where
  committed : List SymbolT
  staged : List SymbolT
  deriving DecidableEq, Repr

/-- The buffer pipeline (46_pipeline.md R230). -/
structure Pipeline where
  pool : Memory
  ready : List (BitVec 4)
  fillIdx : BitVec 4
  fillPos : BitVec 32
  outBuf : SampleBuf
  underruns : BitVec 32
  deriving DecidableEq, Repr

/-- The outputs driven in the last cycle (30_encoding.md R81, 46_pipeline.md R246; log entry 2). `frame_data` and
`stream_active` are views of the rest of the state: `frameData` and `streamActive` in Machine/Flags.lean. -/
structure Outputs where
  hostRdata : Word64
  hostErr : Bool
  frameValid : Bool
  underrun : Bool
  deriving DecidableEq, Repr

/-- The inputs of one cycle (20_memory.md R70, 70_reset_and_hazards.md R275). `host` is `none` when `host_valid = 0`. -/
structure CycleInputs where
  rst : Bool
  host : Option Bus73
  frameReq : Bool
  devReady : Bool
  deriving DecidableEq, Repr

/-- The state of the block, with the environment's coming inputs. -/
structure State where
  /-- The implementation parameters of 00_scope.md R6; no step changes them (log entry 4). -/
  params : Params
  /-- `running` (10_state.md R59). -/
  running : Bool
  cfg : CfgRegs
  live : LiveRegs
  /-- ERR, its 17 significant bits `{W, ADDR, CODE}` (10_state.md R47). -/
  err : BitVec 17
  synth : Synth
  symq : SymFifo
  pipe : Pipeline
  out : Outputs
  /-- The level of the `dev_ready` input in the current cycle (46_pipeline.md R246). -/
  devReady : Bool
  /-- The inputs of the coming cycles, next first; the model's own field (log entry 1). -/
  inputs : List CycleInputs
  deriving DecidableEq, Repr

/-- The reset values of the CFG registers (10_state.md R22). -/
def CfgRegs.reset : CfgRegs where
  mode := .continuous
  sampleRate := 0x40E5888000000000#64
  waveform := .sine
  bufSize := 1024#64
  bufCount := 4#64

/-- The reset values of the LIVE registers (10_state.md R22). -/
def LiveRegs.reset : LiveRegs where
  freq := 0x408F400000000000#64
  volume := 0#64
  envK1 := 0x3FEFEF9DB22D0E56#64
  envK2 := 0x3F60624DD2F1A9FC#64
  freqRaiseRate := 0#64
  volRaiseRate := 0#64
  holdDuration := 0#64
  baud := 0x4092C00000000000#64
  dataBits := .seven
  parity := .even
  stopBits := .two
  markFreq := 0x4094500000000000#64
  spaceFreq := 0x40A0680000000000#64
  idleFreq := 0x4094500000000000#64

/-- The reset values of the oscillator, envelope, period and scheduler state (10_state.md R59). -/
def Synth.reset : Synth where
  phase := 0#64
  dphi := 0#64
  curF := 0#64
  curV := 0#64
  tgt := 0#64
  tgtValid := false
  pmode := .resting
  vf := 0#64
  tic := 0#64
  frd := 0#64
  vrd := 0#64
  invFs := 0#64
  ws := 0#32
  cerr := 0#64

/-- The reset values of the pipeline (10_state.md R59): the pool and `out_buf` hold +0.0. -/
def Pipeline.reset : Pipeline where
  pool := []
  ready := []
  fillIdx := 0#4
  fillPos := 0#32
  outBuf := ⟨1024, []⟩
  underruns := 0#32

/-- The outputs of a cycle in which nothing drives them (30_encoding.md R81, 46_pipeline.md R246). -/
def Outputs.quiet : Outputs where
  hostRdata := 0#64
  hostErr := false
  frameValid := false
  underrun := false

/-- The state right after reset, for any implementation parameters (70_reset_and_hazards.md R275, R277). -/
def State.resetWith (p : Params) : State where
  params := p
  running := false
  cfg := CfgRegs.reset
  live := LiveRegs.reset
  err := 0#17
  synth := Synth.reset
  symq := ⟨[], []⟩
  pipe := Pipeline.reset
  out := Outputs.quiet
  devReady := true
  inputs := []

/-- The state right after reset, with the default parameters of 00_scope.md R6. -/
def State.reset : State := State.resetWith Params.default

end Sys2Proof.Machine
end

