-- ==== Sys2Proof/Machine/Operands.lean ====
section
/-! DEFINITION. The operand forms of 30_encoding.md R82 to R84: the codes of the enumerated registers, the legal ranges of
the f64 and u registers (10_state.md R24 to R42), and the helper values of 40_control.md R101. -/

namespace Sys2Proof.Machine

/-! ### Enumerated registers (30_encoding.md R84): all 64 bits must equal a listed code -/

/-- The MODE code (10_state.md R24). -/
def OpMode.code (m : OpMode) : Word64 :=
  match m with
  | .continuous => 0#64
  | .pulse => 1#64
  | .modem => 2#64

def OpMode.ofCode? (d : Word64) : Option OpMode :=
  match d.toNat with
  | 0 => some .continuous
  | 1 => some .pulse
  | 2 => some .modem
  | _ => none

/-- The WAVEFORM code (10_state.md R26). -/
def Waveform.code (w : Waveform) : Word64 :=
  match w with
  | .sine => 0#64
  | .sineSquaredAlt => 1#64
  | .sineCubed => 2#64
  | .triangle => 3#64
  | .square => 4#64

def Waveform.ofCode? (d : Word64) : Option Waveform :=
  match d.toNat with
  | 0 => some .sine
  | 1 => some .sineSquaredAlt
  | 2 => some .sineCubed
  | 3 => some .triangle
  | 4 => some .square
  | _ => none

/-- The number of data bits of a frame (10_state.md R37). -/
def DataBits.count (b : DataBits) : Nat :=
  match b with
  | .seven => 7
  | .eight => 8

/-- The DATA_BITS value. -/
def DataBits.code (b : DataBits) : Word64 := BitVec.ofNat 64 b.count

def DataBits.ofCode? (d : Word64) : Option DataBits :=
  match d.toNat with
  | 7 => some .seven
  | 8 => some .eight
  | _ => none

/-- The PARITY code (10_state.md R38). -/
def Parity.code (p : Parity) : Word64 :=
  match p with
  | .none => 0#64
  | .even => 1#64
  | .odd => 2#64

def Parity.ofCode? (d : Word64) : Option Parity :=
  match d.toNat with
  | 0 => some .none
  | 1 => some .even
  | 2 => some .odd
  | _ => Option.none

/-- The number of half-bits of a duration (44_framing.md R190). -/
def HalfBits.count (h : HalfBits) : Nat :=
  match h with
  | .two => 2
  | .three => 3
  | .four => 4

/-- The STOP_BITS value (10_state.md R39). -/
def HalfBits.code (h : HalfBits) : Word64 := BitVec.ofNat 64 h.count

def HalfBits.ofCode? (d : Word64) : Option HalfBits :=
  match d.toNat with
  | 2 => some .two
  | 3 => some .three
  | 4 => some .four
  | _ => none

/-- STATUS.PMODE (10_state.md R46). -/
def PeriodMode.code (m : PeriodMode) : BitVec 2 :=
  match m with
  | .resting => 0#2
  | .holding => 1#2
  | .ramping => 2#2

/-- ERR.CODE (60_exceptions.md R256). -/
def ErrCode.code (c : ErrCode) : BitVec 8 :=
  match c with
  | .none => 0#8
  | .badAddr => 1#8
  | .access => 2#8
  | .busy => 3#8
  | .mode => 4#8
  | .notRunning => 5#8
  | .reservedValue => 6#8
  | .range => 7#8
  | .symqFull => 8#8
  | .device => 9#8

/-! ### Helper values (40_control.md R101) -/

/-- `fs`. -/
def fs (s : State) : F64 := s.cfg.sampleRate

/-- `fhalf`, the highest legal tone. -/
def fhalf (s : State) : F64 := fdiv (fs s) fTwo

/-- `flim`: a quarter of the sample rate in PULSE mode, half of it otherwise. -/
def flim (s : State) : F64 := if s.cfg.mode = .pulse then fdiv (fs s) fFour else fhalf s

/-! ### Legal values: finiteness first, then the range (30_encoding.md R82) -/

/-- `finite(v)` and `lo ≤ v ≤ hi`. -/
def inRange (lo hi v : F64) : Bool := isFinite v && fle lo v && fle v hi

/-- SAMPLE_RATE (40_control.md R112). -/
def legalSampleRate (p : Params) (v : F64) : Bool := inRange fOne p.fsMax v

/-- FREQ (41_oscillator.md R146). -/
def legalFreq (s : State) (v : F64) : Bool := inRange fZero (flim s) v

/-- MARK_FREQ, SPACE_FREQ and IDLE_FREQ (44_framing.md R206, R208; 45_scheduler.md R223). -/
def legalTone (s : State) (v : F64) : Bool := inRange fZero (fhalf s) v

/-- BAUD (45_scheduler.md R221). -/
def legalBaud (s : State) (v : F64) : Bool := inRange fOne (fhalf s) v

/-- VOLUME, ENV_K1 and ENV_K2 (42_envelope.md R154, R156, R158). -/
def legalUnit (v : F64) : Bool := inRange fZero fOne v

/-- FREQ_RAISE_RATE, VOL_RAISE_RATE and HOLD_DURATION (43_period.md R173, R175, R177). -/
def legalNonNeg (v : F64) : Bool := isFinite v && fle fZero v

/-- BUF_SIZE, compared as the whole 64-bit value (46_pipeline.md R241, 30_encoding.md R83). -/
def legalBufSize (p : Params) (n : Word64) : Bool := decide (1 ≤ n.toNat ∧ n.toNat ≤ p.bufszMax)

/-- BUF_COUNT (46_pipeline.md R243). -/
def legalBufCount (p : Params) (n : Word64) : Bool := decide (2 ≤ n.toNat ∧ n.toNat ≤ p.nbufMax)

/-- TX_BYTE: DATA[63:8] = 0 (10_state.md R58). -/
def legalByte (d : Word64) : Bool := decide (d.toNat < 2 ^ 8)

/-- DATA[7:0]. -/
def byteOf (d : Word64) : BitVec 8 := d.extractLsb' 0 8

end Sys2Proof.Machine
end

