-- ==== Sys2Proof/Machine/Flags.lean ====
section
/-! DEFINITION. The values computed from state when they are read: STATUS (10_state.md R46), ERR (R47), SYMQ_FREE (R48), and
the two audio-port outputs that are views of the state (46_pipeline.md R246). The block has no condition codes; STATUS is
its only set of flags. -/

namespace Sys2Proof.Machine

/-- The part identifier (10_state.md R45). -/
def partId : Word64 := 0x53494747454E0007#64

/-- STATUS.SYMQ_EMPTY. -/
def symqEmpty (s : State) : Bool := s.symq.committed.isEmpty

/-- STATUS.TX_IDLE: no symbol is sounding and none is committed. -/
def txIdle (s : State) : Bool := s.synth.ws == 0#32 && s.symq.committed.isEmpty

/-- STATUS.STAGED. -/
def stagedFlag (s : State) : Bool := !s.symq.staged.isEmpty

/-- STATUS (40_control.md R103): `{dev_ready, fill_idx, len(ready), 0, STAGED, TX_IDLE, SYMQ_EMPTY, TGT_VALID, PMODE,
RUNNING}`, zero-extended. -/
def statusWord (s : State) : Word64 :=
  (BitVec.ofBool s.devReady ++ s.pipe.fillIdx ++ BitVec.ofNat 4 s.pipe.ready.length ++ 0#1 ++
    BitVec.ofBool (stagedFlag s) ++ BitVec.ofBool (txIdle s) ++ BitVec.ofBool (symqEmpty s) ++
    BitVec.ofBool s.synth.tgtValid ++ s.synth.pmode.code ++ BitVec.ofBool s.running : BitVec 17).setWidth 64

/-- ERR as read: bits 63:17 are 0 (10_state.md R47). -/
def errWord (s : State) : Word64 := s.err.setWidth 64

/-- SYMQ_FREE (10_state.md R48). -/
def symqFree (s : State) : Word64 :=
  BitVec.ofNat 64 s.params.symqDepth - BitVec.ofNat 64 s.symq.committed.length - BitVec.ofNat 64 s.symq.staged.length

/-- `frame_data`: `out_buf` at the end of the cycle (46_pipeline.md R246). -/
def frameData (s : State) : SampleBuf := s.pipe.outBuf

/-- `stream_active`: `running` at the end of the cycle (46_pipeline.md R246). -/
def streamActive (s : State) : Bool := s.running

end Sys2Proof.Machine
end

