-- ==== Sys2Proof/Machine/Ops.lean ====
section
/-! DEFINITION. The named operations the meanings share: answering and rejecting a transaction (40_control.md R100,
60_exceptions.md R257), the common checks of R100, the pool's memory (00_scope.md R12), stream initialisation
(40_control.md R107), and the inputs of a cycle and the reset cycle (70_reset_and_hazards.md R275). -/

namespace Sys2Proof.Machine

/-- The result of a transaction or of an agent's action. -/
abbrev Result := Host.Outcome State Fault Refusal

/-- One action after another (20_memory.md R69): a stop ends the cycle. -/
def andThen (o : Result) (f : State → Result) : Result :=
  match o with
  | .next s => f s
  | .fault r => .fault r
  | .refused r => .refused r

/-! ### Answering a transaction (30_encoding.md R81) -/

/-- An accepted read: the value on `host_rdata`, `host_err` 0. -/
def acceptRead (v : Word64) (s : State) : State :=
  { s with out.hostRdata := v, out.hostErr := false }

/-- An accepted write: `host_rdata` 0 and `host_err` 0. -/
def accept (s : State) : State :=
  { s with out.hostRdata := 0#64, out.hostErr := false }

/-- The ERR record `{W, A[7:0], code[7:0]}` (60_exceptions.md R257). -/
def errRecord (w : Bool) (a : RegAddr) (c : ErrCode) : BitVec 17 :=
  BitVec.ofBool w ++ a ++ c.code

/-- `raise HostError(code)` (00_scope.md R13, 60_exceptions.md R257): the block's one exception. It records the rejected
transaction in ERR, asserts `host_err` and drives `host_rdata` to 0; nothing else changes, no control is transferred, and
there is no return (R261, R262). -/
def hostError (w : Bool) (a : RegAddr) (c : ErrCode) (s : State) : State :=
  { s with err := errRecord w a c, out.hostRdata := 0#64, out.hostErr := true }

/-- The error code of a decoder's verdict (30_encoding.md R88, R89, R90). -/
def verdictCode (v : Verdict) : ErrCode :=
  match v with
  | .badAddr => .badAddr
  | .access => .access
  | .reservedValue => .reservedValue

/-! ### The common checks of a write (40_control.md R100) -/

/-- Step 6: a CFG register is not written while running. -/
def unlessBusy (a : RegAddr) (s : State) (t : State) : State :=
  if s.running then hostError true a .busy s else t

/-- Steps 7 and 8: a stream operation needs its own mode, then a running stream. -/
def ifStreaming (m : OpMode) (a : RegAddr) (s : State) (t : State) : State :=
  if s.cfg.mode ≠ m then hostError true a .mode s
  else if s.running then t
  else hostError true a .notRunning s

/-- Step 9 for an f64 or u operand: an illegal value is rejected with RANGE. -/
def ifInRange (legal : Bool) (a : RegAddr) (s : State) (t : State) : State :=
  if legal then t else hostError true a .range s

/-- Step 9 for an enum operand: an unlisted code is rejected with RESERVED_VALUE, a listed one is used. -/
def ifListed {α : Type} (code : Option α) (a : RegAddr) (s : State) (t : α → State) : State :=
  match code with
  | some x => t x
  | none => hostError true a .reservedValue s

/-! ### The pool's memory (00_scope.md R12, 20_memory.md R61) -/

/-- The word at an address; an unlisted word reads +0.0, the reset contents of the pool (10_state.md R59). -/
def Memory.read (m : Memory) (a : Nat) : F64 :=
  match m with
  | [] => 0#64
  | (b, v) :: r => if a = b then v else Memory.read r a

/-- Listing a word: the word +0.0 is not listed. -/
def Memory.put (a : Nat) (v : F64) (m : Memory) : Memory :=
  if v = 0#64 then m else (a, v) :: m

/-- Writing a word, which keeps the canonical form (`Memory.wf`). -/
def Memory.write (m : Memory) (a : Nat) (v : F64) : Memory :=
  match m with
  | [] => Memory.put a v []
  | (b, w) :: r =>
    if a < b then Memory.put a v ((b, w) :: r)
    else if a = b then Memory.put a v r
    else (b, w) :: Memory.write r a v

/-- The words at `base` to `base + n - 1`, moved down by `base`. -/
def Memory.slice (m : Memory) (base n : Nat) : Memory :=
  match m with
  | [] => []
  | (b, v) :: r =>
    if base ≤ b ∧ b < base + n then (b - base, v) :: Memory.slice r base n else Memory.slice r base n

/-- Every listed address is above `a`, in strictly rising order, and no listed word is +0.0. -/
def Memory.wfAbove (a : Nat) (m : Memory) : Bool :=
  match m with
  | [] => true
  | (b, v) :: r => decide (a < b) && v != 0#64 && Memory.wfAbove b r

/-- The canonical form: strictly rising addresses and no listed +0.0. -/
def Memory.wf (m : Memory) : Bool :=
  match m with
  | [] => true
  | (b, v) :: r => v != 0#64 && Memory.wfAbove b r

/-- Sample `j` of a buffer. -/
def SampleBuf.sample (b : SampleBuf) (j : Nat) : F64 := b.words.read j

/-- `n` copies of +0.0. -/
def silence (n : Nat) : SampleBuf := ⟨n, []⟩

/-- The word address of position `j` of pool buffer `i` (20_memory.md R61). -/
def poolAddr (s : State) (i j : Nat) : Nat := i * s.cfg.bufSize.toNat + j

/-- `BufWrite(i, j, v)` (00_scope.md R12). A word outside the pool does not exist: fault. -/
def bufWrite (i j : Nat) (v : F64) (s : State) : Result :=
  if i < s.cfg.bufCount.toNat ∧ j < s.cfg.bufSize.toNat then
    .next { s with pipe.pool := s.pipe.pool.write (poolAddr s i j) v }
  else .fault .poolAddress

/-- `BufRead(i)` (00_scope.md R12): the whole buffer, or none for a buffer outside the pool. -/
def bufRead (i : Nat) (s : State) : Option SampleBuf :=
  if i < s.cfg.bufCount.toNat then
    some ⟨s.cfg.bufSize.toNat, s.pipe.pool.slice (poolAddr s i 0) s.cfg.bufSize.toNat⟩
  else none

/-! ### Stream initialisation (40_control.md R107) -/

/-- The oscillator, envelope, period and scheduler state that `StreamInit()` sets from the registers. -/
def initSynth (s : State) : Synth where
  phase := fZero
  dphi := fZero
  curF := if s.cfg.mode = .modem then s.live.idleFreq else s.live.freq
  curV := fZero
  tgt := if s.cfg.mode = .pulse then fZero else s.live.volume
  tgtValid := true
  pmode := .resting
  vf := fZero
  tic := fZero
  frd := fdiv s.live.freqRaiseRate (fs s)
  vrd := fdiv s.live.volRaiseRate (fs s)
  invFs := fdiv fOne (fs s)
  ws := 0#32
  cerr := fZero

/-- The pipeline state that `StreamInit()` sets: every pool word and every sample of `out_buf` is +0.0. -/
def initPipe (s : State) : Pipeline where
  pool := []
  ready := []
  fillIdx := 0#4
  fillPos := 0#32
  outBuf := silence s.cfg.bufSize.toNat
  underruns := 0#32

/-- `StreamInit()`. -/
def streamInit (s : State) : State :=
  { s with synth := initSynth s, symq := ⟨[], []⟩, pipe := initPipe s, running := true }

/-! ### The inputs of a cycle -/

/-- The inputs of the coming cycle. Where none are listed the environment is idle: no reset, no transaction, no frame
request, and `dev_ready` keeps its level (30_encoding.md R94; log entry 1). -/
def nextInputs (s : State) : CycleInputs :=
  match s.inputs with
  | [] => ⟨false, none, false, s.devReady⟩
  | c :: _ => c

/-- The start of a cycle: the inputs are taken, and no output is driven yet (30_encoding.md R81, 46_pipeline.md R246). -/
def beginCycle (s : State) : State :=
  { s with inputs := s.inputs.tail, devReady := (nextInputs s).devReady, out := Outputs.quiet }

/-- A cycle with `rst = 1` (70_reset_and_hazards.md R275): the reset state; the parameters and the environment's inputs are
not part of what reset sets. -/
def resetCycle (s : State) : State :=
  { State.resetWith s.params with inputs := s.inputs.tail, devReady := (nextInputs s).devReady }

/-- The coming cycle's inputs with a host transaction presented and `rst` low, everything else kept. -/
def presentWord (t : Bus73) (s : State) : State :=
  { s with inputs := { nextInputs s with rst := false, host := some t } :: s.inputs.tail }

end Sys2Proof.Machine
end

