-- ==== Sys2Proof/Machine/Control.lean ====
section
/-! DEFINITION. The identification, error, stream-control and engine-configuration transactions (40_control.md R102 to R112). -/

namespace Sys2Proof.Machine

/-! ### Identification and error registers -/

/-- RD.ID (R102). -/
def execRdId (s : State) : Result := .next (acceptRead partId s)

/-- RD.STATUS (R103), computed from the state at the read (10_state.md R46). -/
def execRdStatus (s : State) : Result := .next (acceptRead (statusWord s) s)

/-- RD.ERR (R104), which does not clear it. -/
def execRdErr (s : State) : Result := .next (acceptRead (errWord s) s)

/-- CLRERR (R105): never rejected (R100 step 4). -/
def execClrErr (s : State) : Result :=
  .next (accept { s with err := 0#17 })

/-! ### Stream control -/

/-- Whether the stored frequencies, and in MODEM mode the baud rate, fit the current MODE and SAMPLE_RATE (R106). -/
def startFits (s : State) : Bool :=
  fle s.live.freq (flim s) &&
    (decide (s.cfg.mode ≠ .modem) ||
      (fle s.live.markFreq (fhalf s) && fle s.live.spaceFreq (fhalf s) && fle s.live.idleFreq (fhalf s) &&
        fle s.live.baud (fhalf s)))

/-- START (R106): no effect while running; else DEVICE, then RANGE, then `StreamInit()`. -/
def execStart (s : State) : Result :=
  .next (
    if s.running then accept s
    else if s.devReady then
      if startFits s then accept (streamInit s) else hostError true 0x02#8 .range s
    else hostError true 0x02#8 .device s)

/-- STOP (R108): only `running` changes. -/
def execStop (s : State) : Result :=
  .next (accept { s with running := false })

/-! ### Engine configuration -/

/-- RD.MODE (R109). -/
def execRdMode (s : State) : Result := .next (acceptRead s.cfg.mode.code s)

/-- WR.MODE (R110): BUSY while running, RESERVED_VALUE for a code above 2. -/
def execWrMode (d : Word64) (s : State) : Result :=
  .next (unlessBusy 0x08#8 s (ifListed (OpMode.ofCode? d) 0x08#8 s fun m => accept { s with cfg.mode := m }))

/-- RD.SAMPLE_RATE (R111). -/
def execRdSampleRate (s : State) : Result := .next (acceptRead s.cfg.sampleRate s)

/-- WR.SAMPLE_RATE (R112): BUSY while running, RANGE outside [1.0, FS_MAX]. -/
def execWrSampleRate (d : Word64) (s : State) : Result :=
  .next (unlessBusy 0x09#8 s
    (ifInRange (legalSampleRate s.params d) 0x09#8 s (accept { s with cfg.sampleRate := d })))

end Sys2Proof.Machine
end

