-- ==== Sys2Proof/Machine/Envelope.lean ====
section
/-! DEFINITION. The envelope filter (42_envelope.md) and the host transactions on VOLUME, ENV_K1, ENV_K2 and CUR_VOLUME. -/

namespace Sys2Proof.Machine

/-! ### Filter step (R151) -/

/-- The filter's next value `n`: `(curV *. ENV_K1) +. (tgt *. ENV_K2)`. -/
def envelopeNext (s : State) : F64 :=
  fadd (fmul s.synth.curV s.live.envK1) (fmul s.synth.tgt s.live.envK2)

/-- `EnvelopeStep()` (R151): at the exact fixed point the target is cleared. -/
def envelopeStep (s : State) : State :=
  if s.synth.tgtValid then
    { s with synth.tgtValid := !feq (envelopeNext s) s.synth.curV, synth.curV := envelopeNext s }
  else s

/-! ### Host transactions -/

/-- Storing VOLUME (R154): while running in CONTINUOUS or MODEM mode it also becomes the envelope's target. -/
def storeVolume (d : F64) (s : State) : State :=
  if s.running && decide (s.cfg.mode ≠ .pulse) then
    { s with live.volume := d, synth.tgt := d, synth.tgtValid := true }
  else { s with live.volume := d }

/-- RD.VOLUME (R153). -/
def execRdVolume (s : State) : Result := .next (acceptRead s.live.volume s)

/-- WR.VOLUME (R154): RANGE outside [0.0, 1.0]. -/
def execWrVolume (d : Word64) (s : State) : Result :=
  .next (ifInRange (legalUnit d) 0x11#8 s (accept (storeVolume d s)))

/-- RD.ENV_K1 (R155). -/
def execRdEnvK1 (s : State) : Result := .next (acceptRead s.live.envK1 s)

/-- WR.ENV_K1 (R156): RANGE outside [0.0, 1.0]. -/
def execWrEnvK1 (d : Word64) (s : State) : Result :=
  .next (ifInRange (legalUnit d) 0x12#8 s (accept { s with live.envK1 := d }))

/-- RD.ENV_K2 (R157). -/
def execRdEnvK2 (s : State) : Result := .next (acceptRead s.live.envK2 s)

/-- WR.ENV_K2 (R158): RANGE outside [0.0, 1.0]. -/
def execWrEnvK2 (d : Word64) (s : State) : Result :=
  .next (ifInRange (legalUnit d) 0x13#8 s (accept { s with live.envK2 := d }))

/-- RD.CUR_VOLUME (R159). -/
def execRdCurVolume (s : State) : Result := .next (acceptRead s.synth.curV s)

end Sys2Proof.Machine
end

