-- ==== Sys2Proof/Machine/Framing.lean ====
section
/-! DEFINITION. The serial framing encoder of MODEM mode (44_framing.md) and its host transactions. -/

namespace Sys2Proof.Machine

/-! ### Frame construction (R192, R193) -/

/-- A one-bit symbol: the mark tone for 1, the space tone for 0. -/
def bitSymbol (l : LiveRegs) (bit : Bool) : SymbolT := ⟨if bit then l.markFreq else l.spaceFreq, .two⟩

/-- The data bits of a frame, least-significant first. -/
def dataBitsOf (l : LiveRegs) (b : BitVec 8) : List Bool := (List.range l.dataBits.count).map b.getLsbD

/-- The running parity `r`, the XOR of the data bits. -/
def xorAll (bits : List Bool) : Bool := bits.foldl xor false

/-- The parity symbol, if parity is enabled (R193): EVEN sends `r`, ODD its complement. -/
def paritySymbols (l : LiveRegs) (r : Bool) : List SymbolT :=
  match l.parity with
  | .none => []
  | .even => [bitSymbol l r]
  | .odd => [bitSymbol l (!r)]

/-- `Frame(b)` (R192): start, data, parity, stop. -/
def frame (l : LiveRegs) (b : BitVec 8) : List SymbolT :=
  bitSymbol l false :: ((dataBitsOf l b).map (bitSymbol l) ++ paritySymbols l (xorAll (dataBitsOf l b)) ++
    [⟨l.markFreq, l.stopBits⟩])

/-! ### Host transactions on the FIFO -/

/-- Whether a frame of byte `b` fits in the symbol FIFO (R195). -/
def frameFits (b : BitVec 8) (s : State) : Bool :=
  decide (s.symq.committed.length + s.symq.staged.length + (frame s.live b).length ≤ s.params.symqDepth)

/-- The last part of TXBYTE (R195): the frame is staged whole, or refused with SYMQ_FULL. -/
def stageFrame (b : BitVec 8) (s : State) : State :=
  if frameFits b s then accept { s with symq.staged := s.symq.staged ++ frame s.live b }
  else hostError true 0x27#8 .symqFull s

/-- TXBYTE (R195): MODE, NOT_RUNNING, RESERVED_VALUE, then SYMQ_FULL. -/
def execTxByte (d : Word64) (s : State) : Result :=
  .next (
    ifStreaming .modem 0x27#8 s
      (if legalByte d then stageFrame (byteOf d) s else hostError true 0x27#8 .reservedValue s))

/-- TXCOMMIT (R196): MODE unless MODEM, then NOT_RUNNING when stopped. -/
def execTxCommit (s : State) : Result :=
  .next (
    ifStreaming .modem 0x02#8 s
      (accept { s with symq.committed := s.symq.committed ++ s.symq.staged, symq.staged := [] }))

/-- TXABORT (R197): MODE unless MODEM, then NOT_RUNNING when stopped. -/
def execTxAbort (s : State) : Result :=
  .next (ifStreaming .modem 0x02#8 s (accept { s with symq.staged := [] }))

/-- RD.SYMQ_FREE (R198). -/
def execRdSymqFree (s : State) : Result := .next (acceptRead (symqFree s) s)

/-! ### Frame parameter registers -/

/-- RD.DATA_BITS (R199). -/
def execRdDataBits (s : State) : Result := .next (acceptRead s.live.dataBits.code s)

/-- WR.DATA_BITS (R200): RESERVED_VALUE unless 7 or 8. -/
def execWrDataBits (d : Word64) (s : State) : Result :=
  .next (ifListed (DataBits.ofCode? d) 0x21#8 s fun x => accept { s with live.dataBits := x })

/-- RD.PARITY (R201). -/
def execRdParity (s : State) : Result := .next (acceptRead s.live.parity.code s)

/-- WR.PARITY (R202): RESERVED_VALUE for a code above 2. -/
def execWrParity (d : Word64) (s : State) : Result :=
  .next (ifListed (Parity.ofCode? d) 0x22#8 s fun x => accept { s with live.parity := x })

/-- RD.STOP_BITS (R203). -/
def execRdStopBits (s : State) : Result := .next (acceptRead s.live.stopBits.code s)

/-- WR.STOP_BITS (R204): RESERVED_VALUE unless 2, 3 or 4. -/
def execWrStopBits (d : Word64) (s : State) : Result :=
  .next (ifListed (HalfBits.ofCode? d) 0x23#8 s fun x => accept { s with live.stopBits := x })

/-- RD.MARK_FREQ (R205). -/
def execRdMarkFreq (s : State) : Result := .next (acceptRead s.live.markFreq s)

/-- WR.MARK_FREQ (R206): RANGE outside [0.0, fhalf]. -/
def execWrMarkFreq (d : Word64) (s : State) : Result :=
  .next (ifInRange (legalTone s d) 0x24#8 s (accept { s with live.markFreq := d }))

/-- RD.SPACE_FREQ (R207). -/
def execRdSpaceFreq (s : State) : Result := .next (acceptRead s.live.spaceFreq s)

/-- WR.SPACE_FREQ (R208): RANGE outside [0.0, fhalf]. -/
def execWrSpaceFreq (d : Word64) (s : State) : Result :=
  .next (ifInRange (legalTone s d) 0x25#8 s (accept { s with live.spaceFreq := d }))

end Sys2Proof.Machine
end

