-- ==== Sys2Proof/Machine/Sine.lean ====
section
/-! DEFINITION. SIN (41_oscillator.md R131): an implementation parameter, any total function from binary64 to binary64, held as
data; and its default, the correctly rounded sine. The default is computed in the integers: the sine of the exact operand is
enclosed by fixed-point arithmetic, and where both ends of the enclosure round to one value, that is the nearest one. -/

namespace Sys2Proof.Machine

/-! ### Fixed-point complex numbers: a pair of real and imaginary part, in units of 2^-2400 -/

/-- One. -/
@[irreducible] def fixedOne : Nat := 2 ^ 2400

/-- Horner's form of the exponential series of `i * y`: 1 + (i*y / j) * (1 + (i*y / (j+1)) * ...), `n` factors deep. -/
def expSeries (y : Int) (n j : Nat) : Int × Int :=
  match n with
  | 0 => (fixedOne, 0)
  | k + 1 =>
    let z := expSeries y k (j + 1)
    (fixedOne - y * z.2 / (j * fixedOne : Nat), y * z.1 / (j * fixedOne : Nat))

/-- The square of a number. -/
def fixedSquare (z : Int × Int) : Int × Int :=
  ((z.1 * z.1 - z.2 * z.2) / (fixedOne : Nat), 2 * z.1 * z.2 / (fixedOne : Nat))

/-- A number squared `k` times, which doubles its angle `k` times. -/
def fixedSquares (k : Nat) (z : Int × Int) : Int × Int :=
  match k with
  | 0 => z
  | n + 1 => fixedSquares n (fixedSquare z)

/-! ### The enclosure of a sine -/

/-- How often an operand of `m` units of 2^-1074 is halved to come below 1; at most 1024 times. -/
def sinHalvings (m : Nat) : Nat := m.log2 + 1 - 1074

/-- The sine of `m` units of 2^-1074, in units of 2^-2400, to within `sinError m`. -/
def sinFixed (m : Nat) : Int :=
  (fixedSquares (sinHalvings m) (expSeries ((m * 2 ^ (1326 - sinHalvings m) : Nat) : Int) 400 1)).2

/-- The bound on the error of `sinFixed`, in units of 2^-2400. -/
def sinError (m : Nat) : Nat := 2 ^ (sinHalvings m + 4)

/-- The value that everything within `e` of `s` rounds to, in units of 2^-2400, or none where there is no such value. -/
def roundEnclosed (s : Int) (e : Nat) : Option F64 :=
  let b := roundMag (s.natAbs - e) (2 ^ 1326)
  if e < s.natAbs ∧ roundMag (s.natAbs + e) (2 ^ 1326) = b then some (packF64 (decide (s < 0)) b) else none

/-- The binary64 value nearest to the sine of a finite value; none for a NaN or an infinity, or where the enclosure does not
decide. The sine of a zero is that zero. -/
def nearestSin? (x : F64) : Option F64 :=
  if isFinite x then
    if magnitude x = 0 then some x
    else (roundEnclosed (sinFixed (magnitude x)) (sinError (magnitude x))).map fun r => if signBit x then fneg r else r
  else none

/-- The default SIN: the correctly rounded sine (R131). Where `nearestSin?` gives none the value is free (log entry 5). -/
def defaultSin (x : F64) : F64 := (nearestSin? x).getD (Config.sinUndecided x)

/-- What a value being the correctly rounded sine of another means, in units of 2^-1074: both are finite, and no binary64 value
is nearer to the mathematical sine (R131). -/
def IsNearestSin (x r : F64) : Prop :=
  isFinite x = true ∧ isFinite r = true ∧
    ∀ y : F64, isFinite y = true →
      |(scaled r : ℝ) - Real.sin ((scaled x : ℝ) / 2 ^ 1074) * 2 ^ 1074| ≤
        |(scaled y : ℝ) - Real.sin ((scaled x : ℝ) / 2 ^ 1074) * 2 ^ 1074|

/-! ### The parameter -/

/-- The value that a list of points gives, if it lists the operand. -/
def pointAt? (l : List (F64 × F64)) (x : F64) : Option F64 :=
  match l with
  | [] => none
  | (a, v) :: r => if x = a then some v else pointAt? r x

/-- SIN (R131): the listed value, or the default. -/
def sinOf (f : SinFn) (x : F64) : F64 := (pointAt? f.points x).getD (defaultSin x)

end Sys2Proof.Machine
end

