-- ==== Sys2Proof/Machine/Oscillator.lean ====
section
/-! DEFINITION. The waveform oscillator (41_oscillator.md): the five waveforms, the phase accumulator, the output sample, and the host
transactions on WAVEFORM, FREQ, CUR_FREQ and PHASE. -/

namespace Sys2Proof.Machine

/-! ### Waveform functions (R131 to R137) -/

/-- `WSine` (R133). -/
def wSine (f : SinFn) (p : F64) : F64 := sinOf f p

/-- `WSineSqAlt` (R134): the sign is +1 above PI, strictly, and -1 up to it. -/
def wSineSqAlt (f : SinFn) (p : F64) : F64 :=
  let v := sinOf f p
  fmul (fmul v v) (if flt fPi p then fOne else fMinusOne)

/-- `WSineCubed` (R135): the square first. -/
def wSineCubed (f : SinFn) (p : F64) : F64 :=
  let v := sinOf f p
  fmul (fmul v v) v

/-- `WTriangle` (R136). -/
def wTriangle (p : F64) : F64 :=
  if fle p fHalfPi then fdiv p fHalfPi
  else if fle p fThreeHalfPi then fsub fTwo (fdiv p fHalfPi)
  else fadd fMinusFour (fdiv p fHalfPi)

/-- `WSquare` (R137). -/
def wSquare (p : F64) : F64 := if flt p fPi then fMinusOne else fOne

/-- `Wave(k, p)` (R132), with SIN as an argument (R131). -/
def wave (f : SinFn) (k : Waveform) (p : F64) : F64 :=
  match k with
  | .sine => wSine f p
  | .sineSquaredAlt => wSineSqAlt f p
  | .sineCubed => wSineCubed f p
  | .triangle => wTriangle p
  | .square => wSquare p

/-! ### Phase accumulator (R138 to R141) -/

/-- The phase increment of R138: `(TWO_PI *. f) /. fs`. -/
def phaseIncrement (f rate : F64) : F64 := fdiv (fmul fTwoPi f) rate

/-- `PhaseDelta()` (R138). -/
def phaseDelta (s : State) : State :=
  { s with synth.dphi := phaseIncrement s.synth.curF s.cfg.sampleRate }

/-- The wrap of R139: at TWO_PI or above, one subtraction. -/
def wrapPhase (p : F64) : F64 := if fle fTwoPi p then fsub p fTwoPi else p

/-- `PhaseAdvance()` (R139). -/
def phaseAdvance (s : State) : State :=
  { s with synth.phase := wrapPhase (fadd s.synth.phase s.synth.dphi) }

/-- `OscOut()` (R140). -/
def oscOut (s : State) : F64 := fmul (wave s.params.sin s.cfg.waveform s.synth.phase) s.synth.curV

/-- `ContinuousStep()` (R141). -/
def continuousStep (s : State) : State := { s with synth.curF := s.live.freq }

/-! ### Host transactions -/

/-- RD.WAVEFORM (R143). -/
def execRdWaveform (s : State) : Result := .next (acceptRead s.cfg.waveform.code s)

/-- WR.WAVEFORM (R144): BUSY while running, RESERVED_VALUE for a code above 4. -/
def execWrWaveform (d : Word64) (s : State) : Result :=
  .next (unlessBusy 0x0A#8 s (ifListed (Waveform.ofCode? d) 0x0A#8 s fun k => accept { s with cfg.waveform := k }))

/-- RD.FREQ (R145). -/
def execRdFreq (s : State) : Result := .next (acceptRead s.live.freq s)

/-- WR.FREQ (R146): RANGE outside [0.0, flim]. -/
def execWrFreq (d : Word64) (s : State) : Result :=
  .next (ifInRange (legalFreq s d) 0x10#8 s (accept { s with live.freq := d }))

/-- RD.CUR_FREQ (R147). -/
def execRdCurFreq (s : State) : Result := .next (acceptRead s.synth.curF s)

/-- RD.PHASE (R148). -/
def execRdPhase (s : State) : Result := .next (acceptRead s.synth.phase s)

end Sys2Proof.Machine
end

