-- ==== Sys2Proof/Machine/Period.lean ====
section
/-! DEFINITION. The ramp controller and period state machine of PULSE mode (43_period.md) and its host transactions. -/

namespace Sys2Proof.Machine

/-! ### Per-sample step (R166 to R169) -/

/-- `RestingStep(base)` (R166). -/
def restingStep (base : F64) (y : Synth) : Synth := { y with curF := base }

/-- The time and volume-factor advance that ramping and holding share (R167, R168). -/
def periodAdvance (y : Synth) : Synth :=
  { y with tic := fadd y.tic y.invFs, vf := fmin fOne (fadd y.vf y.vrd) }

/-- `RampingStep(base)` (R167): strictly above `2.0 *. base` the ramp ends. -/
def rampingStep (base : F64) (y : Synth) : Synth :=
  let z := { periodAdvance y with curF := fadd y.curF y.frd }
  if flt (fmul fTwo base) z.curF then { z with curF := base, tic := fZero, pmode := .holding } else z

/-- `HoldingStep(base)` (R168): strictly above HOLD_DURATION the hold ends. -/
def holdingStep (base hold : F64) (y : Synth) : Synth :=
  let z := periodAdvance y
  if flt hold z.tic then { z with pmode := .ramping, curF := base, tic := fZero } else z

/-- `PulseTarget()` (R169). -/
def pulseTarget (volume : F64) (y : Synth) : Synth :=
  { y with tgt := fmul volume y.vf, tgtValid := true }

/-- The mode-specific part of `PeriodStep()`, by the `pmode` at the start of the step. -/
def periodModeStep (s : State) : Synth :=
  match s.synth.pmode with
  | .resting => restingStep s.live.freq s.synth
  | .ramping => rampingStep s.live.freq s.synth
  | .holding => holdingStep s.live.freq s.live.holdDuration s.synth

/-- `PeriodStep()` (43_period.md section 2). -/
def periodStep (s : State) : State :=
  { s with synth := pulseTarget s.live.volume (periodModeStep s) }

/-! ### Host transactions -/

/-- What ACTIVATE does to the period state (R170): it leaves RESTING, and has no effect in the other modes. -/
def enterRamping (s : State) : State :=
  if s.synth.pmode = .resting then
    { s with synth.pmode := .ramping, synth.curF := s.live.freq, synth.vf := fZero, synth.tic := fZero }
  else s

/-- What DEACTIVATE does to the period state (R171). -/
def enterResting (s : State) : State :=
  { s with
    synth.vf := fZero, synth.tic := fZero, synth.pmode := .resting, synth.tgt := fZero, synth.tgtValid := true }

/-- Storing FREQ_RAISE_RATE (R173): while running the per-sample delta follows. -/
def storeFreqRaiseRate (d : F64) (s : State) : State :=
  if s.running then { s with live.freqRaiseRate := d, synth.frd := fdiv d s.cfg.sampleRate }
  else { s with live.freqRaiseRate := d }

/-- Storing VOL_RAISE_RATE (R175): while running the per-sample delta follows. -/
def storeVolRaiseRate (d : F64) (s : State) : State :=
  if s.running then { s with live.volRaiseRate := d, synth.vrd := fdiv d s.cfg.sampleRate }
  else { s with live.volRaiseRate := d }

/-- ACTIVATE (R170): MODE unless PULSE, then NOT_RUNNING when stopped. -/
def execActivate (s : State) : Result :=
  .next (ifStreaming .pulse 0x1B#8 s (accept (enterRamping s)))

/-- DEACTIVATE (R171): MODE unless PULSE, then NOT_RUNNING when stopped. -/
def execDeactivate (s : State) : Result :=
  .next (ifStreaming .pulse 0x1B#8 s (accept (enterResting s)))

/-- RD.FREQ_RAISE_RATE (R172). -/
def execRdFreqRaiseRate (s : State) : Result := .next (acceptRead s.live.freqRaiseRate s)

/-- WR.FREQ_RAISE_RATE (R173): RANGE unless finite and not below 0.0. -/
def execWrFreqRaiseRate (d : Word64) (s : State) : Result :=
  .next (ifInRange (legalNonNeg d) 0x18#8 s (accept (storeFreqRaiseRate d s)))

/-- RD.VOL_RAISE_RATE (R174). -/
def execRdVolRaiseRate (s : State) : Result := .next (acceptRead s.live.volRaiseRate s)

/-- WR.VOL_RAISE_RATE (R175): RANGE unless finite and not below 0.0. -/
def execWrVolRaiseRate (d : Word64) (s : State) : Result :=
  .next (ifInRange (legalNonNeg d) 0x19#8 s (accept (storeVolRaiseRate d s)))

/-- RD.HOLD_DURATION (R176). -/
def execRdHoldDuration (s : State) : Result := .next (acceptRead s.live.holdDuration s)

/-- WR.HOLD_DURATION (R177): RANGE unless finite and not below 0.0. -/
def execWrHoldDuration (d : Word64) (s : State) : Result :=
  .next (ifInRange (legalNonNeg d) 0x1A#8 s (accept { s with live.holdDuration := d }))

/-- RD.TIME_IN_CYCLE (R178). -/
def execRdTimeInCycle (s : State) : Result := .next (acceptRead s.synth.tic s)

/-- RD.VOLUME_FACTOR (R179). -/
def execRdVolumeFactor (s : State) : Result := .next (acceptRead s.synth.vf s)

end Sys2Proof.Machine
end

