-- ==== Sys2Proof/Machine/Scheduler.lean ====
section
/-! DEFINITION. The symbol scheduler of MODEM mode (45_scheduler.md) and its host transactions. -/

namespace Sys2Proof.Machine

/-! ### Per-sample step (R216) -/

/-- A symbol's ideal sample count: its duration in bits times the sample rate, over the baud rate. -/
def idealCount (h : HalfBits) (rate baud : F64) : F64 :=
  fdiv (fmul (fdiv (fofInt h.count) fTwo) rate) baud

/-- The pop of one symbol: the tone, the whole number of samples `w = roundHalfEven(ideal -. cerr)`, and the error
`cerr = f64(w) -. t` carried to the next pop (90_conflicts.md C1). -/
def popSymbol (q : SymbolT) (s : State) : Synth :=
  let t := fsub (idealCount q.dur s.cfg.sampleRate s.live.baud) s.synth.cerr
  let w := roundHalfEven t
  { s.synth with curF := q.tone, cerr := fsub (fofInt w) t, ws := BitVec.ofInt 32 w }

/-- The first half of `SchedulerStep()`: at `ws = 0` pop the oldest committed symbol, or play the idle tone. -/
def schedulerFetch (s : State) : State :=
  if s.synth.ws = 0#32 then
    match s.symq.committed with
    | q :: rest => { s with synth := popSymbol q s, symq.committed := rest }
    | [] => { s with synth.curF := s.live.idleFreq }
  else s

/-- The second half: the sample just scheduled is counted, in the pop sample too (90_conflicts.md C7). -/
def schedulerCount (s : State) : State :=
  if s.synth.ws = 0#32 then s else { s with synth.ws := s.synth.ws - 1#32 }

/-- `SchedulerStep()` (R216). -/
def schedulerStep (s : State) : State := schedulerCount (schedulerFetch s)

/-! ### Host transactions -/

/-- RD.BAUD (R220). -/
def execRdBaud (s : State) : Result := .next (acceptRead s.live.baud s)

/-- WR.BAUD (R221): RANGE outside [1.0, fhalf]. -/
def execWrBaud (d : Word64) (s : State) : Result :=
  .next (ifInRange (legalBaud s d) 0x20#8 s (accept { s with live.baud := d }))

/-- RD.IDLE_FREQ (R222). -/
def execRdIdleFreq (s : State) : Result := .next (acceptRead s.live.idleFreq s)

/-- WR.IDLE_FREQ (R223): RANGE outside [0.0, fhalf]. -/
def execWrIdleFreq (d : Word64) (s : State) : Result :=
  .next (ifInRange (legalTone s d) 0x26#8 s (accept { s with live.idleFreq := d }))

/-- RD.WAIT_SAMPLES (R224). -/
def execRdWaitSamples (s : State) : Result := .next (acceptRead (s.synth.ws.setWidth 64) s)

/-- RD.CARRIED_ERR (R225). -/
def execRdCarriedErr (s : State) : Result := .next (acceptRead s.synth.cerr s)

end Sys2Proof.Machine
end

