-- ==== Sys2Proof/Machine/Pipeline.lean ====
section
/-! DEFINITION. The buffer pipeline (46_pipeline.md): the sample step that ties the datapath together, publish, stall, POP and underrun, and
the host transactions on BUF_SIZE, BUF_COUNT, UNDERRUN_COUNT and FILL_POS. -/

namespace Sys2Proof.Machine

/-! ### Producer (R231 to R234) -/

/-- The control step of a sample (R232, step 1), by the operating mode. -/
def controlStep (s : State) : State :=
  match s.cfg.mode with
  | .continuous => continuousStep s
  | .pulse => periodStep s
  | .modem => schedulerStep s

/-- The state from which a sample is taken (R232, steps 1 to 3): control, phase increment, envelope. -/
def beforeSample (s : State) : State := envelopeStep (phaseDelta (controlStep s))

/-- `SampleStep()` (R232): control, increment, envelope, output, store, advance. -/
def sampleStep (s : State) : Result :=
  let b := beforeSample s
  andThen (bufWrite b.pipe.fillIdx.toNat b.pipe.fillPos.toNat (oscOut b) b) fun c =>
    .next (phaseAdvance { c with pipe.fillPos := c.pipe.fillPos + 1#32 })

/-- `Publish()` (R233). -/
def publish (s : State) : State :=
  { s with
    pipe.ready := s.pipe.ready ++ [s.pipe.fillIdx],
    pipe.fillIdx := BitVec.ofNat 4 ((s.pipe.fillIdx.toNat + 1) % s.cfg.bufCount.toNat),
    pipe.fillPos := 0#32 }

/-- `ProducerAct()` (R231): a sample step, a publish, or a stall (R234). -/
def producerAct (s : State) : Result :=
  if s.running then
    if s.pipe.fillPos.toNat < s.cfg.bufSize.toNat then sampleStep s
    else if s.pipe.ready.length + 1 < s.cfg.bufCount.toNat then .next (publish s)
    else .next s
  else .next s

/-! ### Consumer (R235 to R237) -/

/-- `Underrun()` (R236): silence, counted, and the stream goes on. -/
def underrunPop (s : State) : State :=
  { s with
    pipe.outBuf := silence s.cfg.bufSize.toNat, pipe.underruns := satInc32 s.pipe.underruns,
    out.frameValid := true, out.underrun := true }

/-- `ConsumerPop()` (R235): the oldest ready buffer, or an underrun; ignored while stopped (R237). -/
def consumerPop (s : State) : Result :=
  if s.running then
    match s.pipe.ready with
    | i :: rest =>
      match bufRead i.toNat s with
      | some b => .next { s with pipe.ready := rest, pipe.outBuf := b, out.frameValid := true, out.underrun := false }
      | none => .fault .poolAddress
    | [] => .next (underrunPop s)
  else .next s

/-- Step 2 of a cycle (20_memory.md R69): a POP when the device requests a frame. -/
def consumerAct (req : Bool) (s : State) : Result := if req then consumerPop s else .next s

/-! ### Host transactions -/

/-- RD.BUF_SIZE (R240). -/
def execRdBufSize (s : State) : Result := .next (acceptRead s.cfg.bufSize s)

/-- WR.BUF_SIZE (R241): BUSY while running, RANGE outside [1, BUFSZ_MAX]. -/
def execWrBufSize (d : Word64) (s : State) : Result :=
  .next (unlessBusy 0x0B#8 s
    (ifInRange (legalBufSize s.params d) 0x0B#8 s (accept { s with cfg.bufSize := d })))

/-- RD.BUF_COUNT (R242). -/
def execRdBufCount (s : State) : Result := .next (acceptRead s.cfg.bufCount s)

/-- WR.BUF_COUNT (R243): BUSY while running, RANGE outside [2, NBUF_MAX]. -/
def execWrBufCount (d : Word64) (s : State) : Result :=
  .next (unlessBusy 0x0C#8 s
    (ifInRange (legalBufCount s.params d) 0x0C#8 s (accept { s with cfg.bufCount := d })))

/-- RD.UNDERRUN_COUNT (R244). -/
def execRdUnderrunCount (s : State) : Result := .next (acceptRead (s.pipe.underruns.setWidth 64) s)

/-- RD.FILL_POS (R245). -/
def execRdFillPos (s : State) : Result := .next (acceptRead (s.pipe.fillPos.setWidth 64) s)

end Sys2Proof.Machine
end

