-- ==== Sys2Proof/Machine/Dispatch.lean ====
section
/-! DEFINITION. The dispatch: one arm for each operation of the opcode map (30_encoding.md R87), each a call of its
meaning. `exec i s` is step 1 of a cycle, `HostTransaction` (40_control.md R100), for a word that decodes to `i`. -/

namespace Sys2Proof.Machine

def exec (i : Instr) (s : State) : Host.Outcome State Fault Refusal :=
  match i with
  | .rdId => Sys2Proof.Machine.execRdId s
  | .rdStatus => Sys2Proof.Machine.execRdStatus s
  | .rdErr => Sys2Proof.Machine.execRdErr s
  | .clrErr => Sys2Proof.Machine.execClrErr s
  | .start => Sys2Proof.Machine.execStart s
  | .stop => Sys2Proof.Machine.execStop s
  | .rdMode => Sys2Proof.Machine.execRdMode s
  | .wrMode d => Sys2Proof.Machine.execWrMode d s
  | .rdSampleRate => Sys2Proof.Machine.execRdSampleRate s
  | .wrSampleRate d => Sys2Proof.Machine.execWrSampleRate d s
  | .rdWaveform => Sys2Proof.Machine.execRdWaveform s
  | .wrWaveform d => Sys2Proof.Machine.execWrWaveform d s
  | .rdFreq => Sys2Proof.Machine.execRdFreq s
  | .wrFreq d => Sys2Proof.Machine.execWrFreq d s
  | .rdCurFreq => Sys2Proof.Machine.execRdCurFreq s
  | .rdPhase => Sys2Proof.Machine.execRdPhase s
  | .rdVolume => Sys2Proof.Machine.execRdVolume s
  | .wrVolume d => Sys2Proof.Machine.execWrVolume d s
  | .rdEnvK1 => Sys2Proof.Machine.execRdEnvK1 s
  | .wrEnvK1 d => Sys2Proof.Machine.execWrEnvK1 d s
  | .rdEnvK2 => Sys2Proof.Machine.execRdEnvK2 s
  | .wrEnvK2 d => Sys2Proof.Machine.execWrEnvK2 d s
  | .rdCurVolume => Sys2Proof.Machine.execRdCurVolume s
  | .activate => Sys2Proof.Machine.execActivate s
  | .deactivate => Sys2Proof.Machine.execDeactivate s
  | .rdFreqRaiseRate => Sys2Proof.Machine.execRdFreqRaiseRate s
  | .wrFreqRaiseRate d => Sys2Proof.Machine.execWrFreqRaiseRate d s
  | .rdVolRaiseRate => Sys2Proof.Machine.execRdVolRaiseRate s
  | .wrVolRaiseRate d => Sys2Proof.Machine.execWrVolRaiseRate d s
  | .rdHoldDuration => Sys2Proof.Machine.execRdHoldDuration s
  | .wrHoldDuration d => Sys2Proof.Machine.execWrHoldDuration d s
  | .rdTimeInCycle => Sys2Proof.Machine.execRdTimeInCycle s
  | .rdVolumeFactor => Sys2Proof.Machine.execRdVolumeFactor s
  | .txByte d => Sys2Proof.Machine.execTxByte d s
  | .txCommit => Sys2Proof.Machine.execTxCommit s
  | .txAbort => Sys2Proof.Machine.execTxAbort s
  | .rdSymqFree => Sys2Proof.Machine.execRdSymqFree s
  | .rdDataBits => Sys2Proof.Machine.execRdDataBits s
  | .wrDataBits d => Sys2Proof.Machine.execWrDataBits d s
  | .rdParity => Sys2Proof.Machine.execRdParity s
  | .wrParity d => Sys2Proof.Machine.execWrParity d s
  | .rdStopBits => Sys2Proof.Machine.execRdStopBits s
  | .wrStopBits d => Sys2Proof.Machine.execWrStopBits d s
  | .rdMarkFreq => Sys2Proof.Machine.execRdMarkFreq s
  | .wrMarkFreq d => Sys2Proof.Machine.execWrMarkFreq d s
  | .rdSpaceFreq => Sys2Proof.Machine.execRdSpaceFreq s
  | .wrSpaceFreq d => Sys2Proof.Machine.execWrSpaceFreq d s
  | .rdBaud => Sys2Proof.Machine.execRdBaud s
  | .wrBaud d => Sys2Proof.Machine.execWrBaud d s
  | .rdIdleFreq => Sys2Proof.Machine.execRdIdleFreq s
  | .wrIdleFreq d => Sys2Proof.Machine.execWrIdleFreq d s
  | .rdWaitSamples => Sys2Proof.Machine.execRdWaitSamples s
  | .rdCarriedErr => Sys2Proof.Machine.execRdCarriedErr s
  | .rdBufSize => Sys2Proof.Machine.execRdBufSize s
  | .wrBufSize d => Sys2Proof.Machine.execWrBufSize d s
  | .rdBufCount => Sys2Proof.Machine.execRdBufCount s
  | .wrBufCount d => Sys2Proof.Machine.execWrBufCount d s
  | .rdUnderrunCount => Sys2Proof.Machine.execRdUnderrunCount s
  | .rdFillPos => Sys2Proof.Machine.execRdFillPos s

end Sys2Proof.Machine
end

