-- ==== Sys2Proof/Machine/Step.lean ====
section
/-! DEFINITION. One clock cycle (20_memory.md R69): the host transaction, then the consumer, then the producer; or the reset
cycle (70_reset_and_hazards.md R275). -/

namespace Sys2Proof.Machine

/-- Step 1 of a cycle: the transaction presented, if any; a word that is no row of the opcode map is rejected with its
verdict's code (30_encoding.md R85). -/
def hostAct (t : Option Bus73) (s : State) : Host.Outcome State Fault Refusal :=
  match t with
  | none => .next s
  | some t =>
    match decode t with
    | .ok i => exec i s
    | .error v => .next (hostError (fieldW t) (fieldA t) (verdictCode v) s)

/-- Steps 1 to 3 of a cycle with `rst = 0`, from the state at its start. -/
def cycle (c : CycleInputs) (s : State) : Host.Outcome State Fault Refusal :=
  andThen (andThen (hostAct c.host s) (consumerAct c.frameReq)) producerAct

/-- One clock cycle. -/
def step (s : State) : Host.Outcome State Fault Refusal :=
  if (nextInputs s).rst then .next (resetCycle s) else cycle (nextInputs s) (beginCycle s)

/-- The state with a BUS73 word presented in the coming cycle (log entry 3). -/
def State.withFetchWord (s : State) (nbits w : Nat) : State := presentWord (BitVec.ofNat 73 (w % 2 ^ nbits)) s

end Sys2Proof.Machine
end

