-- ==== Sys2Proof/Machine/Program.lean ====
section
/-! DEFINITION. Host programs (30_encoding.md R92 to R94): one line for each cycle, the pseudo-instructions, and the
environment directives, expanded to the inputs of the coming cycles. -/

namespace Sys2Proof.Machine

/-- The pseudo-instructions of 30_encoding.md R93. -/
inductive Pseudo where
  | start | stop | commit | abort | activate | deactivate | clrerr
  | tx (b : BitVec 8)
  | send (bs : List (BitVec 8))
  deriving DecidableEq, Repr

/-- The expansion of a pseudo-instruction, one operation for each cycle (R93). -/
def Pseudo.expand (p : Pseudo) : List Instr :=
  match p with
  | .start => [.start]
  | .stop => [.stop]
  | .commit => [.txCommit]
  | .abort => [.txAbort]
  | .activate => [.activate]
  | .deactivate => [.deactivate]
  | .clrerr => [.clrErr]
  | .tx b => [.txByte (b.setWidth 64)]
  | .send bs => bs.map (fun b => .txByte (b.setWidth 64)) ++ [.txCommit]

/-- A line of a host program (R92, R94): the host part, the `req` and `dev_ready` directives of its cycle; or `idle n`. -/
inductive Line where
  | line (host : Option Bus73) (req : Bool) (devReady : Option Bool)
  | idle (n : Nat)
  deriving DecidableEq, Repr

/-- A line holding one operation and no directive. -/
def Line.op (i : Instr) : Line := .line (some (encode i)) false none

/-- A line holding only `req`. -/
def Line.req : Line := .line none true none

/-- The inputs of the cycles of a program, from the `dev_ready` level before it; a directive's level holds from its cycle on
(R94). -/
def inputsOf (level : Bool) (p : List Line) : List CycleInputs :=
  match p with
  | [] => []
  | .idle n :: r => List.replicate n ⟨false, none, false, level⟩ ++ inputsOf level r
  | .line h q dev :: r => ⟨false, h, q, dev.getD level⟩ :: inputsOf (dev.getD level) r

/-- A state with a program's inputs still to come. -/
def withProgram (p : List Line) (s : State) : State := { s with inputs := inputsOf s.devReady p }

end Sys2Proof.Machine
end

