-- ==== Sys2Proof/WellFormed.lean ====
section
/-! DEFINITION. Well-formed operations: the operand is one that some state and some legal implementation parameters
(00_scope.md R6) accept. Every operation decodes and runs, well-formed or not: an ill-formed operand is rejected in every
state with RESERVED_VALUE or RANGE, or for an earlier reason (40_control.md R100). -/

namespace Sys2Proof

open Sys2Proof.Machine

/-- The largest FS_MAX that 00_scope.md R6 allows, 2147483647.0. -/
def fsMaxMax : F64 := 0x41DFFFFFFFC00000#64

/-- The part of an operation's operand check that no state and no legal parameter can pass. -/
def Instr.wellFormed (i : Instr) : Bool :=
  match i with
  | .rdId => true
  | .rdStatus => true
  | .rdErr => true
  | .clrErr => true
  | .start => true
  | .stop => true
  | .rdMode => true
  | .wrMode d => (OpMode.ofCode? d).isSome
  | .rdSampleRate => true
  | .wrSampleRate d => inRange fOne fsMaxMax d
  | .rdWaveform => true
  | .wrWaveform d => (Waveform.ofCode? d).isSome
  | .rdFreq => true
  | .wrFreq d => legalNonNeg d
  | .rdCurFreq => true
  | .rdPhase => true
  | .rdVolume => true
  | .wrVolume d => legalUnit d
  | .rdEnvK1 => true
  | .wrEnvK1 d => legalUnit d
  | .rdEnvK2 => true
  | .wrEnvK2 d => legalUnit d
  | .rdCurVolume => true
  | .activate => true
  | .deactivate => true
  | .rdFreqRaiseRate => true
  | .wrFreqRaiseRate d => legalNonNeg d
  | .rdVolRaiseRate => true
  | .wrVolRaiseRate d => legalNonNeg d
  | .rdHoldDuration => true
  | .wrHoldDuration d => legalNonNeg d
  | .rdTimeInCycle => true
  | .rdVolumeFactor => true
  | .txByte d => legalByte d
  | .txCommit => true
  | .txAbort => true
  | .rdSymqFree => true
  | .rdDataBits => true
  | .wrDataBits d => (DataBits.ofCode? d).isSome
  | .rdParity => true
  | .wrParity d => (Parity.ofCode? d).isSome
  | .rdStopBits => true
  | .wrStopBits d => (HalfBits.ofCode? d).isSome
  | .rdMarkFreq => true
  | .wrMarkFreq d => legalNonNeg d
  | .rdSpaceFreq => true
  | .wrSpaceFreq d => legalNonNeg d
  | .rdBaud => true
  | .wrBaud d => isFinite d && fle fOne d
  | .rdIdleFreq => true
  | .wrIdleFreq d => legalNonNeg d
  | .rdWaitSamples => true
  | .rdCarriedErr => true
  | .rdBufSize => true
  | .wrBufSize d => decide (1 ≤ d.toNat ∧ d.toNat ≤ 2 ^ 31)
  | .rdBufCount => true
  | .wrBufCount d => decide (2 ≤ d.toNat ∧ d.toNat ≤ 16)
  | .rdUnderrunCount => true
  | .rdFillPos => true

end Sys2Proof
end

