-- ==== Sys2Proof/Safety.lean ====
section
/-! DEFINITION. What counts as a safe state: the legal parameters and register values, the invariants the spec states of the
reachable states, and the canonical form of the pool. No run from reset leaves them. -/

namespace Sys2Proof.Machine

/-- The legal ranges of the implementation parameters (00_scope.md R6). -/
def LegalParams (p : Params) : Prop :=
  (2 ≤ p.nbufMax ∧ p.nbufMax ≤ 16) ∧ (1 ≤ p.bufszMax ∧ p.bufszMax ≤ 2 ^ 31) ∧
    (11 ≤ p.symqDepth ∧ p.symqDepth ≤ 2 ^ 16) ∧ inRange fOne fsMaxMax p.fsMax = true

/-- Every configuration register holds its reset value or a value that a write accepts (10_state.md R22, R25, R27, R28). The
reset values stand beside the legal ranges because parameters that 00_scope.md R6 allows can be smaller than they are. -/
def LegalCfg (p : Params) (c : CfgRegs) : Prop :=
  (c.sampleRate = CfgRegs.reset.sampleRate ∨ legalSampleRate p c.sampleRate = true) ∧
    (c.bufSize = CfgRegs.reset.bufSize ∨ legalBufSize p c.bufSize = true) ∧
    (c.bufCount = CfgRegs.reset.bufCount ∨ legalBufCount p c.bufCount = true)

/-- Every live register holds a value that is legal whatever MODE and SAMPLE_RATE are (10_state.md R29 to R42). -/
def LegalLive (l : LiveRegs) : Prop :=
  legalNonNeg l.freq = true ∧ legalUnit l.volume = true ∧ legalUnit l.envK1 = true ∧ legalUnit l.envK2 = true ∧
    legalNonNeg l.freqRaiseRate = true ∧ legalNonNeg l.volRaiseRate = true ∧ legalNonNeg l.holdDuration = true ∧
    (isFinite l.baud = true ∧ fle fOne l.baud = true) ∧
    legalNonNeg l.markFreq = true ∧ legalNonNeg l.spaceFreq = true ∧ legalNonNeg l.idleFreq = true

/-- While running, the stored frequencies, and in MODEM mode the baud rate, fit MODE and SAMPLE_RATE: START checked them,
and MODE and SAMPLE_RATE cannot change until STOP (40_control.md R106, 10_state.md R23). -/
def StreamFits (s : State) : Prop := s.running = true → startFits s = true

/-- Buffer ownership while running (46_pipeline.md R238). -/
def PoolOwned (s : State) : Prop :=
  s.running = true →
    s.pipe.ready.length + 1 ≤ s.cfg.bufCount.toNat ∧
    s.pipe.fillIdx.toNat < s.cfg.bufCount.toNat ∧
    s.pipe.fillPos.toNat ≤ s.cfg.bufSize.toNat ∧
    ∀ j, ∀ h : j < s.pipe.ready.length,
      (s.pipe.ready[j]).toNat =
        (s.pipe.fillIdx.toNat + s.cfg.bufCount.toNat - s.pipe.ready.length + j) % s.cfg.bufCount.toNat

/-- The symbol FIFO's bound (44_framing.md R191). -/
def FifoBounded (s : State) : Prop :=
  s.symq.committed.length + s.symq.staged.length ≤ s.params.symqDepth

/-- In RESTING the volume factor and the time in the cycle are +0.0 (43_period.md R180). -/
def RestingQuiet (s : State) : Prop :=
  s.synth.pmode = .resting → s.synth.vf = fZero ∧ s.synth.tic = fZero

/-- The pool and `out_buf` are in canonical form (log entry 8). -/
def CanonicalPool (s : State) : Prop :=
  s.pipe.pool.wf = true ∧ s.pipe.outBuf.words.wf = true

/-- The invariant of the machine that involves no binary64 arithmetic. -/
structure MachineInv (s : State) : Prop where
  params : LegalParams s.params
  cfg : LegalCfg s.params s.cfg
  live : LegalLive s.live
  fits : StreamFits s
  owned : PoolOwned s
  fifo : FifoBounded s
  quiet : RestingQuiet s
  canonical : CanonicalPool s

/-- While running, every queued tone and the current frequency are at most `fhalf`, and the per-sample deltas are neither
negative nor NaN (41_oscillator.md R142, 43_period.md R180). -/
structure TonesBounded (s : State) : Prop where
  queued : s.running = true → ∀ q ∈ s.symq.committed ++ s.symq.staged, legalTone s q.tone = true
  current : s.running = true → inRange fZero (fhalf s) s.synth.curF = true
  ramp : s.running = true → fle fZero s.synth.frd = true

/-- The phase is finite, in [+0.0, TWO_PI), and not -0.0 (41_oscillator.md R142). -/
def PhaseInRange (s : State) : Prop :=
  isFinite s.synth.phase = true ∧ signBit s.synth.phase = false ∧ flt s.synth.phase fTwoPi = true

/-- The envelope: the smoothed volume is finite and not negative, and the target is in [0, 1] (42_envelope.md R152,
43_period.md R180). -/
structure VolumeBounded (s : State) : Prop where
  current : legalNonNeg s.synth.curV = true
  target : legalUnit s.synth.tgt = true
  factor : legalUnit s.synth.vf = true
  ramp : fle fZero s.synth.vrd = true

/-- The carried rounding error is in [-0.5, 0.5] (45_scheduler.md R218, R225). -/
def CarriedErrBounded (s : State) : Prop :=
  inRange 0xBFE0000000000000#64 0x3FE0000000000000#64 s.synth.cerr = true

/-- A step that neither faults nor refuses. -/
def Completes (o : Result) : Prop := ∃ t, o = .next t

end Sys2Proof.Machine
end

