-- ==== Sys2Proof/Certificates/Slice0/Obligations.lean ====
section
/-! DEFINITION. The statements for the provers. Each docstring names the rule of spec/ the statement formalises. -/

open Sys2Proof Sys2Proof.Machine

/-! ### Encoding and decoding (30_encoding.md) -/

/-- R86, R87: a word decodes to an operation exactly when a row of the opcode map matches it, and then to that row's. -/
def Obligations.DecodeFollowsOpcodeMap : Prop :=
  ∀ (t : Bus73) (i : Instr), decode t = .ok i ↔ ∃ r ∈ opcodeMap, r.selects t ∧ r.op (fieldD t) = i

/-- R86: no word is matched by two rows of the opcode map. -/
def Obligations.OpcodeRowsDisjoint : Prop :=
  ∀ r ∈ opcodeMap, ∀ r' ∈ opcodeMap, ∀ t : Bus73, r.selects t → r'.selects t → r.mnemonic = r'.mnemonic

/-- R87: the word of every operation, with every operand, decodes to that operation. Every operation is encodable, well-formed
or not (log entry 15); where DATA is ignored the encoder writes 0, the model's choice (log entry 15). -/
def Obligations.DecodeEncode : Prop :=
  ∀ i : Instr, decode (encode i) = .ok i

/-- R87, R93 and 95_test_vectors.md: words written out in the spec decode to the operations they stand for, one or more
of each family. -/
def Obligations.SpecWordsDecode : Prop :=
  decode 0x0000000000000000000#73 = .ok .rdId ∧
  decode 0x1020000000000000001#73 = .ok .start ∧
  decode 0x10940E5888000000000#73 = .ok (.wrSampleRate 0x40E5888000000000#64) ∧
  decode 0x11040C5888000000000#73 = .ok (.wrFreq 0x40C5888000000000#64) ∧
  decode 0x1113FF0000000000000#73 = .ok (.wrVolume 0x3FF0000000000000#64) ∧
  decode 0x11B0000000000000001#73 = .ok .activate ∧
  decode 0x1270000000000000041#73 = .ok (.txByte 0x41#64) ∧
  decode 0x1204092C00000000000#73 = .ok (.wrBaud 0x4092C00000000000#64) ∧
  decode 0x10B0000000000000040#73 = .ok (.wrBufSize 64#64) ∧
  decode 0x0300000000000000000#73 = .ok .rdUnderrunCount

/-- R88: exactly the addresses outside the register map are reserved, and a read or a write of one is rejected with
BAD_ADDR, `host_rdata` 0. -/
def Obligations.ReservedAddressRejected : Prop :=
  ∀ (t : Bus73) (s : State),
    (decode t = .error .badAddr ↔
      (0x04 ≤ (fieldA t).toNat ∧ (fieldA t).toNat ≤ 0x07) ∨ (0x0D ≤ (fieldA t).toNat ∧ (fieldA t).toNat ≤ 0x0F) ∨
      (0x14 ≤ (fieldA t).toNat ∧ (fieldA t).toNat ≤ 0x17) ∨ (0x1C ≤ (fieldA t).toNat ∧ (fieldA t).toNat ≤ 0x1F) ∨
      (0x29 ≤ (fieldA t).toNat ∧ (fieldA t).toNat ≤ 0x2F) ∨ 0x39 ≤ (fieldA t).toNat) ∧
    (decode t = .error .badAddr →
      hostAct (some t) s = .next { s with
        err := errRecord (fieldW t) (fieldA t) .badAddr, out.hostRdata := 0#64, out.hostErr := true })

/-- R89: exactly a write to a read-only register and a read of a write-only one have the wrong direction, and they are
rejected with ACCESS, `host_rdata` 0. -/
def Obligations.WrongDirectionRejected : Prop :=
  ∀ (t : Bus73) (s : State),
    (decode t = .error .access ↔
      (fieldW t = true ∧ fieldA t ∈ [0x00#8, 0x01#8, 0x28#8, 0x30#8, 0x31#8, 0x32#8, 0x33#8, 0x34#8, 0x35#8, 0x36#8,
        0x37#8, 0x38#8]) ∨
      (fieldW t = false ∧ fieldA t ∈ [0x02#8, 0x1B#8, 0x27#8])) ∧
    (decode t = .error .access →
      hostAct (some t) s = .next { s with
        err := errRecord (fieldW t) (fieldA t) .access, out.hostRdata := 0#64, out.hostErr := true })

/-- R90: exactly the unlisted DATA values of a CMD or ACTIVATE write are reserved command values, and they are rejected
with RESERVED_VALUE in every state. -/
def Obligations.ReservedCommandRejected : Prop :=
  ∀ (t : Bus73) (s : State),
    (decode t = .error .reservedValue ↔
      fieldW t = true ∧
        ((fieldA t = 0x02#8 ∧ fieldD t ∉ [1#64, 2#64, 3#64, 4#64]) ∨
          (fieldA t = 0x1B#8 ∧ fieldD t ∉ [0#64, 1#64]))) ∧
    (decode t = .error .reservedValue →
      hostAct (some t) s = .next { s with
        err := errRecord (fieldW t) (fieldA t) .reservedValue, out.hostRdata := 0#64, out.hostErr := true })

/-- R80: the three fields of a word, and DATA is ignored for a read. -/
def Obligations.WordFields : Prop :=
  ∀ (w : Bool) (a : RegAddr) (d d' : Word64),
    (bus73 w a d).toNat = w.toNat * 2 ^ 72 + a.toNat * 2 ^ 64 + d.toNat ∧
    fieldW (bus73 w a d) = w ∧ fieldA (bus73 w a d) = a ∧ fieldD (bus73 w a d) = d ∧
    decode (bus73 false a d) = decode (bus73 false a d')

/-! ### A cycle (20_memory.md R69, 30_encoding.md R81, 70_reset_and_hazards.md R275) -/

/-- R69, 60_exceptions.md R257: a cycle with `rst` low that presents a word starts from the state with the cycle's inputs
taken, `dev_ready` at its level and every output 0. A word that decodes runs its operation there; any other is rejected with its
verdict's code. Then the consumer acts, if a frame is requested, and then the producer. -/
def Obligations.StepRunsDecoded : Prop :=
  ∀ (s b : State) (c : CycleInputs) (rest : List CycleInputs) (w : Bus73),
    s.inputs = c :: rest → c.rst = false → c.host = some w →
    b = { s with inputs := rest, devReady := c.devReady, out := ⟨0#64, false, false, false⟩ } →
    ∃ u, hostAct (some w) b = .next u ∧
      (∀ i, decode w = .ok i → exec i b = .next u) ∧
      (∀ v, decode w = .error v → u = { b with
        err := errRecord (fieldW w) (fieldA w) (match v with
          | .badAddr => .badAddr | .access => .access | .reservedValue => .reservedValue),
        out.hostRdata := 0#64, out.hostErr := true }) ∧
      step s = (match consumerAct c.frameReq u with
        | .next t => producerAct t | .fault r => .fault r | .refused r => .refused r) ∧
      (c.frameReq = false → step s = producerAct u)

/-- R81, 20_memory.md R69: a cycle with `rst` low and no transaction drives `host_rdata` and `host_err` to 0, and runs the
consumer, if a frame is requested, and then the producer, from the state with the cycle's inputs taken, `dev_ready` at its
level and every output 0. That an empty list of inputs is such a cycle, with no frame request and the level of `dev_ready`
kept, is the model's choice (log entry 1). -/
def Obligations.StepWithoutTransaction : Prop :=
  ∀ s b : State,
    (∀ (c : CycleInputs) (rest : List CycleInputs), s.inputs = c :: rest → nextInputs s = c ∧
      (b = { s with inputs := rest, devReady := c.devReady, out := ⟨0#64, false, false, false⟩ } →
        beginCycle s = b ∧
        (c.rst = false → c.host = none →
          step s = (match consumerAct c.frameReq b with
            | .next t => producerAct t | .fault r => .fault r | .refused r => .refused r) ∧
          (c.frameReq = false → step s = producerAct b)))) ∧
    (s.inputs = [] → nextInputs s = ⟨false, none, false, s.devReady⟩ ∧
      (b = { s with out := ⟨0#64, false, false, false⟩ } → beginCycle s = b ∧ step s = producerAct b)) ∧
    ((nextInputs s).rst = false → (nextInputs s).host = none →
      ∀ t, step s = .next t → t.out.hostRdata = 0#64 ∧ t.out.hostErr = false)

/-- R275: a cycle with `rst` high performs nothing else and leaves the reset state, with every output 0. That the parameters
and the coming inputs outlive it is the model's choice (log entries 1 and 4). -/
def Obligations.StepReset : Prop :=
  ∀ s : State, (nextInputs s).rst = true →
    ∃ t, step s = .next t ∧
      t = { State.resetWith s.params with inputs := s.inputs.tail, devReady := (nextInputs s).devReady } ∧
      t.out.hostRdata = 0#64 ∧ t.out.hostErr = false ∧ t.out.frameValid = false ∧ t.out.underrun = false ∧
      streamActive t = false

/-- 10_state.md R22, 70_reset_and_hazards.md R277: what each readable register reads in the reset state, for any
implementation parameters and either level of `dev_ready`. -/
def Obligations.ResetRegisters : Prop :=
  ∀ (p : Params) (b : Bool),
    ∀ x ∈ ([(.rdId, 0x53494747454E0007#64), (.rdStatus, if b then 0x10030#64 else 0x30#64), (.rdErr, 0#64),
      (.rdMode, 0#64), (.rdSampleRate, 0x40E5888000000000#64), (.rdWaveform, 0#64), (.rdBufSize, 1024#64),
      (.rdBufCount, 4#64), (.rdFreq, 0x408F400000000000#64), (.rdVolume, 0#64), (.rdEnvK1, 0x3FEFEF9DB22D0E56#64),
      (.rdEnvK2, 0x3F60624DD2F1A9FC#64), (.rdFreqRaiseRate, 0#64), (.rdVolRaiseRate, 0#64), (.rdHoldDuration, 0#64),
      (.rdBaud, 0x4092C00000000000#64), (.rdDataBits, 7#64), (.rdParity, 1#64), (.rdStopBits, 2#64),
      (.rdMarkFreq, 0x4094500000000000#64), (.rdSpaceFreq, 0x40A0680000000000#64), (.rdIdleFreq, 0x4094500000000000#64),
      (.rdSymqFree, BitVec.ofNat 64 p.symqDepth), (.rdUnderrunCount, 0#64), (.rdCurFreq, 0#64), (.rdCurVolume, 0#64),
      (.rdPhase, 0#64), (.rdWaitSamples, 0#64), (.rdCarriedErr, 0#64), (.rdTimeInCycle, 0#64), (.rdVolumeFactor, 0#64),
      (.rdFillPos, 0#64)] : List (Instr × Word64)),
      exec x.1 { State.resetWith p with devReady := b } =
        .next { State.resetWith p with devReady := b, out.hostRdata := x.2, out.hostErr := false }

/-- 10_state.md R59: the reset values of the internal state that no register shows. -/
def Obligations.ResetInternalState : Prop :=
  ∀ p : Params,
    (State.resetWith p).running = false ∧ (State.resetWith p).synth.dphi = 0#64 ∧ (State.resetWith p).synth.tgt = 0#64 ∧
    (State.resetWith p).synth.tgtValid = false ∧ (State.resetWith p).synth.pmode = .resting ∧
    (State.resetWith p).synth.frd = 0#64 ∧ (State.resetWith p).synth.vrd = 0#64 ∧
    (State.resetWith p).synth.invFs = 0#64 ∧ (State.resetWith p).symq = ⟨[], []⟩ ∧
    (∀ a, (State.resetWith p).pipe.pool.read a = 0#64) ∧ (State.resetWith p).pipe.ready = [] ∧
    (State.resetWith p).pipe.fillIdx = 0#4 ∧ (State.resetWith p).pipe.outBuf.len = 1024 ∧
    ∀ j, (State.resetWith p).pipe.outBuf.sample j = 0#64

/-- 46_pipeline.md R237, 60_exceptions.md R268: when the stream is stopped after the host's action, the rest of the cycle
changes nothing, a frame request is ignored, and `frame_valid` and `underrun` are 0. -/
def Obligations.StoppedCycle : Prop :=
  ∀ s u : State, (nextInputs s).rst = false → hostAct (nextInputs s).host (beginCycle s) = .next u →
    u.running = false → step s = .next u ∧ u.out.frameValid = false ∧ u.out.underrun = false

/-! ### Rejections (40_control.md R100, 60_exceptions.md) -/

/-- R255, R256, R257, R262: every transaction is answered, in every state. If with `host_err`, it has written
`{W, ADDR, CODE}` to ERR with a code from 1 to 9, driven `host_rdata` to 0, and changed nothing else. If without, ERR is
unchanged, but for CLRERR. The codes have the numbers of R256, and the record holds them at their bits. -/
def Obligations.TransactionAnswered : Prop :=
  (∀ (w : Bus73) (s : State), ∃ t, hostAct (some w) s = .next t ∧
    (t.out.hostErr = true → ∃ c : ErrCode, 1 ≤ c.code.toNat ∧ c.code.toNat ≤ 9 ∧
      t.err.toNat = (fieldW w).toNat * 2 ^ 16 + (fieldA w).toNat * 2 ^ 8 + c.code.toNat ∧
      t = { s with err := t.err, out.hostRdata := 0#64, out.hostErr := true }) ∧
    (t.out.hostErr = false → decode w ≠ .ok .clrErr → t.err = s.err)) ∧
  (∀ (w : Bool) (a : RegAddr) (c : ErrCode),
    (errRecord w a c).toNat = w.toNat * 2 ^ 16 + a.toNat * 2 ^ 8 + c.code.toNat ∧
    c.code = (match c with
      | .none => 0#8 | .badAddr => 1#8 | .access => 2#8 | .busy => 3#8 | .mode => 4#8 | .notRunning => 5#8
      | .reservedValue => 6#8 | .range => 7#8 | .symqFull => 8#8 | .device => 9#8))

/-- R100 step 9, 30_encoding.md R82 to R84: an operand that no state and no legal parameter accepts is rejected in every
state. -/
def Obligations.IllFormedRejected : Prop :=
  ∀ (i : Instr) (s : State), LegalParams s.params → i.wellFormed = false →
    ∃ c : ErrCode, c ≠ .none ∧
      exec i s = .next { s with err := errRecord true i.addr c, out.hostRdata := 0#64, out.hostErr := true }

/-! ### Reads -/

/-- 40_control.md R102, R104, 46_pipeline.md R240, R242, 44_framing.md R198: the reads of the part identifier, of ERR,
zero-extended, of the buffer shape, and of the free symbol capacity where the FIFO's bound of R191 holds (log entry 16); they
change no state. -/
def Obligations.ReadsOfIdErrAndSizes : Prop :=
  ∀ s : State,
    exec .rdId s = .next { s with out.hostRdata := 0x53494747454E0007#64, out.hostErr := false } ∧
    exec .rdErr s = .next { s with out.hostRdata := s.err.setWidth 64, out.hostErr := false } ∧
    exec .rdBufSize s = .next { s with out.hostRdata := s.cfg.bufSize, out.hostErr := false } ∧
    exec .rdBufCount s = .next { s with out.hostRdata := s.cfg.bufCount, out.hostErr := false } ∧
    (LegalParams s.params → FifoBounded s → ∃ v : Word64,
      exec .rdSymqFree s = .next { s with out.hostRdata := v, out.hostErr := false } ∧
      v.toNat = s.params.symqDepth - s.symq.committed.length - s.symq.staged.length)

/-- 10_state.md R46, 40_control.md R103: RD.STATUS answers every field at its bits, and changes no state. -/
def Obligations.ReadStatusFields : Prop :=
  ∀ s : State, ∃ v : Word64,
    exec .rdStatus s = .next { s with out.hostRdata := v, out.hostErr := false } ∧
    v.getLsbD 0 = s.running ∧
    v.extractLsb' 1 2 = (match s.synth.pmode with | .resting => 0#2 | .holding => 1#2 | .ramping => 2#2) ∧
    v.getLsbD 3 = s.synth.tgtValid ∧
    v.getLsbD 4 = decide (s.symq.committed.length = 0) ∧
    v.getLsbD 5 = decide (s.synth.ws = 0#32 ∧ s.symq.committed.length = 0) ∧
    v.getLsbD 6 = decide (0 < s.symq.staged.length) ∧
    v.getLsbD 7 = false ∧
    (v.extractLsb' 8 4).toNat = s.pipe.ready.length % 16 ∧
    v.extractLsb' 12 4 = s.pipe.fillIdx ∧
    v.getLsbD 16 = s.devReady ∧
    v.extractLsb' 17 47 = 0#47

/-- 40_control.md R109, 41_oscillator.md R143, 44_framing.md R199, R201, R203: the reads of the enumerated registers answer
the stored code and change no state. -/
def Obligations.ReadsOfEnumRegisters : Prop :=
  ∀ s : State,
    exec .rdMode s = .next { s with
      out.hostRdata := (match s.cfg.mode with | .continuous => 0#64 | .pulse => 1#64 | .modem => 2#64),
      out.hostErr := false } ∧
    exec .rdWaveform s = .next { s with
      out.hostRdata := (match s.cfg.waveform with
        | .sine => 0#64 | .sineSquaredAlt => 1#64 | .sineCubed => 2#64 | .triangle => 3#64 | .square => 4#64),
      out.hostErr := false } ∧
    exec .rdDataBits s = .next { s with
      out.hostRdata := (match s.live.dataBits with | .seven => 7#64 | .eight => 8#64), out.hostErr := false } ∧
    exec .rdParity s = .next { s with
      out.hostRdata := (match s.live.parity with | .none => 0#64 | .even => 1#64 | .odd => 2#64),
      out.hostErr := false } ∧
    exec .rdStopBits s = .next { s with
      out.hostRdata := (match s.live.stopBits with | .two => 2#64 | .three => 3#64 | .four => 4#64),
      out.hostErr := false }

/-- 40_control.md R111, 41_oscillator.md R145, 42_envelope.md R153, R155, R157, 43_period.md R172, R174, R176,
44_framing.md R205, R207, 45_scheduler.md R220, R222: the reads of the f64 registers answer the 64 stored bits and change no
state. -/
def Obligations.ReadsOfF64Registers : Prop :=
  ∀ s : State,
    exec .rdSampleRate s = .next { s with out.hostRdata := s.cfg.sampleRate, out.hostErr := false } ∧
    exec .rdFreq s = .next { s with out.hostRdata := s.live.freq, out.hostErr := false } ∧
    exec .rdVolume s = .next { s with out.hostRdata := s.live.volume, out.hostErr := false } ∧
    exec .rdEnvK1 s = .next { s with out.hostRdata := s.live.envK1, out.hostErr := false } ∧
    exec .rdEnvK2 s = .next { s with out.hostRdata := s.live.envK2, out.hostErr := false } ∧
    exec .rdFreqRaiseRate s = .next { s with out.hostRdata := s.live.freqRaiseRate, out.hostErr := false } ∧
    exec .rdVolRaiseRate s = .next { s with out.hostRdata := s.live.volRaiseRate, out.hostErr := false } ∧
    exec .rdHoldDuration s = .next { s with out.hostRdata := s.live.holdDuration, out.hostErr := false } ∧
    exec .rdBaud s = .next { s with out.hostRdata := s.live.baud, out.hostErr := false } ∧
    exec .rdMarkFreq s = .next { s with out.hostRdata := s.live.markFreq, out.hostErr := false } ∧
    exec .rdSpaceFreq s = .next { s with out.hostRdata := s.live.spaceFreq, out.hostErr := false } ∧
    exec .rdIdleFreq s = .next { s with out.hostRdata := s.live.idleFreq, out.hostErr := false }

/-- 41_oscillator.md R147, R148, 42_envelope.md R159, 43_period.md R178, R179, 45_scheduler.md R224, R225,
46_pipeline.md R244, R245: the read-only windows answer the internal state they show and change no state. -/
def Obligations.ReadsOfInternalState : Prop :=
  ∀ s : State,
    exec .rdCurFreq s = .next { s with out.hostRdata := s.synth.curF, out.hostErr := false } ∧
    exec .rdPhase s = .next { s with out.hostRdata := s.synth.phase, out.hostErr := false } ∧
    exec .rdCurVolume s = .next { s with out.hostRdata := s.synth.curV, out.hostErr := false } ∧
    exec .rdTimeInCycle s = .next { s with out.hostRdata := s.synth.tic, out.hostErr := false } ∧
    exec .rdVolumeFactor s = .next { s with out.hostRdata := s.synth.vf, out.hostErr := false } ∧
    exec .rdCarriedErr s = .next { s with out.hostRdata := s.synth.cerr, out.hostErr := false } ∧
    exec .rdWaitSamples s = .next { s with out.hostRdata := s.synth.ws.setWidth 64, out.hostErr := false } ∧
    exec .rdUnderrunCount s = .next { s with out.hostRdata := s.pipe.underruns.setWidth 64, out.hostErr := false } ∧
    exec .rdFillPos s = .next { s with out.hostRdata := s.pipe.fillPos.setWidth 64, out.hostErr := false }

/-! ### Writes of CFG registers (10_state.md R23) -/

/-- 40_control.md R110, R112, 41_oscillator.md R144, 46_pipeline.md R241, R243: while stopped, a legal operand is stored and
nothing else changes. That `out_buf` keeps its length after a write of BUF_SIZE is the model's inference (log entry 11). -/
def Obligations.CfgWritesStopped : Prop :=
  ∀ s : State, s.running = false →
    (∀ x ∈ [(0#64, OpMode.continuous), (1#64, .pulse), (2#64, .modem)],
      exec (.wrMode x.1) s = .next { s with cfg.mode := x.2, out.hostRdata := 0#64, out.hostErr := false }) ∧
    (∀ x ∈ [(0#64, Waveform.sine), (1#64, .sineSquaredAlt), (2#64, .sineCubed), (3#64, .triangle), (4#64, .square)],
      exec (.wrWaveform x.1) s = .next { s with cfg.waveform := x.2, out.hostRdata := 0#64, out.hostErr := false }) ∧
    (∀ d : Word64, isFinite d → fle fOne d → fle d s.params.fsMax →
      exec (.wrSampleRate d) s = .next { s with cfg.sampleRate := d, out.hostRdata := 0#64, out.hostErr := false }) ∧
    (∀ d : Word64, 1 ≤ d.toNat → d.toNat ≤ s.params.bufszMax →
      exec (.wrBufSize d) s = .next { s with cfg.bufSize := d, out.hostRdata := 0#64, out.hostErr := false }) ∧
    (∀ d : Word64, 2 ≤ d.toNat → d.toNat ≤ s.params.nbufMax →
      exec (.wrBufCount d) s = .next { s with cfg.bufCount := d, out.hostRdata := 0#64, out.hostErr := false })

/-- The same rules: while stopped, an unlisted MODE or WAVEFORM code is rejected with RESERVED_VALUE, and an illegal rate,
size or count with RANGE. -/
def Obligations.CfgWritesIllegal : Prop :=
  ∀ (s : State) (d : Word64), s.running = false →
    (3 ≤ d.toNat → exec (.wrMode d) s = .next { s with
      err := errRecord true 0x08#8 .reservedValue, out.hostRdata := 0#64, out.hostErr := true }) ∧
    (5 ≤ d.toNat → exec (.wrWaveform d) s = .next { s with
      err := errRecord true 0x0A#8 .reservedValue, out.hostRdata := 0#64, out.hostErr := true }) ∧
    (¬ (isFinite d ∧ fle fOne d ∧ fle d s.params.fsMax) → exec (.wrSampleRate d) s = .next { s with
      err := errRecord true 0x09#8 .range, out.hostRdata := 0#64, out.hostErr := true }) ∧
    (¬ (1 ≤ d.toNat ∧ d.toNat ≤ s.params.bufszMax) → exec (.wrBufSize d) s = .next { s with
      err := errRecord true 0x0B#8 .range, out.hostRdata := 0#64, out.hostErr := true }) ∧
    (¬ (2 ≤ d.toNat ∧ d.toNat ≤ s.params.nbufMax) → exec (.wrBufCount d) s = .next { s with
      err := errRecord true 0x0C#8 .range, out.hostRdata := 0#64, out.hostErr := true })

/-- 10_state.md R23: while running, every write of a CFG register is rejected with BUSY, whatever its operand, and changes
nothing but ERR; a read of one is answered as ever. -/
def Obligations.CfgWritesBusy : Prop :=
  ∀ (s : State) (d : Word64), s.running = true →
    (∀ x ∈ [(Instr.wrMode d, 0x08#8), (.wrSampleRate d, 0x09#8), (.wrWaveform d, 0x0A#8), (.wrBufSize d, 0x0B#8),
        (.wrBufCount d, 0x0C#8)],
      exec x.1 s = .next { s with err := errRecord true x.2 .busy, out.hostRdata := 0#64, out.hostErr := true }) ∧
    ∀ i ∈ [Instr.rdMode, .rdSampleRate, .rdWaveform, .rdBufSize, .rdBufCount],
      ∃ v, exec i s = .next { s with out.hostRdata := v, out.hostErr := false }

/-! ### Writes of LIVE registers -/

/-- 41_oscillator.md R146, 42_envelope.md R156, R158, 43_period.md R177, 44_framing.md R206, R208, 45_scheduler.md R221,
R223: in every state, a legal value is stored bit for bit and nothing else changes. -/
def Obligations.LiveWritesLegal : Prop :=
  ∀ (s : State) (d : Word64), isFinite d →
    (fle fZero d → fle d (fdiv s.cfg.sampleRate (if s.cfg.mode = .pulse then fFour else fTwo)) →
      exec (.wrFreq d) s = .next { s with live.freq := d, out.hostRdata := 0#64, out.hostErr := false }) ∧
    (fle fZero d → fle d (fdiv s.cfg.sampleRate fTwo) →
      exec (.wrMarkFreq d) s = .next { s with live.markFreq := d, out.hostRdata := 0#64, out.hostErr := false } ∧
      exec (.wrSpaceFreq d) s = .next { s with live.spaceFreq := d, out.hostRdata := 0#64, out.hostErr := false } ∧
      exec (.wrIdleFreq d) s = .next { s with live.idleFreq := d, out.hostRdata := 0#64, out.hostErr := false }) ∧
    (fle fOne d → fle d (fdiv s.cfg.sampleRate fTwo) →
      exec (.wrBaud d) s = .next { s with live.baud := d, out.hostRdata := 0#64, out.hostErr := false }) ∧
    (fle fZero d → fle d fOne →
      exec (.wrEnvK1 d) s = .next { s with live.envK1 := d, out.hostRdata := 0#64, out.hostErr := false } ∧
      exec (.wrEnvK2 d) s = .next { s with live.envK2 := d, out.hostRdata := 0#64, out.hostErr := false }) ∧
    (fle fZero d →
      exec (.wrHoldDuration d) s = .next { s with live.holdDuration := d, out.hostRdata := 0#64, out.hostErr := false })

/-- 30_encoding.md R82 and the same rules: a NaN, an infinity, or a value out of the register's range is rejected with
RANGE in every state. -/
def Obligations.LiveWritesIllegal : Prop :=
  ∀ (s : State) (d : Word64),
    (¬ (isFinite d ∧ fle fZero d ∧ fle d (fdiv s.cfg.sampleRate (if s.cfg.mode = .pulse then fFour else fTwo))) →
      exec (.wrFreq d) s = .next { s with
        err := errRecord true 0x10#8 .range, out.hostRdata := 0#64, out.hostErr := true }) ∧
    (¬ (isFinite d ∧ fle fZero d ∧ fle d (fdiv s.cfg.sampleRate fTwo)) →
      ∀ x ∈ [(Instr.wrMarkFreq d, 0x24#8), (.wrSpaceFreq d, 0x25#8), (.wrIdleFreq d, 0x26#8)],
        exec x.1 s = .next { s with err := errRecord true x.2 .range, out.hostRdata := 0#64, out.hostErr := true }) ∧
    (¬ (isFinite d ∧ fle fOne d ∧ fle d (fdiv s.cfg.sampleRate fTwo)) →
      exec (.wrBaud d) s = .next { s with
        err := errRecord true 0x20#8 .range, out.hostRdata := 0#64, out.hostErr := true }) ∧
    (¬ (isFinite d ∧ fle fZero d ∧ fle d fOne) →
      ∀ x ∈ [(Instr.wrVolume d, 0x11#8), (.wrEnvK1 d, 0x12#8), (.wrEnvK2 d, 0x13#8)],
        exec x.1 s = .next { s with err := errRecord true x.2 .range, out.hostRdata := 0#64, out.hostErr := true }) ∧
    (¬ (isFinite d ∧ fle fZero d) →
      ∀ x ∈ [(Instr.wrFreqRaiseRate d, 0x18#8), (.wrVolRaiseRate d, 0x19#8), (.wrHoldDuration d, 0x1A#8)],
        exec x.1 s = .next { s with err := errRecord true x.2 .range, out.hostRdata := 0#64, out.hostErr := true })

/-- 42_envelope.md R154: a legal VOLUME is stored; while running in CONTINUOUS or MODEM mode it also becomes the pending
target, and nothing else changes. -/
def Obligations.VolumeWrite : Prop :=
  ∀ (s : State) (d : Word64), isFinite d → fle fZero d → fle d fOne →
    (s.running = true ∧ s.cfg.mode ≠ .pulse →
      exec (.wrVolume d) s = .next { s with
        live.volume := d, synth.tgt := d, synth.tgtValid := true, out.hostRdata := 0#64, out.hostErr := false }) ∧
    (¬ (s.running = true ∧ s.cfg.mode ≠ .pulse) →
      exec (.wrVolume d) s = .next { s with live.volume := d, out.hostRdata := 0#64, out.hostErr := false })

/-- 43_period.md R173, R175: a legal rate is stored; while running the per-sample delta becomes `v /. SAMPLE_RATE`, and
nothing else changes. -/
def Obligations.RaiseRateWrites : Prop :=
  ∀ (s : State) (d : Word64), isFinite d → fle fZero d →
    (s.running = true →
      exec (.wrFreqRaiseRate d) s = .next { s with
        live.freqRaiseRate := d, synth.frd := fdiv d s.cfg.sampleRate, out.hostRdata := 0#64, out.hostErr := false } ∧
      exec (.wrVolRaiseRate d) s = .next { s with
        live.volRaiseRate := d, synth.vrd := fdiv d s.cfg.sampleRate, out.hostRdata := 0#64, out.hostErr := false }) ∧
    (s.running = false →
      exec (.wrFreqRaiseRate d) s = .next { s with
        live.freqRaiseRate := d, out.hostRdata := 0#64, out.hostErr := false } ∧
      exec (.wrVolRaiseRate d) s = .next { s with
        live.volRaiseRate := d, out.hostRdata := 0#64, out.hostErr := false })

/-- 44_framing.md R200, R202, R204: the frame parameters store a listed code in every state and reject any other value of
the 64 bits with RESERVED_VALUE. -/
def Obligations.FrameParameterWrites : Prop :=
  ∀ s : State,
    (∀ x ∈ [(7#64, DataBits.seven), (8#64, .eight)],
      exec (.wrDataBits x.1) s = .next { s with live.dataBits := x.2, out.hostRdata := 0#64, out.hostErr := false }) ∧
    (∀ x ∈ [(0#64, Parity.none), (1#64, .even), (2#64, .odd)],
      exec (.wrParity x.1) s = .next { s with live.parity := x.2, out.hostRdata := 0#64, out.hostErr := false }) ∧
    (∀ x ∈ [(2#64, HalfBits.two), (3#64, .three), (4#64, .four)],
      exec (.wrStopBits x.1) s = .next { s with live.stopBits := x.2, out.hostRdata := 0#64, out.hostErr := false }) ∧
    ∀ d : Word64,
      (d ∉ [7#64, 8#64] → exec (.wrDataBits d) s = .next { s with
        err := errRecord true 0x21#8 .reservedValue, out.hostRdata := 0#64, out.hostErr := true }) ∧
      (d ∉ [0#64, 1#64, 2#64] → exec (.wrParity d) s = .next { s with
        err := errRecord true 0x22#8 .reservedValue, out.hostRdata := 0#64, out.hostErr := true }) ∧
      (d ∉ [2#64, 3#64, 4#64] → exec (.wrStopBits d) s = .next { s with
        err := errRecord true 0x23#8 .reservedValue, out.hostRdata := 0#64, out.hostErr := true })

/-! ### Stream control (40_control.md) -/

/-- R106, R107: START of a stopped stream, with the device ready and the stored frequencies within the limits, initialises
the stream state and sets `running`; no register and not ERR. An empty list of words is a pool of +0.0 (log entry 8). -/
def Obligations.StartInitialises : Prop :=
  ∀ s : State, s.running = false → s.devReady = true →
    fle s.live.freq (fdiv s.cfg.sampleRate (if s.cfg.mode = .pulse then fFour else fTwo)) →
    (s.cfg.mode = .modem → ∀ v ∈ [s.live.markFreq, s.live.spaceFreq, s.live.idleFreq, s.live.baud],
      fle v (fdiv s.cfg.sampleRate fTwo)) →
    exec .start s = .next { s with
      running := true
      synth := {
        phase := 0#64, dphi := 0#64
        curF := if s.cfg.mode = .modem then s.live.idleFreq else s.live.freq
        curV := 0#64
        tgt := if s.cfg.mode = .pulse then 0#64 else s.live.volume
        tgtValid := true, pmode := .resting, vf := 0#64, tic := 0#64
        frd := fdiv s.live.freqRaiseRate s.cfg.sampleRate
        vrd := fdiv s.live.volRaiseRate s.cfg.sampleRate
        invFs := fdiv fOne s.cfg.sampleRate
        ws := 0#32, cerr := 0#64 }
      symq := ⟨[], []⟩
      pipe := {
        pool := [], ready := [], fillIdx := 0#4, fillPos := 0#32
        outBuf := ⟨s.cfg.bufSize.toNat, []⟩, underruns := 0#32 }
      out.hostRdata := 0#64
      out.hostErr := false }

/-- R106: START while running has no effect; while stopped it is refused with DEVICE when the device is not ready, and else
with RANGE when a stored frequency or the baud rate no longer fits. -/
def Obligations.StartOtherwise : Prop :=
  ∀ s : State,
    (s.running = true → exec .start s = .next { s with out.hostRdata := 0#64, out.hostErr := false }) ∧
    (s.running = false → s.devReady = false → exec .start s = .next { s with
      err := errRecord true 0x02#8 .device, out.hostRdata := 0#64, out.hostErr := true }) ∧
    (s.running = false → s.devReady = true →
      ¬ (fle s.live.freq (fdiv s.cfg.sampleRate (if s.cfg.mode = .pulse then fFour else fTwo)) ∧
        (s.cfg.mode = .modem → ∀ v ∈ [s.live.markFreq, s.live.spaceFreq, s.live.idleFreq, s.live.baud],
          fle v (fdiv s.cfg.sampleRate fTwo))) →
      exec .start s = .next { s with
        err := errRecord true 0x02#8 .range, out.hostRdata := 0#64, out.hostErr := true })

/-- R105, R108: STOP clears `running` and CLRERR clears ERR, in every state, and neither changes anything else. -/
def Obligations.StopAndClear : Prop :=
  ∀ s : State,
    exec .stop s = .next { s with running := false, out.hostRdata := 0#64, out.hostErr := false } ∧
    exec .clrErr s = .next { s with err := 0#17, out.hostRdata := 0#64, out.hostErr := false }

/-- 43_period.md R170, R171: in a running PULSE stream ACTIVATE leaves RESTING and has no effect in the other period modes,
and DEACTIVATE returns to RESTING with a target of 0. -/
def Obligations.ActivateAndDeactivate : Prop :=
  ∀ s : State, s.cfg.mode = .pulse → s.running = true →
    (s.synth.pmode = .resting → exec .activate s = .next { s with
      synth.pmode := .ramping, synth.curF := s.live.freq, synth.vf := 0#64, synth.tic := 0#64,
      out.hostRdata := 0#64, out.hostErr := false }) ∧
    (s.synth.pmode ≠ .resting → exec .activate s = .next { s with out.hostRdata := 0#64, out.hostErr := false }) ∧
    exec .deactivate s = .next { s with
      synth.vf := 0#64, synth.tic := 0#64, synth.pmode := .resting, synth.tgt := 0#64, synth.tgtValid := true,
      out.hostRdata := 0#64, out.hostErr := false }

/-- R100 steps 7 and 8: a stream operation in another mode than its own is rejected with MODE, running or not and whatever
its operand, and in its own mode while stopped with NOT_RUNNING. -/
def Obligations.StreamOperationPriority : Prop :=
  ∀ (s : State) (d : Word64),
    ∀ x ∈ [(Instr.activate, OpMode.pulse), (.deactivate, .pulse), (.txByte d, .modem), (.txCommit, .modem),
        (.txAbort, .modem)],
      (s.cfg.mode ≠ x.2 → exec x.1 s = .next { s with
        err := errRecord true x.1.addr .mode, out.hostRdata := 0#64, out.hostErr := true }) ∧
      (s.cfg.mode = x.2 → s.running = false → exec x.1 s = .next { s with
        err := errRecord true x.1.addr .notRunning, out.hostRdata := 0#64, out.hostErr := true })

/-! ### Framing (44_framing.md) -/

/-- R195: in a running MODEM stream a byte whose frame fits is staged whole, behind the symbols staged before it. -/
def Obligations.TxByteStages : Prop :=
  ∀ (s : State) (b : BitVec 8), s.cfg.mode = .modem → s.running = true →
    s.symq.committed.length + s.symq.staged.length + (frame s.live b).length ≤ s.params.symqDepth →
    exec (.txByte (b.setWidth 64)) s = .next { s with
      symq.staged := s.symq.staged ++ frame s.live b, out.hostRdata := 0#64, out.hostErr := false }

/-- R195: an operand with DATA[63:8] not 0 is refused with RESERVED_VALUE, and else a frame that does not fit with SYMQ_FULL;
no symbol is added. -/
def Obligations.TxByteRefused : Prop :=
  ∀ s : State, s.cfg.mode = .modem → s.running = true →
    (∀ d : Word64, 256 ≤ d.toNat → exec (.txByte d) s = .next { s with
      err := errRecord true 0x27#8 .reservedValue, out.hostRdata := 0#64, out.hostErr := true }) ∧
    (∀ b : BitVec 8,
      s.params.symqDepth < s.symq.committed.length + s.symq.staged.length + (frame s.live b).length →
      exec (.txByte (b.setWidth 64)) s = .next { s with
        err := errRecord true 0x27#8 .symqFull, out.hostRdata := 0#64, out.hostErr := true })

/-- R196, R197: in a running MODEM stream TXCOMMIT moves the staged symbols behind the committed ones, and TXABORT drops
them. -/
def Obligations.TxCommitAndAbort : Prop :=
  ∀ s : State, s.cfg.mode = .modem → s.running = true →
    exec .txCommit s = .next { s with
      symq.committed := s.symq.committed ++ s.symq.staged, symq.staged := [],
      out.hostRdata := 0#64, out.hostErr := false } ∧
    exec .txAbort s = .next { s with symq.staged := [], out.hostRdata := 0#64, out.hostErr := false }

/-- R194: the length of a frame and its duration in half-bits. -/
def Obligations.FrameLength : Prop :=
  ∀ (l : LiveRegs) (b : BitVec 8),
    (frame l b).length = 1 + l.dataBits.count + (if l.parity = .none then 0 else 1) + 1 ∧
    9 ≤ (frame l b).length ∧ (frame l b).length ≤ 11 ∧
    ((frame l b).map (fun q => q.dur.count)).sum =
      2 * (1 + l.dataBits.count + (if l.parity = .none then 0 else 1)) + l.stopBits.count

/-- R192: the start symbol, the data bits least-significant first, and the stop symbol of a frame, each at its place. -/
def Obligations.FrameLayout : Prop :=
  ∀ (l : LiveRegs) (b : BitVec 8),
    (frame l b)[0]? = some ⟨l.spaceFreq, .two⟩ ∧
    (∀ i, i < l.dataBits.count →
      (frame l b)[1 + i]? = some ⟨if b.getLsbD i then l.markFreq else l.spaceFreq, .two⟩) ∧
    (frame l b).getLast? = some ⟨l.markFreq, l.stopBits⟩

/-- R193: with EVEN parity the number of ones among the data bits and the parity bit is even, with ODD parity it is odd. -/
def Obligations.FrameParity : Prop :=
  ∀ (l : LiveRegs) (b : BitVec 8), l.parity ≠ .none →
    ∃ p : Bool,
      (frame l b)[1 + l.dataBits.count]? = some ⟨if p then l.markFreq else l.spaceFreq, .two⟩ ∧
      (((List.range l.dataBits.count).filter (fun i => b.getLsbD i)).length + p.toNat) % 2 =
        (if l.parity = .odd then 1 else 0)

/-! ### The datapath (41_oscillator.md to 45_scheduler.md) -/

/-- R132 to R137: the value of each of the five waveforms at every phase, for every SIN; the triangle's four segment points; and
R131, 00_scope.md R6: every total function is some SIN, and the default SIN is the binary64 value nearest to the mathematical
sine. That SIN is held as data, and that the default is free where the nearest value is not computed, is the model's choice (log
entry 5). -/
def Obligations.WaveformValues : Prop :=
  (∀ (f : SinFn) (p : F64),
    wave f .sine p = sinOf f p ∧
    wave f .sineSquaredAlt p = fmul (fmul (sinOf f p) (sinOf f p)) (if flt fPi p then fOne else fMinusOne) ∧
    wave f .sineCubed p = fmul (fmul (sinOf f p) (sinOf f p)) (sinOf f p) ∧
    wave f .triangle p =
      (if fle p fHalfPi then fdiv p fHalfPi
        else if fle p fThreeHalfPi then fsub fTwo (fdiv p fHalfPi)
        else fadd fMinusFour (fdiv p fHalfPi)) ∧
    (flt p fPi → wave f .square p = fMinusOne) ∧ (¬ flt p fPi → wave f .square p = fOne)) ∧
  (∀ f : SinFn, wave f .triangle fZero = 0#64 ∧ wave f .triangle fHalfPi = fOne ∧ wave f .triangle fPi = 0#64 ∧
    wave f .triangle fThreeHalfPi = fMinusOne) ∧
  (∀ g : F64 → F64, ∃ f : SinFn, ∀ x, sinOf f x = g x) ∧
  (∀ x r : F64, nearestSin? x = some r → sinOf SinFn.correctlyRounded x = r ∧ IsNearestSin x r) ∧
  Params.default.sin = SinFn.correctlyRounded

/-- R136: over one cycle of phase the triangle stays in [-1, 1]. -/
def Obligations.TriangleRange : Prop :=
  ∀ (f : SinFn) (p : F64), fle fZero p → flt p fTwoPi →
    fle fMinusOne (wave f .triangle p) ∧ fle (wave f .triangle p) fOne

/-- 42_envelope.md R151: with a pending target the filter computes `n`, stores it, and clears the target exactly when `n` is
the old value; with no pending target it does nothing. -/
def Obligations.EnvelopeFilter : Prop :=
  ∀ s : State,
    (s.synth.tgtValid = false → envelopeStep s = s) ∧
    (s.synth.tgtValid = true →
      envelopeStep s = { s with
        synth.curV := fadd (fmul s.synth.curV s.live.envK1) (fmul s.synth.tgt s.live.envK2),
        synth.tgtValid :=
          !feq (fadd (fmul s.synth.curV s.live.envK1) (fmul s.synth.tgt s.live.envK2)) s.synth.curV })

/-- 43_period.md R180: after a ramping step the frequency is at most twice the base, and the volume factor has not fallen
and is at most 1. -/
def Obligations.RampCeiling : Prop :=
  ∀ (base : F64) (y : Synth), legalNonNeg base → legalNonNeg y.curF → fle fZero y.frd → legalUnit y.vf → fle fZero y.vrd →
    fle (rampingStep base y).curF (fmul fTwo base) ∧
    fle y.vf (rampingStep base y).vf ∧ fle (rampingStep base y).vf fOne

/-- R166 to R169: which period mode a period step leads to, the frequency it leaves, and the target it loads. -/
def Obligations.PeriodTransitions : Prop :=
  ∀ s : State,
    (s.synth.pmode = .resting →
      periodStep s = { s with
        synth.curF := s.live.freq, synth.tgt := fmul s.live.volume s.synth.vf, synth.tgtValid := true }) ∧
    (s.synth.pmode ≠ .resting →
      (periodStep s).synth.vf = fmin fOne (fadd s.synth.vf s.synth.vrd) ∧
      (periodStep s).synth.tgt = fmul s.live.volume (fmin fOne (fadd s.synth.vf s.synth.vrd)) ∧
      (periodStep s).synth.tgtValid = true) ∧
    (s.synth.pmode = .ramping → flt (fmul fTwo s.live.freq) (fadd s.synth.curF s.synth.frd) →
      (periodStep s).synth.pmode = .holding ∧ (periodStep s).synth.curF = s.live.freq ∧
      (periodStep s).synth.tic = 0#64) ∧
    (s.synth.pmode = .ramping → ¬ flt (fmul fTwo s.live.freq) (fadd s.synth.curF s.synth.frd) →
      (periodStep s).synth.pmode = .ramping ∧ (periodStep s).synth.curF = fadd s.synth.curF s.synth.frd ∧
      (periodStep s).synth.tic = fadd s.synth.tic s.synth.invFs) ∧
    (s.synth.pmode = .holding → flt s.live.holdDuration (fadd s.synth.tic s.synth.invFs) →
      (periodStep s).synth.pmode = .ramping ∧ (periodStep s).synth.curF = s.live.freq ∧
      (periodStep s).synth.tic = 0#64) ∧
    (s.synth.pmode = .holding → ¬ flt s.live.holdDuration (fadd s.synth.tic s.synth.invFs) →
      (periodStep s).synth.pmode = .holding ∧ (periodStep s).synth.curF = s.synth.curF ∧
      (periodStep s).synth.tic = fadd s.synth.tic s.synth.invFs)

/-- 45_scheduler.md R216, R219: a scheduler step that pops takes the oldest committed symbol, sounds its tone for `w` samples
counting this one, and carries `f64(w) -. t`; one that finds nothing plays the idle tone; any other counts down. -/
def Obligations.SchedulerStep : Prop :=
  ∀ s : State,
    (∀ (q : SymbolT) (rest : List SymbolT) (t : F64) (w : Int),
      s.synth.ws = 0#32 → s.symq.committed = q :: rest →
      t = fsub (fdiv (fmul (fdiv (fofInt q.dur.count) fTwo) s.cfg.sampleRate) s.live.baud) s.synth.cerr →
      w = roundHalfEven t → 1 ≤ w → w < 2 ^ 32 →
      ∃ u, schedulerStep s = { s with synth := u, symq.committed := rest } ∧
        u.ws.toNat = w - 1 ∧ u = { s.synth with curF := q.tone, cerr := fsub (fofInt w) t, ws := u.ws }) ∧
    (s.synth.ws = 0#32 → s.symq.committed = [] → schedulerStep s = { s with synth.curF := s.live.idleFreq }) ∧
    (s.synth.ws ≠ 0#32 → ∃ n : BitVec 32, schedulerStep s = { s with synth.ws := n } ∧ n.toNat + 1 = s.synth.ws.toNat)

/-- R216, R218: with a legal rate and baud, and a carried error of at most half a sample, every popped symbol sounds for at
least two samples, its count fits the 32-bit counter, and the error it carries is again at most half a sample. -/
def Obligations.SymbolBounds : Prop :=
  ∀ (h : HalfBits) (rate baud cerr : F64),
    inRange fOne fsMaxMax rate → isFinite baud → fle fOne baud → fle baud (fdiv rate fTwo) →
    inRange 0xBFE0000000000000#64 0x3FE0000000000000#64 cerr →
    2 ≤ roundHalfEven (fsub (idealCount h rate baud) cerr) ∧
    roundHalfEven (fsub (idealCount h rate baud) cerr) ≤ 2 ^ 32 - 1 ∧
    inRange 0xBFE0000000000000#64 0x3FE0000000000000#64
      (fsub (fofInt (roundHalfEven (fsub (idealCount h rate baud) cerr))) (fsub (idealCount h rate baud) cerr))

/-! ### The pipeline (46_pipeline.md) -/

/-- R231, R232, 41_oscillator.md R138 to R141: a running producer with room in its buffer takes one sample. The control step of
MODE gives the frequency, in CONTINUOUS mode FREQ; the increment is `(TWO_PI *. curF) /. SAMPLE_RATE`; the envelope steps; the
output is the wave at the old phase times the new volume, written at (fill_idx, fill_pos); the phase advances by the increment
and wraps at TWO_PI. Every other word of the pool keeps its value, and no register changes. The canonical form of the pool is the
model's choice (log entry 8). -/
def Obligations.SampleStored : Prop :=
  ∀ (s k e : State) (d p : F64), s.running = true → s.pipe.fillIdx.toNat < s.cfg.bufCount.toNat →
    s.pipe.fillPos.toNat < s.cfg.bufSize.toNat → s.pipe.pool.wf = true →
    k = (match s.cfg.mode with
      | .continuous => { s with synth.curF := s.live.freq } | .pulse => periodStep s | .modem => schedulerStep s) →
    d = fdiv (fmul fTwoPi k.synth.curF) s.cfg.sampleRate →
    e = envelopeStep { k with synth.dphi := d } →
    p = fadd s.synth.phase d →
    controlStep s = k ∧
    ∃ t, producerAct s = .next t ∧
      t.pipe.pool.read (s.pipe.fillIdx.toNat * s.cfg.bufSize.toNat + s.pipe.fillPos.toNat) =
        fmul (wave s.params.sin s.cfg.waveform s.synth.phase) e.synth.curV ∧
      (∀ a, a ≠ s.pipe.fillIdx.toNat * s.cfg.bufSize.toNat + s.pipe.fillPos.toNat →
        t.pipe.pool.read a = s.pipe.pool.read a) ∧
      t = { s with
        synth := { e.synth with phase := if fle fTwoPi p then fsub p fTwoPi else p },
        symq := k.symq,
        pipe.pool := t.pipe.pool,
        pipe.fillPos := s.pipe.fillPos + 1#32 }

/-- R233, R234: a running producer with a full buffer publishes it and moves to the next one, if the ready queue has a free
slot; if not it waits and changes nothing. -/
def Obligations.PublishOrStall : Prop :=
  ∀ s : State, s.running = true → s.cfg.bufSize.toNat ≤ s.pipe.fillPos.toNat → s.cfg.bufCount.toNat ≤ 16 →
    (s.pipe.ready.length < s.cfg.bufCount.toNat - 1 →
      ∃ k : BitVec 4, k.toNat = (s.pipe.fillIdx.toNat + 1) % s.cfg.bufCount.toNat ∧
        producerAct s = .next { s with
          pipe.ready := s.pipe.ready ++ [s.pipe.fillIdx], pipe.fillIdx := k, pipe.fillPos := 0#32 }) ∧
    (s.cfg.bufCount.toNat - 1 ≤ s.pipe.ready.length → producerAct s = .next s)

/-- R235: a POP takes the oldest ready buffer; sample `j` of `out_buf` is word `j` of that buffer, and only `ready`,
`out_buf` and the two outputs change. Word `j` of buffer `i` is at `i * BUF_SIZE + j` (20_memory.md R61). -/
def Obligations.PopReturnsOldest : Prop :=
  ∀ (s : State) (i : BitVec 4) (rest : List (BitVec 4)),
    s.running = true → s.pipe.ready = i :: rest → i.toNat < s.cfg.bufCount.toNat →
    ∃ b : SampleBuf, b.len = s.cfg.bufSize.toNat ∧
      (∀ j, j < s.cfg.bufSize.toNat → b.sample j = s.pipe.pool.read (i.toNat * s.cfg.bufSize.toNat + j)) ∧
      consumerAct true s = .next { s with
        pipe.ready := rest, pipe.outBuf := b, out.frameValid := true, out.underrun := false }

/-- R236: a POP of an empty ready queue returns BUF_SIZE samples of +0.0 and counts the underrun, saturating; nothing else
but the two outputs changes. -/
def Obligations.UnderrunSilence : Prop :=
  ∀ s : State, s.running = true → s.pipe.ready = [] →
    ∃ (b : SampleBuf) (n : BitVec 32), b.len = s.cfg.bufSize.toNat ∧ (∀ j, b.sample j = 0#64) ∧
      n.toNat = min (s.pipe.underruns.toNat + 1) (2 ^ 32 - 1) ∧
      consumerAct true s = .next { s with
        pipe.outBuf := b, pipe.underruns := n, out.frameValid := true, out.underrun := true }

/-- 20_memory.md R74: the consumer writes only `ready`, `out_buf`, `underruns` and its outputs, and a host transaction writes
the oscillator, envelope, period and scheduler state only through VOLUME, ACTIVATE, DEACTIVATE, the two raise rates and
START, and the pipeline only through START. -/
def Obligations.AgentsWriteOwnState : Prop :=
  (∀ (r : Bool) (s t : State), consumerAct r s = .next t →
    t = { s with
      pipe.ready := t.pipe.ready, pipe.outBuf := t.pipe.outBuf, pipe.underruns := t.pipe.underruns,
      out.frameValid := t.out.frameValid, out.underrun := t.out.underrun }) ∧
  (∀ (i : Instr) (s t : State), exec i s = .next t → i ≠ .start →
    t.pipe = s.pipe ∧
      ((∀ d, i ≠ .wrVolume d ∧ i ≠ .wrFreqRaiseRate d ∧ i ≠ .wrVolRaiseRate d) → i ≠ .activate → i ≠ .deactivate →
        t.synth = s.synth))

/-! ### Whole-machine rules -/

/-- 10_state.md R23: while a stream runs, no cycle but a reset changes the engine configuration. That the implementation
parameters of 00_scope.md R6 stand in the state and that no cycle, a reset included, changes them is the model's choice (log
entry 4). -/
def Obligations.ConfigurationFixed : Prop :=
  ∀ s t : State, step s = .next t →
    t.params = s.params ∧ ((nextInputs s).rst = false → s.running = true → t.cfg = s.cfg)

/-- 60_exceptions.md R268: only an accepted START starts a stopped stream, and only STOP or reset stops a running one. -/
def Obligations.OnlyStartStarts : Prop :=
  ∀ s t : State, step s = .next t →
    (s.running = false → t.running = true →
      (nextInputs s).rst = false ∧ ∃ w, (nextInputs s).host = some w ∧ decode w = .ok .start) ∧
    (s.running = true → t.running = false →
      (nextInputs s).rst = true ∨ ∃ w, (nextInputs s).host = some w ∧ decode w = .ok .stop)

/-- 46_pipeline.md R238, 44_framing.md R191, 43_period.md R180 and the legal ranges of 10_state.md: every step keeps the
invariant of the machine. Two of its clauses are the model's choice: the canonical form of the pool (log entry 8), and the
reset values beside the legal ranges of the CFG registers (log entry 17). -/
def Obligations.InvariantKept : Prop :=
  ∀ s t : State, MachineInv s → step s = .next t → MachineInv t

/-- 60_exceptions.md R255, 46_pipeline.md R238: under the invariant no cycle faults or refuses. The fault it rules out is the
model's own (log entry 9). -/
def Obligations.StepNeverStops : Prop :=
  ∀ s : State, MachineInv s → Completes (step s)

/-- 41_oscillator.md R142, 43_period.md R180: every step keeps, while running, the tones and the current frequency at or below
half the sample rate, and, running or not, the phase finite, in [+0.0, TWO_PI) and not -0.0. -/
def Obligations.PhaseKept : Prop :=
  ∀ s t : State, MachineInv s → TonesBounded s → PhaseInRange s → step s = .next t → TonesBounded t ∧ PhaseInRange t

/-- 42_envelope.md R152, 43_period.md R180: every step keeps the smoothed volume finite and not negative, and the target and
the volume factor in [0, 1]. -/
def Obligations.VolumeKept : Prop :=
  ∀ s t : State, MachineInv s → VolumeBounded s → step s = .next t → VolumeBounded t

/-- 45_scheduler.md R218, R225: every step keeps the carried error in [-0.5, 0.5]. -/
def Obligations.CarriedErrKept : Prop :=
  ∀ s t : State, MachineInv s → CarriedErrBounded s → step s = .next t → CarriedErrBounded t

/-- 70_reset_and_hazards.md R277: the reset state meets every invariant, for all legal implementation parameters. The pool's
canonical form and the CFG registers' reset values in it are the model's choice (log entries 8 and 17). -/
def Obligations.ResetInvariants : Prop :=
  ∀ p : Params, LegalParams p →
    MachineInv (State.resetWith p) ∧ TonesBounded (State.resetWith p) ∧ PhaseInRange (State.resetWith p) ∧
    VolumeBounded (State.resetWith p) ∧ CarriedErrBounded (State.resetWith p)
end

