-- ==== Sys2Proof/Laws/Decode.lean ====
section
/-! SUPPORT. The fields of a BUS73 word that was built from its fields (30_encoding.md R80), and what the decoder can
answer (R85). -/

namespace Sys2Proof

/-- The bits of a word: DATA, then ADDR, then W. -/
theorem bus73_getLsbD (w : Bool) (a : RegAddr) (d : Word64) (i : Nat) :
    (bus73 w a d).getLsbD i =
      if i < 64 then d.getLsbD i else if i - 64 < 8 then a.getLsbD (i - 64) else (BitVec.ofBool w).getLsbD (i - 64 - 8) := by
  refine (BitVec.getLsbD_append (x := BitVec.ofBool w ++ a) (y := d) (i := i)).trans ?_
  rw [BitVec.getLsbD_append]

theorem fieldW_bus73 (w : Bool) (a : RegAddr) (d : Word64) : fieldW (bus73 w a d) = w := by
  unfold fieldW
  rw [bus73_getLsbD]
  cases w <;> rfl

theorem fieldA_bus73 (w : Bool) (a : RegAddr) (d : Word64) : fieldA (bus73 w a d) = a := by
  apply BitVec.eq_of_getLsbD_eq
  intro i hi
  unfold fieldA
  rw [BitVec.getLsbD_extractLsb', bus73_getLsbD, if_neg (by omega), Nat.add_sub_cancel_left, if_pos hi]
  simp [hi]

theorem fieldD_bus73 (w : Bool) (a : RegAddr) (d : Word64) : fieldD (bus73 w a d) = d := by
  apply BitVec.eq_of_getLsbD_eq
  intro i hi
  unfold fieldD
  rw [BitVec.getLsbD_extractLsb', bus73_getLsbD, Nat.zero_add, if_pos hi]
  simp [hi]

/-- A word is its three fields. -/
theorem bus73_fields (t : Bus73) : bus73 (fieldW t) (fieldA t) (fieldD t) = t := by
  apply BitVec.eq_of_getLsbD_eq
  intro i hi
  rw [bus73_getLsbD]
  unfold fieldA fieldD
  rw [BitVec.getLsbD_extractLsb', BitVec.getLsbD_extractLsb', Nat.zero_add]
  split
  · simp [*]
  · split
    · rename_i h1 h2
      rw [Nat.add_sub_cancel' (by omega)]
      simp [h2]
    · have h3 : i = 72 := by omega
      subst h3
      unfold fieldW
      cases t.getLsbD 72 <;> rfl

/-- What the decoder answers, by its three tests (30_encoding.md R85, 40_control.md R100 steps 1, 2 and 5). -/
theorem decode_cases (t : Bus73) :
    (regAt? (fieldA t) = none ∧ decode t = .error .badAddr) ∨
      (∃ r, regAt? (fieldA t) = some r ∧ r.access.permits (fieldW t) = false ∧ decode t = .error .access) ∨
      (∃ r, regAt? (fieldA t) = some r ∧ r.access.permits (fieldW t) = true ∧
        selectOp (fieldW t) (fieldA t) (fieldD t) = none ∧ decode t = .error .reservedValue) ∨
      (∃ r i, regAt? (fieldA t) = some r ∧ r.access.permits (fieldW t) = true ∧
        selectOp (fieldW t) (fieldA t) (fieldD t) = some i ∧ decode t = .ok i) := by
  unfold decode
  cases hr : regAt? (fieldA t) with
  | none => simp
  | some r =>
    cases hp : r.access.permits (fieldW t)
    · simp [hp]
    · cases hs : selectOp (fieldW t) (fieldA t) (fieldD t) with
      | none => simp [hp]
      | some i => simp [hp]

end Sys2Proof
end

