-- ==== Sys2Proof/Laws/Float.lean ====
section
/-! SUPPORT. Laws of the binary64 arithmetic: the value of an encoding is monotone in its bits, rounding respects every
representable bound from both sides, and the bounds this gives for each operation on values that are not negative. -/

namespace Sys2Proof.Machine

/-! ### Values of encodings -/

/-- The value, in units of 2^-1074, of the encoding with 63 lower bits `b`. -/
def magOfBits (b : Nat) : Nat :=
  if b / 2 ^ 52 = 0 then b % 2 ^ 52 else (2 ^ 52 + b % 2 ^ 52) * 2 ^ (b / 2 ^ 52 - 1)

theorem expField_eq (x : F64) : expField x = x.toNat % 2 ^ 63 / 2 ^ 52 := by
  unfold expField; omega

theorem fracField_eq (x : F64) : fracField x = x.toNat % 2 ^ 63 % 2 ^ 52 := by
  unfold fracField; omega

theorem magnitude_eq (x : F64) : magnitude x = magOfBits (x.toNat % 2 ^ 63) := by
  unfold magnitude magOfBits
  rw [expField_eq, fracField_eq]

theorem signBit_eq (x : F64) : signBit x = decide (2 ^ 63 ≤ x.toNat) := by
  have h := BitVec.msb_eq_decide x
  rw [BitVec.msb_eq_getLsbD_last] at h
  exact h

/-- An encoding as its exponent unit `u` and its mantissa `m`: `b = u * 2^52 + m`, with value `m * 2^u`. -/
theorem magOfBits_split (b : Nat) :
    ∃ u m, b = u * 2 ^ 52 + m ∧ magOfBits b = m * 2 ^ u ∧ m < 2 ^ 53 ∧ (1 ≤ u → 2 ^ 52 ≤ m) := by
  unfold magOfBits
  by_cases h : b / 2 ^ 52 = 0
  · refine ⟨0, b, by omega, ?_, by omega, by omega⟩
    rw [if_pos h, pow_zero, Nat.mul_one]; omega
  · refine ⟨b / 2 ^ 52 - 1, 2 ^ 52 + b % 2 ^ 52, ?_, by rw [if_neg h], by omega, by omega⟩
    omega

@[simp] theorem magOfBits_zero : magOfBits 0 = 0 := rfl

/-! ### Rounding to an integer -/

theorem rneDiv_le {n d m : Nat} (hd : 0 < d) (h : n ≤ m * d) : rneDiv n d ≤ m := by
  have hm := Nat.div_add_mod n d
  have hr := Nat.mod_lt n hd
  have hq : n / d ≤ m := by
    rw [Nat.div_le_iff_le_mul_add_pred hd]; nlinarith
  unfold rneDiv
  simp only
  rcases Nat.lt_or_ge (n / d) m with hlt | hge
  · split
    · exact hq
    · split
      · exact hlt
      · omega
  · have heq : n / d = m := le_antisymm hq hge
    have h0 : n % d = 0 := by
      rw [heq] at hm
      have : d * m = m * d := Nat.mul_comm _ _
      omega
    rw [if_pos (by omega)]; exact hq

theorem le_rneDiv {n d m : Nat} (hd : 0 < d) (h : m * d ≤ n) : m ≤ rneDiv n d := by
  have hq : m ≤ n / d := (Nat.le_div_iff_mul_le hd).2 h
  unfold rneDiv
  simp only
  split
  · exact hq
  · split <;> omega

/-- Rounding to an integer is monotone. -/
theorem rneDiv_mono {n n' d : Nat} (hd : 0 < d) (h : n ≤ n') : rneDiv n d ≤ rneDiv n' d := by
  have h1 := Nat.div_add_mod n d
  have h2 := Nat.div_add_mod n' d
  have hr := Nat.mod_lt n hd
  have hr' := Nat.mod_lt n' hd
  have hq : n / d ≤ n' / d := Nat.div_le_div_right h
  rcases Nat.eq_or_lt_of_le hq with he | hl
  · have hrr : n % d ≤ n' % d := by rw [he] at h1; omega
    unfold rneDiv
    simp only [he]
    (repeat' split) <;> omega
  · have a : rneDiv n d ≤ n / d + 1 := by
      unfold rneDiv; simp only; (repeat' split) <;> omega
    have b : n' / d ≤ rneDiv n' d := by
      unfold rneDiv; simp only; (repeat' split) <;> omega
    omega

/-- Twice the error of rounding to an integer is at most the divisor. -/
theorem rneDiv_error {n d : Nat} (hd : 0 < d) :
    2 * n ≤ 2 * (rneDiv n d * d) + d ∧ 2 * (rneDiv n d * d) ≤ 2 * n + d := by
  have hm := Nat.div_add_mod n d
  have hr := Nat.mod_lt n hd
  have hc : d * (n / d) = n / d * d := Nat.mul_comm _ _
  unfold rneDiv
  simp only
  split
  · omega
  · split
    · rw [Nat.add_mul]; omega
    · rcases Nat.mod_two_eq_zero_or_one (n / d) with h2 | h2
      · rw [h2, Nat.add_zero]; omega
      · rw [h2, Nat.add_mul]; omega

/-! ### Rounding to binary64 -/

/-- The exponent of the unit in the last place of `n / d`. -/
def ulpExp (n d : Nat) : Nat := (n / d).log2 - 52

theorem roundMag_eq (n d : Nat) :
    roundMag n d = min (ulpExp n d * 2 ^ 52 + rneDiv n (d * 2 ^ ulpExp n d)) infBits := rfl

theorem roundMag_le_infBits (n d : Nat) : roundMag n d ≤ infBits := by
  rw [roundMag_eq]; exact Nat.min_le_right _ _

/-- The quotient is below `2^53` units in the last place. -/
theorem lt_ulp (n : Nat) {d : Nat} (hd : 0 < d) : n < 2 ^ 53 * (d * 2 ^ ulpExp n d) := by
  have h1 : n / d < 2 ^ ((n / d).log2 + 1) := Nat.lt_log2_self
  have h2 : 2 ^ ((n / d).log2 + 1) ≤ 2 ^ (53 + ulpExp n d) :=
    Nat.pow_le_pow_right (by norm_num) (by unfold ulpExp; omega)
  have h3 : n < (n / d + 1) * d := by
    have := Nat.div_add_mod n d
    have := Nat.mod_lt n hd
    have hc : d * (n / d) = n / d * d := Nat.mul_comm _ _
    rw [Nat.add_mul]; omega
  calc n < (n / d + 1) * d := h3
    _ ≤ 2 ^ (53 + ulpExp n d) * d := Nat.mul_le_mul_right _ (by omega)
    _ = 2 ^ 53 * (d * 2 ^ ulpExp n d) := by rw [pow_add]; ring

/-- Above the first binades the quotient is at least `2^52` units in the last place. -/
theorem ulp_le {n d : Nat} (hu : 1 ≤ ulpExp n d) : 2 ^ 52 * (d * 2 ^ ulpExp n d) ≤ n := by
  have h0 : n / d ≠ 0 := by
    intro h; unfold ulpExp at hu; rw [h] at hu; simp at hu
  have h1 : 2 ^ (n / d).log2 ≤ n / d := Nat.log2_self_le h0
  have h2 : 2 ^ (52 + ulpExp n d) ≤ 2 ^ (n / d).log2 :=
    Nat.pow_le_pow_right (by norm_num) (by unfold ulpExp at hu ⊢; omega)
  calc 2 ^ 52 * (d * 2 ^ ulpExp n d) = 2 ^ (52 + ulpExp n d) * d := by rw [pow_add]; ring
    _ ≤ n / d * d := Nat.mul_le_mul_right _ (le_trans h2 h1)
    _ ≤ n := Nat.div_mul_le_self n d

/-- A quotient that a representable value bounds has a unit no larger than that value's. -/
theorem ulpExp_le {n d b u m : Nat} (hd : 0 < d) (hv : magOfBits b = m * 2 ^ u) (hm : m < 2 ^ 53)
    (h : n ≤ magOfBits b * d) : ulpExp n d ≤ u := by
  by_contra hc
  have hlt : u + 1 ≤ ulpExp n d := by omega
  have h1 := ulp_le (by omega : 1 ≤ ulpExp n d)
  have h2 : 2 ^ (u + 1) ≤ 2 ^ ulpExp n d := Nat.pow_le_pow_right (by norm_num) hlt
  rw [hv] at h
  have h3 : m * 2 ^ u * d < 2 ^ 52 * (d * 2 ^ (u + 1)) := by
    have : 2 ^ 52 * (d * 2 ^ (u + 1)) = 2 ^ 53 * 2 ^ u * d := by rw [pow_succ]; ring
    rw [this]
    exact Nat.mul_lt_mul_of_pos_right (Nat.mul_lt_mul_of_pos_right hm (by positivity)) hd
  have h4 : 2 ^ 52 * (d * 2 ^ (u + 1)) ≤ 2 ^ 52 * (d * 2 ^ ulpExp n d) :=
    Nat.mul_le_mul_left _ (Nat.mul_le_mul_left _ h2)
  omega

/-- A quotient that is at least a representable value has a unit no smaller than that value's. -/
theorem le_ulpExp {n d b u m : Nat} (hd : 0 < d) (hv : magOfBits b = m * 2 ^ u) (hm : 1 ≤ u → 2 ^ 52 ≤ m)
    (h : magOfBits b * d ≤ n) : u ≤ ulpExp n d := by
  by_contra hc
  have hlt : ulpExp n d + 1 ≤ u := by omega
  have h1 := lt_ulp n hd
  have h2 : 2 ^ (ulpExp n d + 1) ≤ 2 ^ u := Nat.pow_le_pow_right (by norm_num) hlt
  have hm' := hm (by omega)
  rw [hv] at h
  have h3 : 2 ^ 53 * (d * 2 ^ ulpExp n d) ≤ m * 2 ^ u * d := by
    calc 2 ^ 53 * (d * 2 ^ ulpExp n d) = 2 ^ 52 * 2 ^ (ulpExp n d + 1) * d := by rw [pow_succ]; ring
      _ ≤ m * 2 ^ u * d := Nat.mul_le_mul_right _ (Nat.mul_le_mul hm' h2)
  omega

/-- Rounding never passes a representable upper bound. -/
theorem roundMag_le {n d b : Nat} (hd : 0 < d) (h : n ≤ magOfBits b * d) : roundMag n d ≤ b := by
  obtain ⟨u, m, hb, hv, hm, hn⟩ := magOfBits_split b
  have hu := ulpExp_le hd hv hm h
  rw [roundMag_eq]
  refine le_trans (Nat.min_le_left _ _) ?_
  have hpos : 0 < d * 2 ^ ulpExp n d := by positivity
  rcases Nat.eq_or_lt_of_le hu with he | hl
  · have : rneDiv n (d * 2 ^ ulpExp n d) ≤ m := by
      apply rneDiv_le hpos
      rw [he]
      calc n ≤ magOfBits b * d := h
        _ = m * (d * 2 ^ u) := by rw [hv]; ring
    rw [he] at this ⊢
    omega
  · have : rneDiv n (d * 2 ^ ulpExp n d) ≤ 2 ^ 53 := rneDiv_le hpos (le_of_lt (lt_ulp n hd))
    have hm' := hn (by omega)
    omega

/-- Rounding never passes a representable lower bound. -/
theorem le_roundMag {n d b : Nat} (hd : 0 < d) (hi : b ≤ infBits) (h : magOfBits b * d ≤ n) : b ≤ roundMag n d := by
  obtain ⟨u, m, hb, hv, hm, hn⟩ := magOfBits_split b
  have hu := le_ulpExp hd hv hn h
  rw [roundMag_eq]
  refine le_min ?_ hi
  have hpos : 0 < d * 2 ^ ulpExp n d := by positivity
  rcases Nat.eq_or_lt_of_le hu with he | hl
  · have : m ≤ rneDiv n (d * 2 ^ ulpExp n d) := by
      apply le_rneDiv hpos
      rw [← he]
      calc m * (d * 2 ^ u) = magOfBits b * d := by rw [hv]; ring
        _ ≤ n := h
    rw [← he] at this ⊢
    omega
  · have : 2 ^ 52 ≤ rneDiv n (d * 2 ^ ulpExp n d) := le_rneDiv hpos (ulp_le (by omega))
    omega

theorem ulpExp_mono {n n' d : Nat} (h : n ≤ n') : ulpExp n d ≤ ulpExp n' d := by
  unfold ulpExp
  have h1 : n / d ≤ n' / d := Nat.div_le_div_right h
  have h2 : (n / d).log2 ≤ (n' / d).log2 := by
    rcases Nat.eq_zero_or_pos (n / d) with h0 | h0
    · rw [h0]; simp
    · exact (Nat.le_log2 (by omega)).2 (le_trans (Nat.log2_self_le (by omega)) h1)
  omega

/-- Rounding is monotone. -/
theorem roundMag_mono {n n' d : Nat} (hd : 0 < d) (h : n ≤ n') : roundMag n d ≤ roundMag n' d := by
  rw [roundMag_eq, roundMag_eq]
  refine min_le_min ?_ (le_refl _)
  have hu := ulpExp_mono (d := d) h
  have hpos : 0 < d * 2 ^ ulpExp n d := by positivity
  have hpos' : 0 < d * 2 ^ ulpExp n' d := by positivity
  rcases Nat.eq_or_lt_of_le hu with he | hl
  · rw [he]; exact Nat.add_le_add_left (rneDiv_mono hpos' h) _
  · have a : rneDiv n (d * 2 ^ ulpExp n d) ≤ 2 ^ 53 := rneDiv_le hpos (le_of_lt (lt_ulp n hd))
    have b : 2 ^ 52 ≤ rneDiv n' (d * 2 ^ ulpExp n' d) := le_rneDiv hpos' (ulp_le (by omega))
    omega

/-- A representable value rounds to itself. -/
theorem roundMag_exact {d b : Nat} (hd : 0 < d) (hi : b ≤ infBits) : roundMag (magOfBits b * d) d = b :=
  le_antisymm (roundMag_le hd (le_refl _)) (le_roundMag hd hi (le_refl _))

/-- The value of an encoding is monotone in its bits. -/
theorem magOfBits_mono {a b : Nat} (hb : b ≤ infBits) (h : a ≤ b) : magOfBits a ≤ magOfBits b := by
  by_contra hc
  have h1 : b ≤ a := by
    have := le_roundMag (n := magOfBits a) (d := 1) (by norm_num) hb (by omega)
    have h2 := roundMag_le (n := magOfBits a) (d := 1) (b := a) (by norm_num) (by omega)
    omega
  have : a = b := le_antisymm h h1
  rw [this] at hc
  exact hc (le_refl _)

theorem magOfBits_strictMono {a b : Nat} (hb : b ≤ infBits) (h : a < b) : magOfBits a < magOfBits b := by
  by_contra hc
  have h1 := le_roundMag (n := magOfBits a) (d := 1) (b := b) (by norm_num) hb (by omega)
  have h2 := roundMag_le (n := magOfBits a) (d := 1) (b := a) (by norm_num) (by omega)
  omega

/-! ### Packed results -/

theorem packF64_toNat {neg : Bool} {bits : Nat} (h : bits ≤ infBits) :
    (packF64 neg bits).toNat = (if neg then 2 ^ 63 else 0) + bits := by
  unfold packF64
  rw [BitVec.toNat_ofNat]
  apply Nat.mod_eq_of_lt
  unfold infBits at h
  split <;> omega

@[simp] theorem signBit_packF64 {neg : Bool} {bits : Nat} (h : bits ≤ infBits) : signBit (packF64 neg bits) = neg := by
  rw [signBit_eq, packF64_toNat h]
  unfold infBits at h
  cases neg
  · simp; omega
  · simp

theorem packF64_low {neg : Bool} {bits : Nat} (h : bits ≤ infBits) : (packF64 neg bits).toNat % 2 ^ 63 = bits := by
  rw [packF64_toNat h]
  unfold infBits at h
  split <;> omega

@[simp] theorem magnitude_packF64 {neg : Bool} {bits : Nat} (h : bits ≤ infBits) :
    magnitude (packF64 neg bits) = magOfBits bits := by
  rw [magnitude_eq, packF64_low h]

@[simp] theorem isNaN_packF64 {neg : Bool} {bits : Nat} (h : bits ≤ infBits) : isNaN (packF64 neg bits) = false := by
  unfold isNaN
  rw [expField_eq, fracField_eq, packF64_low h]
  unfold infBits at h
  simp only [Bool.and_eq_false_iff, beq_eq_false_iff_ne, bne_eq_false_iff_eq]
  omega

theorem isFinite_packF64 {neg : Bool} {bits : Nat} (h : bits ≤ infBits) :
    isFinite (packF64 neg bits) = decide (bits < infBits) := by
  unfold isFinite
  rw [expField_eq, packF64_low h]
  unfold infBits at *
  by_cases hb : bits < 0x7FF0000000000000
  · simp only [hb, decide_true, bne_iff_ne, ne_eq]; omega
  · simp only [hb, decide_false, bne_eq_false_iff_eq]; omega

/-! ### Low bits of an operand -/

/-- The 63 bits below the sign. -/
def lowBits (x : F64) : Nat := x.toNat % 2 ^ 63

theorem magnitude_lowBits (x : F64) : magnitude x = magOfBits (lowBits x) := magnitude_eq x

theorem isFinite_iff (x : F64) : isFinite x = true ↔ lowBits x < infBits := by
  unfold isFinite lowBits infBits
  rw [expField_eq, bne_iff_ne]
  omega

theorem isNaN_iff (x : F64) : isNaN x = true ↔ infBits < lowBits x := by
  unfold isNaN lowBits infBits
  rw [expField_eq, fracField_eq]
  simp only [Bool.and_eq_true, beq_iff_eq, bne_iff_ne]
  omega

theorem isInf_iff (x : F64) : isInf x = true ↔ lowBits x = infBits := by
  unfold isInf lowBits infBits
  rw [expField_eq, fracField_eq]
  simp only [Bool.and_eq_true, beq_iff_eq]
  omega

theorem lowBits_le {x : F64} (h : isNaN x = false) : lowBits x ≤ infBits := by
  by_contra hc
  rw [(isNaN_iff x).2 (by omega)] at h
  cases h

theorem isNaN_of_finite {x : F64} (h : isFinite x = true) : isNaN x = false := by
  rw [isFinite_iff] at h
  cases hn : isNaN x with
  | false => rfl
  | true => rw [isNaN_iff] at hn; omega

theorem isInf_of_finite {x : F64} (h : isFinite x = true) : isInf x = false := by
  rw [isFinite_iff] at h
  cases hn : isInf x with
  | false => rfl
  | true => rw [isInf_iff] at hn; omega

end Sys2Proof.Machine
end

