-- ==== Sys2Proof/Laws/FloatOps.lean ====
section
/-! SUPPORT. What each binary64 operation can do on operands that are not negative: its result is not a NaN, not negative,
and on the same side of every representable bound as the exact result. -/

namespace Sys2Proof.Machine

/-! ### Comparisons -/

theorem fle_iff {a b : F64} : fle a b = true ↔ isNaN a = false ∧ isNaN b = false ∧ scaled a ≤ scaled b := by
  unfold fle; simp [and_assoc]

theorem flt_iff {a b : F64} : flt a b = true ↔ isNaN a = false ∧ isNaN b = false ∧ scaled a < scaled b := by
  unfold flt; simp [and_assoc]

theorem feq_iff {a b : F64} : feq a b = true ↔ isNaN a = false ∧ isNaN b = false ∧ scaled a = scaled b := by
  unfold feq; simp [and_assoc]

theorem fle_trans {a b c : F64} (h : fle a b = true) (k : fle b c = true) : fle a c = true := by
  rw [fle_iff] at *; exact ⟨h.1, k.2.1, le_trans h.2.2 k.2.2⟩

@[simp] theorem scaled_fZero : scaled fZero = 0 := by decide

@[simp] theorem isNaN_fZero : isNaN fZero = false := by decide

theorem nonneg_iff {x : F64} : fle fZero x = true ↔ isNaN x = false ∧ 0 ≤ scaled x := by
  rw [fle_iff, isNaN_fZero, scaled_fZero]; simp

/-- A value that is not negative is its magnitude. -/
theorem scaled_eq_magnitude {x : F64} (h : 0 ≤ scaled x) : scaled x = magnitude x := by
  unfold scaled at *
  split at h
  · rename_i hs; rw [if_pos hs]; omega
  · rename_i hs; rw [if_neg hs]

theorem magnitude_infBits : magOfBits infBits ≠ 0 := by
  have := magOfBits_strictMono (a := 0) (b := infBits) (le_refl _) (by norm_num [infBits])
  omega

theorem signBit_of_nonneg_inf {x : F64} (hi : isInf x = true) (h : 0 ≤ scaled x) : signBit x = false := by
  have hm := scaled_eq_magnitude h
  cases hs : signBit x with
  | false => rfl
  | true =>
    unfold scaled at hm
    rw [if_pos hs, magnitude_lowBits, (isInf_iff x).1 hi] at hm
    have := magnitude_infBits
    omega

theorem scaled_packF64_pos {bits : Nat} (h : bits ≤ infBits) : scaled (packF64 false bits) = magOfBits bits := by
  unfold scaled; rw [signBit_packF64 h, magnitude_packF64 h]; rfl

theorem scaled_packF64_zero (neg : Bool) : scaled (packF64 neg 0) = 0 := by
  unfold scaled; rw [magnitude_packF64 (by norm_num [infBits])]; simp

theorem scaled_packF64_nonneg {neg : Bool} {bits : Nat} (h : bits ≤ infBits) (hz : neg = true → bits = 0) :
    scaled (packF64 neg bits) = magOfBits bits := by
  cases neg with
  | false => exact scaled_packF64_pos h
  | true => rw [hz rfl, scaled_packF64_zero, magOfBits_zero]; rfl

/-! ### Addition -/

/-- The sum of two finite values that are not negative is the rounded exact sum. -/
theorem fadd_eq_round {a b : F64} (ha : isFinite a = true) (hb : isFinite b = true) (ha0 : 0 ≤ scaled a)
    (hb0 : 0 ≤ scaled b) :
    isNaN (fadd a b) = false ∧ scaled (fadd a b) = magOfBits (roundMag (magnitude a + magnitude b) 1) := by
  have hma := scaled_eq_magnitude ha0
  have hmb := scaled_eq_magnitude hb0
  have hr := roundMag_le_infBits (magnitude a + magnitude b) 1
  unfold fadd
  rw [isNaN_of_finite ha, isNaN_of_finite hb, isInf_of_finite ha, isInf_of_finite hb]
  simp only [Bool.false_or, Bool.false_and, Bool.false_eq_true, if_false]
  split
  · rename_i hz
    refine ⟨isNaN_packF64 (by norm_num [infBits]), ?_⟩
    rw [scaled_packF64_zero]
    have h0 : magnitude a + magnitude b = 0 := by omega
    rw [h0]; decide
  · have hk : (scaled a + scaled b).natAbs = magnitude a + magnitude b := by omega
    have hn : ¬ scaled a + scaled b < 0 := by omega
    rw [hk, decide_eq_false hn]
    exact ⟨isNaN_packF64 hr, scaled_packF64_pos hr⟩

/-- A sum of values that are not negative is not negative and not a NaN. -/
theorem fadd_nonneg {a b : F64} (ha : fle fZero a = true) (hb : fle fZero b = true) : fle fZero (fadd a b) = true := by
  rw [nonneg_iff] at *
  have inf_case : ∀ x y : F64, isNaN x = false → 0 ≤ scaled x → isNaN y = false → 0 ≤ scaled y →
      isInf x = true ∨ isInf y = true → isNaN (fadd x y) = false ∧ 0 ≤ scaled (fadd x y) := by
    intro x y hx hx0 hy hy0 hi
    have hno : (isInf x && isInf y && (signBit x != signBit y)) = false := by
      cases hxi : isInf x <;> cases hyi : isInf y <;> simp
      rw [signBit_of_nonneg_inf hxi hx0, signBit_of_nonneg_inf hyi hy0]
    unfold fadd
    rw [hx, hy, hno]
    simp only [Bool.or_self, Bool.false_eq_true, if_false]
    split
    · exact ⟨hx, hx0⟩
    · split
      · exact ⟨hy, hy0⟩
      · simp_all
  cases hai : isInf a with
  | true => exact inf_case a b ha.1 ha.2 hb.1 hb.2 (.inl hai)
  | false =>
    cases hbi : isInf b with
    | true => exact inf_case a b ha.1 ha.2 hb.1 hb.2 (.inr hbi)
    | false =>
      have hfa : isFinite a = true := by
        have := lowBits_le ha.1
        rw [isFinite_iff]
        have h2 : lowBits a ≠ infBits := fun h => by rw [(isInf_iff a).2 h] at hai; cases hai
        omega
      have hfb : isFinite b = true := by
        have := lowBits_le hb.1
        rw [isFinite_iff]
        have h2 : lowBits b ≠ infBits := fun h => by rw [(isInf_iff b).2 h] at hbi; cases hbi
        omega
      obtain ⟨h1, h2⟩ := fadd_eq_round hfa hfb ha.2 hb.2
      exact ⟨h1, by rw [h2]; exact Int.natCast_nonneg _⟩

theorem scaled_packF64_neg {bits : Nat} (h : bits ≤ infBits) : scaled (packF64 true bits) = -(magOfBits bits : Int) := by
  unfold scaled; rw [signBit_packF64 h, magnitude_packF64 h]; rfl

theorem scaled_natAbs (x : F64) : (scaled x).natAbs = magnitude x := by
  unfold scaled; split <;> simp

/-- The sum of finite values, from its exact value. -/
theorem fadd_finite {a b : F64} (ha : isFinite a = true) (hb : isFinite b = true) :
    isNaN (fadd a b) = false ∧
      (0 ≤ scaled a + scaled b → scaled (fadd a b) = magOfBits (roundMag (scaled a + scaled b).natAbs 1)) ∧
      (scaled a + scaled b < 0 → scaled (fadd a b) = -(magOfBits (roundMag (scaled a + scaled b).natAbs 1) : Int)) := by
  have hr := roundMag_le_infBits (scaled a + scaled b).natAbs 1
  unfold fadd
  rw [isNaN_of_finite ha, isNaN_of_finite hb, isInf_of_finite ha, isInf_of_finite hb]
  simp only [Bool.false_or, Bool.false_and, Bool.false_eq_true, if_false]
  split
  · rename_i hz
    refine ⟨isNaN_packF64 (by norm_num [infBits]), fun _ => ?_, fun h => by omega⟩
    rw [scaled_packF64_zero, hz]; decide
  · rename_i hz
    refine ⟨isNaN_packF64 hr, fun h => ?_, fun h => ?_⟩
    · rw [decide_eq_false (by omega), scaled_packF64_pos hr]
    · rw [decide_eq_true h, scaled_packF64_neg hr]

/-- Rounding a sum does not pass a representable upper bound. -/
theorem fadd_le {a b y : F64} (ha : isFinite a = true) (hb : isFinite b = true) (hy : isNaN y = false)
    (h : scaled a + scaled b ≤ scaled y) : fle (fadd a b) y = true := by
  obtain ⟨h1, h2, h3⟩ := fadd_finite ha hb
  rw [fle_iff]
  refine ⟨h1, hy, ?_⟩
  rcases lt_or_ge (scaled a + scaled b) 0 with hk | hk
  · rw [h3 hk]
    rcases lt_or_ge (scaled y) 0 with hy0 | hy0
    · have hm := scaled_natAbs y
      have hle := le_roundMag (n := (scaled a + scaled b).natAbs) (d := 1) (b := lowBits y) (by norm_num) (lowBits_le hy)
        (by rw [← magnitude_lowBits]; omega)
      have := magOfBits_mono (roundMag_le_infBits _ _) hle
      rw [← magnitude_lowBits] at this
      omega
    · omega
  · rw [h2 hk]
    have hm := scaled_natAbs y
    have hle := roundMag_le (n := (scaled a + scaled b).natAbs) (d := 1) (b := lowBits y) (by norm_num)
        (by rw [← magnitude_lowBits]; omega)
    have := magOfBits_mono (lowBits_le hy) hle
    rw [← magnitude_lowBits] at this
    omega

/-- Rounding a sum does not pass a representable lower bound. -/
theorem le_fadd {a b y : F64} (ha : isFinite a = true) (hb : isFinite b = true) (hy : isNaN y = false)
    (h : scaled y ≤ scaled a + scaled b) : fle y (fadd a b) = true := by
  obtain ⟨h1, h2, h3⟩ := fadd_finite ha hb
  rw [fle_iff]
  refine ⟨hy, h1, ?_⟩
  rcases lt_or_ge (scaled a + scaled b) 0 with hk | hk
  · rw [h3 hk]
    have hm := scaled_natAbs y
    have hle := roundMag_le (n := (scaled a + scaled b).natAbs) (d := 1) (b := lowBits y) (by norm_num)
        (by rw [← magnitude_lowBits]; omega)
    have := magOfBits_mono (lowBits_le hy) hle
    rw [← magnitude_lowBits] at this
    omega
  · rw [h2 hk]
    rcases lt_or_ge (scaled y) 0 with hy0 | hy0
    · omega
    · have hm := scaled_natAbs y
      have hle := le_roundMag (n := (scaled a + scaled b).natAbs) (d := 1) (b := lowBits y) (by norm_num) (lowBits_le hy)
        (by rw [← magnitude_lowBits]; omega)
      have := magOfBits_mono (roundMag_le_infBits _ _) hle
      rw [← magnitude_lowBits] at this
      omega

/-! ### Negation and subtraction -/

theorem lowBits_setWidth (x : F64) : lowBits x = (x.setWidth 63).toNat := (BitVec.toNat_setWidth _ _).symm

@[simp] theorem lowBits_fneg (x : F64) : lowBits (fneg x) = lowBits x := by
  rw [lowBits_setWidth, lowBits_setWidth]
  unfold fneg
  rw [BitVec.setWidth_xor]
  simp

@[simp] theorem signBit_fneg (x : F64) : signBit (fneg x) = !signBit x := by
  unfold signBit fneg
  rw [BitVec.getLsbD_xor]
  simp

theorem scaled_fneg (x : F64) : scaled (fneg x) = -scaled x := by
  unfold scaled
  rw [signBit_fneg, magnitude_lowBits, magnitude_lowBits, lowBits_fneg]
  cases signBit x <;> simp

theorem isFinite_fneg (x : F64) : isFinite (fneg x) = isFinite x := by
  rw [Bool.eq_iff_iff, isFinite_iff, isFinite_iff, lowBits_fneg]

theorem fsub_eq_fadd {a b : F64} (ha : isFinite a = true) (hb : isFinite b = true) : fsub a b = fadd a (fneg b) := by
  unfold fsub
  rw [isNaN_of_finite ha, isNaN_of_finite hb, isInf_of_finite ha]
  simp

/-- Rounding a difference does not pass a representable upper bound. -/
theorem fsub_le {a b y : F64} (ha : isFinite a = true) (hb : isFinite b = true) (hy : isNaN y = false)
    (h : scaled a - scaled b ≤ scaled y) : fle (fsub a b) y = true := by
  rw [fsub_eq_fadd ha hb]
  exact fadd_le ha (by rw [isFinite_fneg]; exact hb) hy (by rw [scaled_fneg]; omega)

/-- Rounding a difference does not pass a representable lower bound. -/
theorem le_fsub {a b y : F64} (ha : isFinite a = true) (hb : isFinite b = true) (hy : isNaN y = false)
    (h : scaled y ≤ scaled a - scaled b) : fle y (fsub a b) = true := by
  rw [fsub_eq_fadd ha hb]
  exact le_fadd ha (by rw [isFinite_fneg]; exact hb) hy (by rw [scaled_fneg]; omega)

/-! ### Multiplication -/

theorem unitsPerOne_pos : 0 < unitsPerOne := by unfold unitsPerOne; positivity

theorem magnitude_eq_zero_of_signBit {x : F64} (h : 0 ≤ scaled x) (hs : signBit x = true) : magnitude x = 0 := by
  unfold scaled at h; rw [if_pos hs] at h; omega

/-- The product of two finite values that are not negative is the rounded exact product. -/
theorem fmul_eq_round {a b : F64} (ha : isFinite a = true) (hb : isFinite b = true) (ha0 : 0 ≤ scaled a)
    (hb0 : 0 ≤ scaled b) :
    isNaN (fmul a b) = false ∧ scaled (fmul a b) = magOfBits (roundMag (magnitude a * magnitude b) unitsPerOne) := by
  have hr := roundMag_le_infBits (magnitude a * magnitude b) unitsPerOne
  unfold fmul
  rw [isNaN_of_finite ha, isNaN_of_finite hb, isInf_of_finite ha, isInf_of_finite hb]
  simp only [Bool.false_or, Bool.false_and, Bool.false_eq_true, if_false]
  refine ⟨isNaN_packF64 hr, scaled_packF64_nonneg hr ?_⟩
  intro hs
  have hz : magnitude a * magnitude b = 0 := by
    cases h1 : signBit a with
    | true => rw [magnitude_eq_zero_of_signBit ha0 h1, Nat.zero_mul]
    | false =>
      cases h2 : signBit b with
      | true => rw [magnitude_eq_zero_of_signBit hb0 h2, Nat.mul_zero]
      | false => rw [h1, h2] at hs; cases hs
  rw [hz]
  exact Nat.le_zero.1 (roundMag_le (b := 0) unitsPerOne_pos (by simp))

theorem fmul_nonneg {a b : F64} (ha : isFinite a = true) (hb : isFinite b = true) (ha0 : 0 ≤ scaled a)
    (hb0 : 0 ≤ scaled b) : fle fZero (fmul a b) = true := by
  obtain ⟨h1, h2⟩ := fmul_eq_round ha hb ha0 hb0
  exact nonneg_iff.2 ⟨h1, by rw [h2]; exact Int.natCast_nonneg _⟩

theorem fmul_le {a b y : F64} (ha : isFinite a = true) (hb : isFinite b = true) (ha0 : 0 ≤ scaled a)
    (hb0 : 0 ≤ scaled b) (hy : fle fZero y = true) (h : magnitude a * magnitude b ≤ magnitude y * unitsPerOne) :
    fle (fmul a b) y = true := by
  obtain ⟨h1, h2⟩ := fmul_eq_round ha hb ha0 hb0
  rw [nonneg_iff] at hy
  rw [fle_iff, h2]
  refine ⟨h1, hy.1, ?_⟩
  rw [scaled_eq_magnitude hy.2, magnitude_lowBits y]
  have hle := roundMag_le (n := magnitude a * magnitude b) (d := unitsPerOne) (b := lowBits y) unitsPerOne_pos (by
    rw [← magnitude_lowBits]; exact h)
  exact Int.ofNat_le.2 (magOfBits_mono (lowBits_le hy.1) hle)

theorem le_fmul {a b y : F64} (ha : isFinite a = true) (hb : isFinite b = true) (ha0 : 0 ≤ scaled a)
    (hb0 : 0 ≤ scaled b) (hy : fle fZero y = true) (h : magnitude y * unitsPerOne ≤ magnitude a * magnitude b) :
    fle y (fmul a b) = true := by
  obtain ⟨h1, h2⟩ := fmul_eq_round ha hb ha0 hb0
  rw [nonneg_iff] at hy
  rw [fle_iff, h2]
  refine ⟨hy.1, h1, ?_⟩
  rw [scaled_eq_magnitude hy.2, magnitude_lowBits y]
  have hle := le_roundMag (n := magnitude a * magnitude b) (d := unitsPerOne) (b := lowBits y) unitsPerOne_pos
    (lowBits_le hy.1) (by rw [← magnitude_lowBits]; exact h)
  exact Int.ofNat_le.2 (magOfBits_mono (roundMag_le_infBits _ _) hle)

/-! ### Division -/

/-- The quotient of two finite values that are not negative, the divisor not zero, is the rounded exact quotient. -/
theorem fdiv_eq_round {a b : F64} (ha : isFinite a = true) (hb : isFinite b = true) (ha0 : 0 ≤ scaled a)
    (hb0 : 0 < scaled b) :
    isNaN (fdiv a b) = false ∧ scaled (fdiv a b) = magOfBits (roundMag (magnitude a * unitsPerOne) (magnitude b)) := by
  have hr := roundMag_le_infBits (magnitude a * unitsPerOne) (magnitude b)
  have hmb := scaled_eq_magnitude (le_of_lt hb0)
  have hb1 : (magnitude b == 0) = false := by rw [beq_eq_false_iff_ne]; omega
  have hsb : signBit b = false := by
    cases h : signBit b with
    | false => rfl
    | true =>
      have := magnitude_eq_zero_of_signBit (le_of_lt hb0) h
      omega
  unfold fdiv
  rw [isNaN_of_finite ha, isNaN_of_finite hb, isInf_of_finite ha, isInf_of_finite hb, hb1]
  simp only [Bool.or_self, Bool.and_self, Bool.and_false, Bool.false_eq_true, if_false]
  refine ⟨isNaN_packF64 hr, scaled_packF64_nonneg hr ?_⟩
  intro hs
  have hz : magnitude a = 0 := by
    cases h1 : signBit a with
    | true => exact magnitude_eq_zero_of_signBit ha0 h1
    | false => rw [h1, hsb] at hs; cases hs
  rw [hz]
  exact Nat.le_zero.1 (roundMag_le (b := 0) (by omega) (by simp))

theorem fdiv_nonneg {a b : F64} (ha : isFinite a = true) (hb : isFinite b = true) (ha0 : 0 ≤ scaled a)
    (hb0 : 0 < scaled b) : fle fZero (fdiv a b) = true := by
  obtain ⟨h1, h2⟩ := fdiv_eq_round ha hb ha0 hb0
  exact nonneg_iff.2 ⟨h1, by rw [h2]; exact Int.natCast_nonneg _⟩

theorem fdiv_le {a b y : F64} (ha : isFinite a = true) (hb : isFinite b = true) (ha0 : 0 ≤ scaled a)
    (hb0 : 0 < scaled b) (hy : fle fZero y = true) (h : magnitude a * unitsPerOne ≤ magnitude y * magnitude b) :
    fle (fdiv a b) y = true := by
  obtain ⟨h1, h2⟩ := fdiv_eq_round ha hb ha0 hb0
  have hmb := scaled_eq_magnitude (le_of_lt hb0)
  rw [nonneg_iff] at hy
  rw [fle_iff, h2]
  refine ⟨h1, hy.1, ?_⟩
  rw [scaled_eq_magnitude hy.2, magnitude_lowBits y]
  have hle := roundMag_le (n := magnitude a * unitsPerOne) (d := magnitude b) (b := lowBits y) (by omega) (by
    rw [← magnitude_lowBits]; exact h)
  exact Int.ofNat_le.2 (magOfBits_mono (lowBits_le hy.1) hle)

theorem le_fdiv {a b y : F64} (ha : isFinite a = true) (hb : isFinite b = true) (ha0 : 0 ≤ scaled a)
    (hb0 : 0 < scaled b) (hy : fle fZero y = true) (h : magnitude y * magnitude b ≤ magnitude a * unitsPerOne) :
    fle y (fdiv a b) = true := by
  obtain ⟨h1, h2⟩ := fdiv_eq_round ha hb ha0 hb0
  have hmb := scaled_eq_magnitude (le_of_lt hb0)
  rw [nonneg_iff] at hy
  rw [fle_iff, h2]
  refine ⟨hy.1, h1, ?_⟩
  rw [scaled_eq_magnitude hy.2, magnitude_lowBits y]
  have hle := le_roundMag (n := magnitude a * unitsPerOne) (d := magnitude b) (b := lowBits y) (by omega)
    (lowBits_le hy.1) (by rw [← magnitude_lowBits]; exact h)
  exact Int.ofNat_le.2 (magOfBits_mono (roundMag_le_infBits _ _) hle)

/-! ### Finite results -/

/-- A value that is at most a finite value is finite, if it is not negative. -/
theorem isFinite_of_le {x y : F64} (h : fle x y = true) (h0 : fle fZero x = true) (hy : isFinite y = true) :
    isFinite x = true := by
  rw [fle_iff] at h
  rw [nonneg_iff] at h0
  rw [isFinite_iff] at *
  have hx := scaled_eq_magnitude h0.2
  have hy0 := scaled_eq_magnitude (le_trans h0.2 h.2.2)
  by_contra hc
  have hlt := magOfBits_strictMono (lowBits_le h.1) (show lowBits y < lowBits x by omega)
  rw [← magnitude_lowBits, ← magnitude_lowBits] at hlt
  omega

end Sys2Proof.Machine
end

