-- ==== Sys2Proof/Laws/FloatBounds.lean ====
section
/-! SUPPORT. Bounds on the binary64 operations of the datapath: the constants of 00_scope.md R14 by value, exact halving,
sums and products with a factor of at most one, whole numbers, and the saturating volume-factor step (43_period.md R167). -/

namespace Sys2Proof.Machine

-- One theorem after another, to bound the memory of the kernel evaluations.
set_option Elab.async false

/-! ### Constants -/

theorem isFinite_fZero : isFinite fZero = true := by decide
theorem isFinite_fOne : isFinite fOne = true := by decide
theorem isFinite_fMinusOne : isFinite fMinusOne = true := by decide
theorem isFinite_fTwo : isFinite fTwo = true := by decide
theorem isFinite_fFour : isFinite fFour = true := by decide
theorem isFinite_fMinusFour : isFinite fMinusFour = true := by decide
theorem isFinite_fHalfPi : isFinite fHalfPi = true := by decide
theorem isFinite_fThreeHalfPi : isFinite fThreeHalfPi = true := by decide
theorem isFinite_fTwoPi : isFinite fTwoPi = true := by decide
theorem scaled_fMinusOne : scaled fMinusOne = -(unitsPerOne : Int) := by decide +kernel
theorem scaled_fTwo : scaled fTwo = 2 * (unitsPerOne : Int) := by decide +kernel
theorem scaled_fFour : scaled fFour = 4 * (unitsPerOne : Int) := by decide +kernel
theorem scaled_fMinusFour : scaled fMinusFour = -(4 * (unitsPerOne : Int)) := by decide +kernel
theorem magnitude_fFour : magnitude fFour = 4 * unitsPerOne := by decide +kernel
theorem scaled_fHalfPi : scaled fHalfPi = magnitude fHalfPi := by decide +kernel
theorem scaled_fThreeHalfPi : scaled fThreeHalfPi = 3 * (magnitude fHalfPi : Int) := by decide +kernel
theorem scaled_fTwoPi : scaled fTwoPi = 4 * (magnitude fHalfPi : Int) := by decide +kernel
theorem magnitude_fHalfPi_pos : 0 < magnitude fHalfPi := by decide +kernel


theorem magnitude_fOne : magnitude fOne = unitsPerOne := by decide +kernel
theorem magnitude_fTwo : magnitude fTwo = 2 * unitsPerOne := by decide +kernel
theorem scaled_fOne : scaled fOne = unitsPerOne := by decide +kernel

/-! ### Order and finiteness -/

/-- A value between two finite values is finite. -/
theorem isFinite_of_between {a x b : F64} (h1 : fle a x = true) (h2 : fle x b = true) (ha : isFinite a = true)
    (hb : isFinite b = true) : isFinite x = true := by
  rw [fle_iff] at h1 h2
  rw [isFinite_iff] at *
  by_contra hc
  have hx := lowBits_le h1.2.1
  have e1 := magOfBits_strictMono hx (show lowBits a < lowBits x by omega)
  have e2 := magOfBits_strictMono hx (show lowBits b < lowBits x by omega)
  rw [← magnitude_lowBits, ← magnitude_lowBits] at e1 e2
  have := scaled_natAbs a; have := scaled_natAbs b; have := scaled_natAbs x
  omega

/-- A value that is not negative is ordered as its bits are. -/
theorem lowBits_le_of_fle {x y : F64} (h0 : 0 ≤ scaled x) (h : fle x y = true) : lowBits x ≤ lowBits y := by
  rw [fle_iff] at h
  by_contra hc
  have := magOfBits_strictMono (lowBits_le h.1) (show lowBits y < lowBits x by omega)
  rw [← magnitude_lowBits, ← magnitude_lowBits] at this
  have := scaled_natAbs x; have := scaled_natAbs y
  omega

/-! ### Halving -/

/-- One less in the exponent field halves a value whose exponent field is at least 2. -/
theorem magOfBits_halve {b : Nat} (h : 2 ^ 53 ≤ b) : magOfBits (b - 2 ^ 52) * 2 = magOfBits b := by
  unfold magOfBits
  rw [if_neg (by omega), if_neg (by omega)]
  have e1 : (b - 2 ^ 52) % 2 ^ 52 = b % 2 ^ 52 := by omega
  have e2 : b / 2 ^ 52 - 1 = ((b - 2 ^ 52) / 2 ^ 52 - 1) + 1 := by omega
  rw [e1, e2, pow_succ]; ring

/-- Halving a value of at least 2^-1021 is exact. -/
theorem fdiv_fTwo {a : F64} (ha : isFinite a = true) (h0 : 0 < scaled a) (h : 2 ^ 53 ≤ lowBits a) :
    isFinite (fdiv a fTwo) = true ∧ scaled (fdiv a fTwo) * 2 = scaled a ∧
      lowBits (fdiv a fTwo) = lowBits a - 2 ^ 52 := by
  have hs : signBit a = false := by
    cases hh : signBit a with
    | false => rfl
    | true => unfold scaled at h0; rw [if_pos hh] at h0; omega
  have hfin := (isFinite_iff a).1 ha
  have e : roundMag (magnitude a * unitsPerOne) (magnitude fTwo) = lowBits a - 2 ^ 52 := by
    rw [magnitude_fTwo, magnitude_lowBits, ← magOfBits_halve h]
    rw [Nat.mul_assoc]
    exact roundMag_exact (by have := unitsPerOne_pos; omega) (by omega)
  have hf : fdiv a fTwo = packF64 false (lowBits a - 2 ^ 52) := by
    unfold fdiv
    rw [isNaN_of_finite ha, isInf_of_finite ha, hs, e]
    have c1 : isNaN fTwo = false := by decide
    have c2 : isInf fTwo = false := by decide
    have c3 : (magnitude fTwo == 0) = false := by decide +kernel
    have c4 : signBit fTwo = false := by decide
    rw [c1, c2, c3, c4]
    simp
  have hle : lowBits a - 2 ^ 52 ≤ infBits := by omega
  refine ⟨?_, ?_, ?_⟩
  · rw [hf, isFinite_packF64 hle]; simp; omega
  · rw [hf, scaled_packF64_pos hle, scaled_eq_magnitude (by omega : 0 ≤ scaled a), magnitude_lowBits,
      ← magOfBits_halve h]
    push_cast; ring
  · rw [hf]; exact packF64_low hle

/-! ### Legal values -/

theorem legalNonNeg_iff {x : F64} : legalNonNeg x = true ↔ isFinite x = true ∧ fle fZero x = true := by
  unfold legalNonNeg; simp

theorem inRange_iff {lo hi x : F64} :
    inRange lo hi x = true ↔ isFinite x = true ∧ fle lo x = true ∧ fle x hi = true := by
  unfold inRange; simp [and_assoc]

theorem legalUnit_iff {x : F64} :
    legalUnit x = true ↔ isFinite x = true ∧ fle fZero x = true ∧ fle x fOne = true := inRange_iff

/-- The largest finite value. -/
def maxFinite : F64 := 0x7FEFFFFFFFFFFFFF#64

theorem fle_maxFinite {x : F64} (h : isFinite x = true) : fle x maxFinite = true := by
  rw [fle_iff]
  refine ⟨isNaN_of_finite h, by decide, ?_⟩
  have hm : lowBits maxFinite = 0x7FEFFFFFFFFFFFFF := by decide
  have h1 := magOfBits_mono (a := lowBits x) (b := lowBits maxFinite) (by decide)
    (by rw [isFinite_iff] at h; unfold infBits at h; omega)
  rw [← magnitude_lowBits, ← magnitude_lowBits] at h1
  have := scaled_natAbs x
  have h2 : scaled maxFinite = magnitude maxFinite := by decide +kernel
  omega

/-- Adding at most 1 to a finite value that is not negative stays finite. -/
theorem fadd_le_one_finite {a b : F64} (ha : legalNonNeg a = true) (hb : legalUnit b = true) :
    legalNonNeg (fadd a b) = true := by
  rw [legalNonNeg_iff] at *
  rw [legalUnit_iff] at hb
  have hn := fadd_nonneg ha.2 hb.2.1
  refine ⟨?_, hn⟩
  obtain ⟨h1, h2⟩ := fadd_eq_round ha.1 hb.1 (nonneg_iff.1 ha.2).2 (nonneg_iff.1 hb.2.1).2
  have hm : magnitude a + magnitude b ≤ magnitude maxFinite + unitsPerOne := by
    have h3 := (fle_iff.1 (fle_maxFinite ha.1)).2.2
    have h4 := (fle_iff.1 hb.2.2).2.2
    rw [scaled_fOne, scaled_eq_magnitude (nonneg_iff.1 hb.2.1).2] at h4
    rw [scaled_eq_magnitude (nonneg_iff.1 ha.2).2] at h3
    have : scaled maxFinite = magnitude maxFinite := by decide +kernel
    omega
  have hr := roundMag_mono (d := 1) (by norm_num) hm
  have hc : roundMag (magnitude maxFinite + unitsPerOne) 1 = 0x7FEFFFFFFFFFFFFF := by decide +kernel
  rw [hc] at hr
  rw [isFinite_iff]
  by_contra hcon
  have h5 := magOfBits_strictMono (a := roundMag (magnitude a + magnitude b) 1) (b := lowBits (fadd a b))
    (lowBits_le h1) (by unfold infBits at hcon; omega)
  rw [← magnitude_lowBits] at h5
  rw [scaled_eq_magnitude (nonneg_iff.1 hn).2] at h2
  omega

/-- A product with a factor in [0, 1] is finite and at most the other factor. -/
theorem unit_mul {a b : F64} (ha : legalNonNeg a = true) (hb : legalUnit b = true) :
    legalNonNeg (fmul a b) = true ∧ fle (fmul a b) a = true := by
  rw [legalNonNeg_iff] at *
  rw [legalUnit_iff] at hb
  have a0 := nonneg_iff.1 ha.2
  have b0 := nonneg_iff.1 hb.2.1
  have h := fmul_nonneg ha.1 hb.1 a0.2 b0.2
  have hle : fle (fmul a b) a = true := by
    refine fmul_le ha.1 hb.1 a0.2 b0.2 ha.2 ?_
    refine Nat.mul_le_mul_left _ ?_
    have h4 := (fle_iff.1 hb.2.2).2.2
    rw [scaled_fOne, scaled_eq_magnitude b0.2] at h4
    exact_mod_cast h4
  exact ⟨⟨isFinite_of_le hle h ha.1, h⟩, hle⟩

theorem unit_mul_unit {a b : F64} (ha : legalUnit a = true) (hb : legalUnit b = true) :
    legalUnit (fmul a b) = true := by
  have ha' : legalNonNeg a = true := by
    rw [legalUnit_iff] at ha; rw [legalNonNeg_iff]; exact ⟨ha.1, ha.2.1⟩
  obtain ⟨h1, h2⟩ := unit_mul ha' hb
  rw [legalNonNeg_iff] at h1
  rw [legalUnit_iff] at *
  exact ⟨h1.1, h1.2, fle_trans h2 ha.2.2⟩

/-- The envelope filter's next value is finite and not negative (42_envelope.md R151). -/
theorem envelopeNext_legalNonNeg {s : State} (h : VolumeBounded s) (hl : LegalLive s.live) :
    legalNonNeg (envelopeNext s) = true := by
  unfold envelopeNext
  obtain ⟨-, -, k1, k2, -⟩ := hl
  exact fadd_le_one_finite (unit_mul h.current k1).1 (unit_mul_unit h.target k2)

/-- The volume-factor step of 43_period.md R167 stays in [0, 1] and does not fall. -/
theorem fmin_fOne_fadd {v d : F64} (hv : legalUnit v = true) (hd : fle fZero d = true) :
    legalUnit (fmin fOne (fadd v d)) = true ∧ fle v (fmin fOne (fadd v d)) = true := by
  rw [legalUnit_iff] at *
  have hn := fadd_nonneg hv.2.1 hd
  unfold fmin
  split
  · rename_i h
    exact ⟨⟨by decide, by decide, by decide +kernel⟩, hv.2.2⟩
  · rename_i h
    have h2 : fle (fadd v d) fOne = true := by
      rw [fle_iff] at h ⊢
      have := nonneg_iff.1 hn
      refine ⟨this.1, by decide, ?_⟩
      by_contra hc
      exact h ⟨by decide, this.1, by omega⟩
    refine ⟨⟨isFinite_of_le h2 hn (by decide), hn, h2⟩, ?_⟩
    cases hdf : isFinite d with
    | true =>
      refine le_fadd hv.1 hdf (isNaN_of_finite hv.1) ?_
      have := (nonneg_iff.1 hd).2; omega
    | false =>
      exfalso
      have hdn := (nonneg_iff.1 hd).1
      have hi : isInf d = true := by
        rw [isInf_iff]; have := lowBits_le hdn
        have h3 : ¬ lowBits d < infBits := fun hh => by rw [(isFinite_iff d).2 hh] at hdf; cases hdf
        omega
      have : fadd v d = d := by
        unfold fadd
        rw [isNaN_of_finite hv.1, hdn, isInf_of_finite hv.1, hi]; simp
      rw [this] at h2
      have := isFinite_of_le h2 hd (by decide)
      rw [this] at hdf; cases hdf

/-! ### Whole numbers -/


/-- The encoding of a whole number below 2^53. -/
theorem magOfBits_whole {w : Nat} (h0 : 0 < w) (h : w < 2 ^ 53) :
    ∃ b, b < infBits ∧ magOfBits b = w * unitsPerOne := by
  have hk : w.log2 < 53 := (Nat.log2_lt (by omega)).2 h
  have h1 : 2 ^ w.log2 ≤ w := Nat.log2_self_le (by omega)
  have h2 : w < 2 ^ (w.log2 + 1) := Nat.lt_log2_self
  generalize w.log2 = k at *
  have e52 : 2 ^ k * 2 ^ (52 - k) = 2 ^ 52 := by rw [← pow_add]; congr 1; omega
  have l1 : 2 ^ 52 ≤ w * 2 ^ (52 - k) := by rw [← e52]; exact Nat.mul_le_mul_right _ h1
  have l2 : w * 2 ^ (52 - k) < 2 ^ 53 := by
    have : 2 ^ (k + 1) * 2 ^ (52 - k) = 2 ^ 53 := by rw [← pow_add]; congr 1; omega
    rw [← this]; exact Nat.mul_lt_mul_of_pos_right h2 (by positivity)
  generalize hm : w * 2 ^ (52 - k) = m at *
  refine ⟨(k + 1023) * 2 ^ 52 + (m - 2 ^ 52), by unfold infBits; omega, ?_⟩
  have q : ((k + 1023) * 2 ^ 52 + (m - 2 ^ 52)) / 2 ^ 52 = k + 1023 := by omega
  have r : ((k + 1023) * 2 ^ 52 + (m - 2 ^ 52)) % 2 ^ 52 = m - 2 ^ 52 := by omega
  unfold magOfBits
  rw [if_neg (by omega), q, r, show 2 ^ 52 + (m - 2 ^ 52) = m by omega, ← hm, Nat.mul_assoc, ← pow_add,
    show 52 - k + (k + 1023 - 1) = 1074 by omega]
  rfl

/-- The binary64 value of a whole number below 2^53 is exact. -/
theorem fofInt_exact {w : Nat} (h0 : 0 < w) (h : w < 2 ^ 53) :
    isFinite (fofInt w) = true ∧ scaled (fofInt w) = w * (unitsPerOne : Int) := by
  obtain ⟨b, hb, he⟩ := magOfBits_whole h0 h
  have e : roundMag (w * unitsPerOne) 1 = b := by
    rw [← he, ← Nat.mul_one (magOfBits b)]; exact roundMag_exact (by omega) (le_of_lt hb)
  have hf : fofInt w = packF64 false b := by
    unfold fofInt
    rw [Int.natAbs_natCast, e, show decide ((w : Int) < 0) = false by simp]
  rw [hf, isFinite_packF64 (le_of_lt hb), scaled_packF64_pos (le_of_lt hb), he]
  exact ⟨by simpa using hb, by push_cast; rfl⟩

/-- A value that is not negative rounds to a whole number at most half a unit away. -/
theorem roundHalfEven_nonneg {t : F64} (h : isFinite t = true) (h0 : 0 < scaled t) :
    roundHalfEven t = (rneDiv (magnitude t) unitsPerOne : Int) := by
  unfold roundHalfEven
  rw [if_pos h]
  cases hs : signBit t with
  | false => rfl
  | true => unfold scaled at h0; rw [if_pos hs] at h0; omega

end Sys2Proof.Machine
end

