-- ==== Sys2Proof/Laws/Memory.lean ====
section
/-! SUPPORT. Laws of the pool's memory: reading after writing, reading elsewhere, reading a copied buffer, and the canonical
form that every operation keeps. -/

namespace Sys2Proof.Machine

/-! ### Reading -/

@[simp] theorem Memory.read_nil (a : Nat) : Memory.read [] a = 0#64 := rfl

theorem Memory.read_cons (b : Nat) (v : F64) (r : Memory) (a : Nat) :
    Memory.read ((b, v) :: r) a = if a = b then v else Memory.read r a := rfl

/-- An address that a canonical tail does not reach reads +0.0. -/
theorem Memory.read_of_wfAbove {m : Memory} {a c : Nat} (h : Memory.wfAbove a m = true) (hc : c ≤ a) :
    m.read c = 0#64 := by
  induction m generalizing a with
  | nil => rfl
  | cons p r ih =>
    obtain ⟨b, v⟩ := p
    simp only [Memory.wfAbove, Bool.and_eq_true, decide_eq_true_eq] at h
    rw [Memory.read_cons, if_neg (by omega)]
    exact ih h.2 (by omega)

theorem Memory.read_put_ne {a c : Nat} {v : F64} {m : Memory} (h : c ≠ a) : (Memory.put a v m).read c = m.read c := by
  unfold Memory.put
  split
  · rfl
  · rw [Memory.read_cons, if_neg h]

theorem Memory.read_put_same {a : Nat} {v : F64} {m : Memory} (h : m.read a = 0#64) : (Memory.put a v m).read a = v := by
  unfold Memory.put
  split
  · rename_i hv; rw [h, hv]
  · rw [Memory.read_cons, if_pos rfl]

/-- A write leaves every other word alone. -/
theorem Memory.read_write_ne {a c : Nat} {v : F64} (m : Memory) (h : c ≠ a) : (m.write a v).read c = m.read c := by
  induction m with
  | nil => exact Memory.read_put_ne h
  | cons p r ih =>
    obtain ⟨b, w⟩ := p
    unfold Memory.write
    split
    · exact Memory.read_put_ne h
    · split
      · rename_i hb
        rw [Memory.read_put_ne h, Memory.read_cons, if_neg (by omega)]
      · rw [Memory.read_cons, Memory.read_cons, ih]

theorem Memory.read_write_above {m : Memory} {a c : Nat} {v : F64} (h : Memory.wfAbove c m = true) :
    (m.write a v).read a = v := by
  induction m generalizing c with
  | nil => exact Memory.read_put_same rfl
  | cons p r ih =>
    obtain ⟨b, w⟩ := p
    simp only [Memory.wfAbove, Bool.and_eq_true, decide_eq_true_eq] at h
    unfold Memory.write
    split
    · rename_i hab
      refine Memory.read_put_same ?_
      rw [Memory.read_cons, if_neg (by omega)]
      exact Memory.read_of_wfAbove h.2 (by omega)
    · split
      · rename_i hb
        exact Memory.read_put_same (Memory.read_of_wfAbove h.2 (by omega))
      · rename_i hb
        rw [Memory.read_cons, if_neg hb]
        exact ih h.2

/-- A write is read back. -/
theorem Memory.read_write_same {m : Memory} {a : Nat} {v : F64} (h : m.wf = true) : (m.write a v).read a = v := by
  cases m with
  | nil => exact Memory.read_put_same rfl
  | cons p r =>
    obtain ⟨b, w⟩ := p
    simp only [Memory.wf, Bool.and_eq_true] at h
    unfold Memory.write
    split
    · rename_i hab
      refine Memory.read_put_same ?_
      rw [Memory.read_cons, if_neg (by omega)]
      exact Memory.read_of_wfAbove h.2 (by omega)
    · split
      · rename_i hb
        exact Memory.read_put_same (Memory.read_of_wfAbove h.2 (by omega))
      · rename_i hb
        rw [Memory.read_cons, if_neg hb]
        exact Memory.read_write_above h.2

/-- A copied buffer holds the words it was copied from, and +0.0 beyond its length. -/
theorem Memory.read_slice (m : Memory) (base n j : Nat) :
    (m.slice base n).read j = if j < n then m.read (base + j) else 0#64 := by
  induction m with
  | nil => simp [Memory.slice]
  | cons p r ih =>
    obtain ⟨b, v⟩ := p
    unfold Memory.slice
    split
    · rename_i hb
      rw [Memory.read_cons, Memory.read_cons, ih]
      by_cases hj : j = b - base
      · rw [if_pos hj, if_pos (by omega), if_pos (by omega)]
      · rw [if_neg hj, if_neg (show ¬ base + j = b by omega)]
    · rename_i hb
      rw [Memory.read_cons, ih]
      by_cases hj : j < n
      · rw [if_pos hj, if_pos hj, if_neg (by omega)]
      · rw [if_neg hj, if_neg hj]

/-! ### The canonical form -/

theorem Memory.wfAbove_mono {m : Memory} {a b : Nat} (h : Memory.wfAbove b m = true) (hab : a ≤ b) :
    Memory.wfAbove a m = true := by
  cases m with
  | nil => rfl
  | cons p r =>
    obtain ⟨c, v⟩ := p
    simp only [Memory.wfAbove, Bool.and_eq_true, decide_eq_true_eq] at h ⊢
    exact ⟨⟨by omega, h.1.2⟩, h.2⟩

theorem Memory.wf_of_wfAbove {m : Memory} {a : Nat} (h : Memory.wfAbove a m = true) : m.wf = true := by
  cases m with
  | nil => rfl
  | cons p r =>
    obtain ⟨c, v⟩ := p
    simp only [Memory.wfAbove, Bool.and_eq_true, decide_eq_true_eq] at h
    simp only [Memory.wf, Bool.and_eq_true]
    exact ⟨h.1.2, h.2⟩

theorem Memory.wfAbove_put {m : Memory} {a b : Nat} {v : F64} (h : Memory.wfAbove b m = true) (hab : a < b) :
    Memory.wfAbove a (Memory.put b v m) = true := by
  unfold Memory.put
  split
  · exact Memory.wfAbove_mono h (by omega)
  · rename_i hv
    simp only [Memory.wfAbove, Bool.and_eq_true, decide_eq_true_eq, bne_iff_ne]
    exact ⟨⟨hab, hv⟩, h⟩

theorem Memory.wf_put {m : Memory} {b : Nat} {v : F64} (h : Memory.wfAbove b m = true) :
    (Memory.put b v m).wf = true := by
  unfold Memory.put
  split
  · exact Memory.wf_of_wfAbove h
  · rename_i hv
    simp only [Memory.wf, Bool.and_eq_true, bne_iff_ne]
    exact ⟨hv, h⟩

theorem Memory.wfAbove_cons {a b : Nat} {v : F64} {r : Memory} :
    Memory.wfAbove a ((b, v) :: r) = true ↔ (a < b ∧ v ≠ 0#64) ∧ Memory.wfAbove b r = true := by
  simp only [Memory.wfAbove, Bool.and_eq_true, decide_eq_true_eq, bne_iff_ne]

theorem Memory.wfAbove_write {m : Memory} {a c : Nat} {v : F64} (h : Memory.wfAbove c m = true) (hc : c < a) :
    Memory.wfAbove c (m.write a v) = true := by
  induction m generalizing c with
  | nil => exact Memory.wfAbove_put (m := []) rfl hc
  | cons p r ih =>
    obtain ⟨b, w⟩ := p
    rw [Memory.wfAbove_cons] at h
    unfold Memory.write
    split
    · rename_i hab
      exact Memory.wfAbove_put (Memory.wfAbove_cons.2 ⟨⟨hab, h.1.2⟩, h.2⟩) hc
    · split
      · rename_i hb
        exact Memory.wfAbove_put (hb ▸ h.2) hc
      · rename_i hb
        exact Memory.wfAbove_cons.2 ⟨h.1, ih h.2 (by omega)⟩

/-- A write keeps the canonical form. -/
theorem Memory.wf_write {m : Memory} {a : Nat} {v : F64} (h : m.wf = true) : (m.write a v).wf = true := by
  cases m with
  | nil => exact Memory.wf_put (m := []) rfl
  | cons p r =>
    obtain ⟨b, w⟩ := p
    simp only [Memory.wf, Bool.and_eq_true, bne_iff_ne] at h
    unfold Memory.write
    split
    · rename_i hab
      exact Memory.wf_put (Memory.wfAbove_cons.2 ⟨⟨hab, h.1⟩, h.2⟩)
    · split
      · rename_i hb
        exact Memory.wf_put (hb ▸ h.2)
      · rename_i hb
        simp only [Memory.wf, Bool.and_eq_true, bne_iff_ne]
        exact ⟨h.1, Memory.wfAbove_write h.2 (by omega)⟩

theorem Memory.wfAbove_slice {m : Memory} {a base n : Nat} (h : Memory.wfAbove a m = true) (ha : base ≤ a) :
    Memory.wfAbove (a - base) (m.slice base n) = true := by
  induction m generalizing a with
  | nil => rfl
  | cons p r ih =>
    obtain ⟨b, v⟩ := p
    rw [Memory.wfAbove_cons] at h
    unfold Memory.slice
    split
    · exact Memory.wfAbove_cons.2 ⟨⟨by omega, h.1.2⟩, ih h.2 (by omega)⟩
    · exact Memory.wfAbove_mono (ih h.2 (by omega)) (by omega)

/-- A copied buffer is in canonical form. -/
theorem Memory.wf_slice {m : Memory} (base n : Nat) (h : m.wf = true) : (m.slice base n).wf = true := by
  induction m with
  | nil => rfl
  | cons p r ih =>
    obtain ⟨b, v⟩ := p
    simp only [Memory.wf, Bool.and_eq_true, bne_iff_ne] at h
    unfold Memory.slice
    split
    · rename_i hb
      simp only [Memory.wf, Bool.and_eq_true, bne_iff_ne]
      exact ⟨h.1, Memory.wfAbove_slice h.2 hb.1⟩
    · exact ih (Memory.wf_of_wfAbove h.2)

end Sys2Proof.Machine
end

