-- ==== Sys2Proof/Laws/State.lean ====
section
/-! SUPPORT. One lemma for each field of each shared update: what the update leaves there. -/

namespace Sys2Proof.Machine

/-! ### `accept` -/

@[simp] theorem accept_params (s : State) : (accept s).params = s.params := rfl

@[simp] theorem accept_running (s : State) : (accept s).running = s.running := rfl

@[simp] theorem accept_cfg (s : State) : (accept s).cfg = s.cfg := rfl

@[simp] theorem accept_live (s : State) : (accept s).live = s.live := rfl

@[simp] theorem accept_err (s : State) : (accept s).err = s.err := rfl

@[simp] theorem accept_synth (s : State) : (accept s).synth = s.synth := rfl

@[simp] theorem accept_symq (s : State) : (accept s).symq = s.symq := rfl

@[simp] theorem accept_pipe (s : State) : (accept s).pipe = s.pipe := rfl

@[simp] theorem accept_devReady (s : State) : (accept s).devReady = s.devReady := rfl

@[simp] theorem accept_inputs (s : State) : (accept s).inputs = s.inputs := rfl

@[simp] theorem accept_hostRdata (s : State) : (accept s).out.hostRdata = 0#64 := rfl

@[simp] theorem accept_hostErr (s : State) : (accept s).out.hostErr = false := rfl

@[simp] theorem accept_frameValid (s : State) : (accept s).out.frameValid = s.out.frameValid := rfl

@[simp] theorem accept_underrun (s : State) : (accept s).out.underrun = s.out.underrun := rfl

/-! ### `acceptRead` -/

@[simp] theorem acceptRead_params (v : Word64) (s : State) : (acceptRead v s).params = s.params := rfl

@[simp] theorem acceptRead_running (v : Word64) (s : State) : (acceptRead v s).running = s.running := rfl

@[simp] theorem acceptRead_cfg (v : Word64) (s : State) : (acceptRead v s).cfg = s.cfg := rfl

@[simp] theorem acceptRead_live (v : Word64) (s : State) : (acceptRead v s).live = s.live := rfl

@[simp] theorem acceptRead_err (v : Word64) (s : State) : (acceptRead v s).err = s.err := rfl

@[simp] theorem acceptRead_synth (v : Word64) (s : State) : (acceptRead v s).synth = s.synth := rfl

@[simp] theorem acceptRead_symq (v : Word64) (s : State) : (acceptRead v s).symq = s.symq := rfl

@[simp] theorem acceptRead_pipe (v : Word64) (s : State) : (acceptRead v s).pipe = s.pipe := rfl

@[simp] theorem acceptRead_devReady (v : Word64) (s : State) : (acceptRead v s).devReady = s.devReady := rfl

@[simp] theorem acceptRead_inputs (v : Word64) (s : State) : (acceptRead v s).inputs = s.inputs := rfl

@[simp] theorem acceptRead_hostRdata (v : Word64) (s : State) : (acceptRead v s).out.hostRdata = v := rfl

@[simp] theorem acceptRead_hostErr (v : Word64) (s : State) : (acceptRead v s).out.hostErr = false := rfl

@[simp] theorem acceptRead_frameValid (v : Word64) (s : State) : (acceptRead v s).out.frameValid = s.out.frameValid := rfl

@[simp] theorem acceptRead_underrun (v : Word64) (s : State) : (acceptRead v s).out.underrun = s.out.underrun := rfl

/-! ### `hostError` -/

@[simp] theorem hostError_params (w : Bool) (a : RegAddr) (c : ErrCode) (s : State) : (hostError w a c s).params = s.params := rfl

@[simp] theorem hostError_running (w : Bool) (a : RegAddr) (c : ErrCode) (s : State) : (hostError w a c s).running = s.running := rfl

@[simp] theorem hostError_cfg (w : Bool) (a : RegAddr) (c : ErrCode) (s : State) : (hostError w a c s).cfg = s.cfg := rfl

@[simp] theorem hostError_live (w : Bool) (a : RegAddr) (c : ErrCode) (s : State) : (hostError w a c s).live = s.live := rfl

@[simp] theorem hostError_err (w : Bool) (a : RegAddr) (c : ErrCode) (s : State) : (hostError w a c s).err = errRecord w a c := rfl

@[simp] theorem hostError_synth (w : Bool) (a : RegAddr) (c : ErrCode) (s : State) : (hostError w a c s).synth = s.synth := rfl

@[simp] theorem hostError_symq (w : Bool) (a : RegAddr) (c : ErrCode) (s : State) : (hostError w a c s).symq = s.symq := rfl

@[simp] theorem hostError_pipe (w : Bool) (a : RegAddr) (c : ErrCode) (s : State) : (hostError w a c s).pipe = s.pipe := rfl

@[simp] theorem hostError_devReady (w : Bool) (a : RegAddr) (c : ErrCode) (s : State) : (hostError w a c s).devReady = s.devReady := rfl

@[simp] theorem hostError_inputs (w : Bool) (a : RegAddr) (c : ErrCode) (s : State) : (hostError w a c s).inputs = s.inputs := rfl

@[simp] theorem hostError_hostRdata (w : Bool) (a : RegAddr) (c : ErrCode) (s : State) : (hostError w a c s).out.hostRdata = 0#64 := rfl

@[simp] theorem hostError_hostErr (w : Bool) (a : RegAddr) (c : ErrCode) (s : State) : (hostError w a c s).out.hostErr = true := rfl

@[simp] theorem hostError_frameValid (w : Bool) (a : RegAddr) (c : ErrCode) (s : State) : (hostError w a c s).out.frameValid = s.out.frameValid := rfl

@[simp] theorem hostError_underrun (w : Bool) (a : RegAddr) (c : ErrCode) (s : State) : (hostError w a c s).out.underrun = s.out.underrun := rfl

/-! ### `streamInit` -/

@[simp] theorem streamInit_params (s : State) : (streamInit s).params = s.params := rfl

@[simp] theorem streamInit_running (s : State) : (streamInit s).running = true := rfl

@[simp] theorem streamInit_cfg (s : State) : (streamInit s).cfg = s.cfg := rfl

@[simp] theorem streamInit_live (s : State) : (streamInit s).live = s.live := rfl

@[simp] theorem streamInit_err (s : State) : (streamInit s).err = s.err := rfl

@[simp] theorem streamInit_synth (s : State) : (streamInit s).synth = initSynth s := rfl

@[simp] theorem streamInit_symq (s : State) : (streamInit s).symq = ⟨[], []⟩ := rfl

@[simp] theorem streamInit_pipe (s : State) : (streamInit s).pipe = initPipe s := rfl

@[simp] theorem streamInit_out (s : State) : (streamInit s).out = s.out := rfl

@[simp] theorem streamInit_devReady (s : State) : (streamInit s).devReady = s.devReady := rfl

@[simp] theorem streamInit_inputs (s : State) : (streamInit s).inputs = s.inputs := rfl

/-! ### `beginCycle` -/

@[simp] theorem beginCycle_params (s : State) : (beginCycle s).params = s.params := rfl

@[simp] theorem beginCycle_running (s : State) : (beginCycle s).running = s.running := rfl

@[simp] theorem beginCycle_cfg (s : State) : (beginCycle s).cfg = s.cfg := rfl

@[simp] theorem beginCycle_live (s : State) : (beginCycle s).live = s.live := rfl

@[simp] theorem beginCycle_err (s : State) : (beginCycle s).err = s.err := rfl

@[simp] theorem beginCycle_synth (s : State) : (beginCycle s).synth = s.synth := rfl

@[simp] theorem beginCycle_symq (s : State) : (beginCycle s).symq = s.symq := rfl

@[simp] theorem beginCycle_pipe (s : State) : (beginCycle s).pipe = s.pipe := rfl

@[simp] theorem beginCycle_out (s : State) : (beginCycle s).out = Outputs.quiet := rfl

@[simp] theorem beginCycle_devReady (s : State) : (beginCycle s).devReady = (nextInputs s).devReady := rfl

@[simp] theorem beginCycle_inputs (s : State) : (beginCycle s).inputs = s.inputs.tail := rfl

/-! ### `resetCycle` -/

@[simp] theorem resetCycle_params (s : State) : (resetCycle s).params = s.params := rfl

@[simp] theorem resetCycle_running (s : State) : (resetCycle s).running = false := rfl

@[simp] theorem resetCycle_cfg (s : State) : (resetCycle s).cfg = CfgRegs.reset := rfl

@[simp] theorem resetCycle_live (s : State) : (resetCycle s).live = LiveRegs.reset := rfl

@[simp] theorem resetCycle_err (s : State) : (resetCycle s).err = 0#17 := rfl

@[simp] theorem resetCycle_synth (s : State) : (resetCycle s).synth = Synth.reset := rfl

@[simp] theorem resetCycle_symq (s : State) : (resetCycle s).symq = ⟨[], []⟩ := rfl

@[simp] theorem resetCycle_pipe (s : State) : (resetCycle s).pipe = Pipeline.reset := rfl

@[simp] theorem resetCycle_out (s : State) : (resetCycle s).out = Outputs.quiet := rfl

@[simp] theorem resetCycle_devReady (s : State) : (resetCycle s).devReady = (nextInputs s).devReady := rfl

@[simp] theorem resetCycle_inputs (s : State) : (resetCycle s).inputs = s.inputs.tail := rfl

/-! ### `presentWord` -/

@[simp] theorem presentWord_params (t : Bus73) (s : State) : (presentWord t s).params = s.params := rfl

@[simp] theorem presentWord_running (t : Bus73) (s : State) : (presentWord t s).running = s.running := rfl

@[simp] theorem presentWord_cfg (t : Bus73) (s : State) : (presentWord t s).cfg = s.cfg := rfl

@[simp] theorem presentWord_live (t : Bus73) (s : State) : (presentWord t s).live = s.live := rfl

@[simp] theorem presentWord_err (t : Bus73) (s : State) : (presentWord t s).err = s.err := rfl

@[simp] theorem presentWord_synth (t : Bus73) (s : State) : (presentWord t s).synth = s.synth := rfl

@[simp] theorem presentWord_symq (t : Bus73) (s : State) : (presentWord t s).symq = s.symq := rfl

@[simp] theorem presentWord_pipe (t : Bus73) (s : State) : (presentWord t s).pipe = s.pipe := rfl

@[simp] theorem presentWord_out (t : Bus73) (s : State) : (presentWord t s).out = s.out := rfl

@[simp] theorem presentWord_devReady (t : Bus73) (s : State) : (presentWord t s).devReady = s.devReady := rfl

@[simp] theorem presentWord_inputs (t : Bus73) (s : State) : (presentWord t s).inputs = { nextInputs s with rst := false, host := some t } :: s.inputs.tail := rfl

/-! ### `publish` -/

@[simp] theorem publish_params (s : State) : (publish s).params = s.params := rfl

@[simp] theorem publish_running (s : State) : (publish s).running = s.running := rfl

@[simp] theorem publish_cfg (s : State) : (publish s).cfg = s.cfg := rfl

@[simp] theorem publish_live (s : State) : (publish s).live = s.live := rfl

@[simp] theorem publish_err (s : State) : (publish s).err = s.err := rfl

@[simp] theorem publish_synth (s : State) : (publish s).synth = s.synth := rfl

@[simp] theorem publish_symq (s : State) : (publish s).symq = s.symq := rfl

@[simp] theorem publish_out (s : State) : (publish s).out = s.out := rfl

@[simp] theorem publish_devReady (s : State) : (publish s).devReady = s.devReady := rfl

@[simp] theorem publish_inputs (s : State) : (publish s).inputs = s.inputs := rfl

/-! ### `underrunPop` -/

@[simp] theorem underrunPop_params (s : State) : (underrunPop s).params = s.params := rfl

@[simp] theorem underrunPop_running (s : State) : (underrunPop s).running = s.running := rfl

@[simp] theorem underrunPop_cfg (s : State) : (underrunPop s).cfg = s.cfg := rfl

@[simp] theorem underrunPop_live (s : State) : (underrunPop s).live = s.live := rfl

@[simp] theorem underrunPop_err (s : State) : (underrunPop s).err = s.err := rfl

@[simp] theorem underrunPop_synth (s : State) : (underrunPop s).synth = s.synth := rfl

@[simp] theorem underrunPop_symq (s : State) : (underrunPop s).symq = s.symq := rfl

@[simp] theorem underrunPop_devReady (s : State) : (underrunPop s).devReady = s.devReady := rfl

@[simp] theorem underrunPop_inputs (s : State) : (underrunPop s).inputs = s.inputs := rfl

@[simp] theorem underrunPop_hostRdata (s : State) : (underrunPop s).out.hostRdata = s.out.hostRdata := rfl

@[simp] theorem underrunPop_hostErr (s : State) : (underrunPop s).out.hostErr = s.out.hostErr := rfl

@[simp] theorem underrunPop_frameValid (s : State) : (underrunPop s).out.frameValid = true := rfl

@[simp] theorem underrunPop_underrun (s : State) : (underrunPop s).out.underrun = true := rfl

/-! ### `phaseDelta` -/

@[simp] theorem phaseDelta_params (s : State) : (phaseDelta s).params = s.params := rfl

@[simp] theorem phaseDelta_running (s : State) : (phaseDelta s).running = s.running := rfl

@[simp] theorem phaseDelta_cfg (s : State) : (phaseDelta s).cfg = s.cfg := rfl

@[simp] theorem phaseDelta_live (s : State) : (phaseDelta s).live = s.live := rfl

@[simp] theorem phaseDelta_err (s : State) : (phaseDelta s).err = s.err := rfl

@[simp] theorem phaseDelta_symq (s : State) : (phaseDelta s).symq = s.symq := rfl

@[simp] theorem phaseDelta_pipe (s : State) : (phaseDelta s).pipe = s.pipe := rfl

@[simp] theorem phaseDelta_out (s : State) : (phaseDelta s).out = s.out := rfl

@[simp] theorem phaseDelta_devReady (s : State) : (phaseDelta s).devReady = s.devReady := rfl

@[simp] theorem phaseDelta_inputs (s : State) : (phaseDelta s).inputs = s.inputs := rfl

/-! ### `phaseAdvance` -/

@[simp] theorem phaseAdvance_params (s : State) : (phaseAdvance s).params = s.params := rfl

@[simp] theorem phaseAdvance_running (s : State) : (phaseAdvance s).running = s.running := rfl

@[simp] theorem phaseAdvance_cfg (s : State) : (phaseAdvance s).cfg = s.cfg := rfl

@[simp] theorem phaseAdvance_live (s : State) : (phaseAdvance s).live = s.live := rfl

@[simp] theorem phaseAdvance_err (s : State) : (phaseAdvance s).err = s.err := rfl

@[simp] theorem phaseAdvance_symq (s : State) : (phaseAdvance s).symq = s.symq := rfl

@[simp] theorem phaseAdvance_pipe (s : State) : (phaseAdvance s).pipe = s.pipe := rfl

@[simp] theorem phaseAdvance_out (s : State) : (phaseAdvance s).out = s.out := rfl

@[simp] theorem phaseAdvance_devReady (s : State) : (phaseAdvance s).devReady = s.devReady := rfl

@[simp] theorem phaseAdvance_inputs (s : State) : (phaseAdvance s).inputs = s.inputs := rfl

/-! ### `continuousStep` -/

@[simp] theorem continuousStep_params (s : State) : (continuousStep s).params = s.params := rfl

@[simp] theorem continuousStep_running (s : State) : (continuousStep s).running = s.running := rfl

@[simp] theorem continuousStep_cfg (s : State) : (continuousStep s).cfg = s.cfg := rfl

@[simp] theorem continuousStep_live (s : State) : (continuousStep s).live = s.live := rfl

@[simp] theorem continuousStep_err (s : State) : (continuousStep s).err = s.err := rfl

@[simp] theorem continuousStep_symq (s : State) : (continuousStep s).symq = s.symq := rfl

@[simp] theorem continuousStep_pipe (s : State) : (continuousStep s).pipe = s.pipe := rfl

@[simp] theorem continuousStep_out (s : State) : (continuousStep s).out = s.out := rfl

@[simp] theorem continuousStep_devReady (s : State) : (continuousStep s).devReady = s.devReady := rfl

@[simp] theorem continuousStep_inputs (s : State) : (continuousStep s).inputs = s.inputs := rfl

/-! ### `periodStep` -/

@[simp] theorem periodStep_params (s : State) : (periodStep s).params = s.params := rfl

@[simp] theorem periodStep_running (s : State) : (periodStep s).running = s.running := rfl

@[simp] theorem periodStep_cfg (s : State) : (periodStep s).cfg = s.cfg := rfl

@[simp] theorem periodStep_live (s : State) : (periodStep s).live = s.live := rfl

@[simp] theorem periodStep_err (s : State) : (periodStep s).err = s.err := rfl

@[simp] theorem periodStep_synth (s : State) : (periodStep s).synth = pulseTarget s.live.volume (periodModeStep s) := rfl

@[simp] theorem periodStep_symq (s : State) : (periodStep s).symq = s.symq := rfl

@[simp] theorem periodStep_pipe (s : State) : (periodStep s).pipe = s.pipe := rfl

@[simp] theorem periodStep_out (s : State) : (periodStep s).out = s.out := rfl

@[simp] theorem periodStep_devReady (s : State) : (periodStep s).devReady = s.devReady := rfl

@[simp] theorem periodStep_inputs (s : State) : (periodStep s).inputs = s.inputs := rfl

/-! ### `enterResting` -/

@[simp] theorem enterResting_params (s : State) : (enterResting s).params = s.params := rfl

@[simp] theorem enterResting_running (s : State) : (enterResting s).running = s.running := rfl

@[simp] theorem enterResting_cfg (s : State) : (enterResting s).cfg = s.cfg := rfl

@[simp] theorem enterResting_live (s : State) : (enterResting s).live = s.live := rfl

@[simp] theorem enterResting_err (s : State) : (enterResting s).err = s.err := rfl

@[simp] theorem enterResting_symq (s : State) : (enterResting s).symq = s.symq := rfl

@[simp] theorem enterResting_pipe (s : State) : (enterResting s).pipe = s.pipe := rfl

@[simp] theorem enterResting_out (s : State) : (enterResting s).out = s.out := rfl

@[simp] theorem enterResting_devReady (s : State) : (enterResting s).devReady = s.devReady := rfl

@[simp] theorem enterResting_inputs (s : State) : (enterResting s).inputs = s.inputs := rfl

/-! ### Updates with a condition: the fields no branch writes -/

@[simp] theorem envelopeStep_params (s : State) : (envelopeStep s).params = s.params := by
  unfold envelopeStep; split <;> rfl

@[simp] theorem envelopeStep_running (s : State) : (envelopeStep s).running = s.running := by
  unfold envelopeStep; split <;> rfl

@[simp] theorem envelopeStep_cfg (s : State) : (envelopeStep s).cfg = s.cfg := by
  unfold envelopeStep; split <;> rfl

@[simp] theorem envelopeStep_live (s : State) : (envelopeStep s).live = s.live := by
  unfold envelopeStep; split <;> rfl

@[simp] theorem envelopeStep_err (s : State) : (envelopeStep s).err = s.err := by
  unfold envelopeStep; split <;> rfl

@[simp] theorem envelopeStep_symq (s : State) : (envelopeStep s).symq = s.symq := by
  unfold envelopeStep; split <;> rfl

@[simp] theorem envelopeStep_pipe (s : State) : (envelopeStep s).pipe = s.pipe := by
  unfold envelopeStep; split <;> rfl

@[simp] theorem envelopeStep_out (s : State) : (envelopeStep s).out = s.out := by
  unfold envelopeStep; split <;> rfl

@[simp] theorem envelopeStep_devReady (s : State) : (envelopeStep s).devReady = s.devReady := by
  unfold envelopeStep; split <;> rfl

@[simp] theorem envelopeStep_inputs (s : State) : (envelopeStep s).inputs = s.inputs := by
  unfold envelopeStep; split <;> rfl

@[simp] theorem enterRamping_params (s : State) : (enterRamping s).params = s.params := by
  unfold enterRamping; split <;> rfl

@[simp] theorem enterRamping_running (s : State) : (enterRamping s).running = s.running := by
  unfold enterRamping; split <;> rfl

@[simp] theorem enterRamping_cfg (s : State) : (enterRamping s).cfg = s.cfg := by
  unfold enterRamping; split <;> rfl

@[simp] theorem enterRamping_live (s : State) : (enterRamping s).live = s.live := by
  unfold enterRamping; split <;> rfl

@[simp] theorem enterRamping_err (s : State) : (enterRamping s).err = s.err := by
  unfold enterRamping; split <;> rfl

@[simp] theorem enterRamping_symq (s : State) : (enterRamping s).symq = s.symq := by
  unfold enterRamping; split <;> rfl

@[simp] theorem enterRamping_pipe (s : State) : (enterRamping s).pipe = s.pipe := by
  unfold enterRamping; split <;> rfl

@[simp] theorem enterRamping_out (s : State) : (enterRamping s).out = s.out := by
  unfold enterRamping; split <;> rfl

@[simp] theorem enterRamping_devReady (s : State) : (enterRamping s).devReady = s.devReady := by
  unfold enterRamping; split <;> rfl

@[simp] theorem enterRamping_inputs (s : State) : (enterRamping s).inputs = s.inputs := by
  unfold enterRamping; split <;> rfl

@[simp] theorem storeVolume_params (d : F64) (s : State) : (storeVolume d s).params = s.params := by
  unfold storeVolume; split <;> rfl

@[simp] theorem storeVolume_running (d : F64) (s : State) : (storeVolume d s).running = s.running := by
  unfold storeVolume; split <;> rfl

@[simp] theorem storeVolume_cfg (d : F64) (s : State) : (storeVolume d s).cfg = s.cfg := by
  unfold storeVolume; split <;> rfl

@[simp] theorem storeVolume_err (d : F64) (s : State) : (storeVolume d s).err = s.err := by
  unfold storeVolume; split <;> rfl

@[simp] theorem storeVolume_symq (d : F64) (s : State) : (storeVolume d s).symq = s.symq := by
  unfold storeVolume; split <;> rfl

@[simp] theorem storeVolume_pipe (d : F64) (s : State) : (storeVolume d s).pipe = s.pipe := by
  unfold storeVolume; split <;> rfl

@[simp] theorem storeVolume_out (d : F64) (s : State) : (storeVolume d s).out = s.out := by
  unfold storeVolume; split <;> rfl

@[simp] theorem storeVolume_devReady (d : F64) (s : State) : (storeVolume d s).devReady = s.devReady := by
  unfold storeVolume; split <;> rfl

@[simp] theorem storeVolume_inputs (d : F64) (s : State) : (storeVolume d s).inputs = s.inputs := by
  unfold storeVolume; split <;> rfl

@[simp] theorem storeFreqRaiseRate_params (d : F64) (s : State) : (storeFreqRaiseRate d s).params = s.params := by
  unfold storeFreqRaiseRate; split <;> rfl

@[simp] theorem storeFreqRaiseRate_running (d : F64) (s : State) : (storeFreqRaiseRate d s).running = s.running := by
  unfold storeFreqRaiseRate; split <;> rfl

@[simp] theorem storeFreqRaiseRate_cfg (d : F64) (s : State) : (storeFreqRaiseRate d s).cfg = s.cfg := by
  unfold storeFreqRaiseRate; split <;> rfl

@[simp] theorem storeFreqRaiseRate_err (d : F64) (s : State) : (storeFreqRaiseRate d s).err = s.err := by
  unfold storeFreqRaiseRate; split <;> rfl

@[simp] theorem storeFreqRaiseRate_symq (d : F64) (s : State) : (storeFreqRaiseRate d s).symq = s.symq := by
  unfold storeFreqRaiseRate; split <;> rfl

@[simp] theorem storeFreqRaiseRate_pipe (d : F64) (s : State) : (storeFreqRaiseRate d s).pipe = s.pipe := by
  unfold storeFreqRaiseRate; split <;> rfl

@[simp] theorem storeFreqRaiseRate_out (d : F64) (s : State) : (storeFreqRaiseRate d s).out = s.out := by
  unfold storeFreqRaiseRate; split <;> rfl

@[simp] theorem storeFreqRaiseRate_devReady (d : F64) (s : State) : (storeFreqRaiseRate d s).devReady = s.devReady := by
  unfold storeFreqRaiseRate; split <;> rfl

@[simp] theorem storeFreqRaiseRate_inputs (d : F64) (s : State) : (storeFreqRaiseRate d s).inputs = s.inputs := by
  unfold storeFreqRaiseRate; split <;> rfl

@[simp] theorem storeVolRaiseRate_params (d : F64) (s : State) : (storeVolRaiseRate d s).params = s.params := by
  unfold storeVolRaiseRate; split <;> rfl

@[simp] theorem storeVolRaiseRate_running (d : F64) (s : State) : (storeVolRaiseRate d s).running = s.running := by
  unfold storeVolRaiseRate; split <;> rfl

@[simp] theorem storeVolRaiseRate_cfg (d : F64) (s : State) : (storeVolRaiseRate d s).cfg = s.cfg := by
  unfold storeVolRaiseRate; split <;> rfl

@[simp] theorem storeVolRaiseRate_err (d : F64) (s : State) : (storeVolRaiseRate d s).err = s.err := by
  unfold storeVolRaiseRate; split <;> rfl

@[simp] theorem storeVolRaiseRate_symq (d : F64) (s : State) : (storeVolRaiseRate d s).symq = s.symq := by
  unfold storeVolRaiseRate; split <;> rfl

@[simp] theorem storeVolRaiseRate_pipe (d : F64) (s : State) : (storeVolRaiseRate d s).pipe = s.pipe := by
  unfold storeVolRaiseRate; split <;> rfl

@[simp] theorem storeVolRaiseRate_out (d : F64) (s : State) : (storeVolRaiseRate d s).out = s.out := by
  unfold storeVolRaiseRate; split <;> rfl

@[simp] theorem storeVolRaiseRate_devReady (d : F64) (s : State) : (storeVolRaiseRate d s).devReady = s.devReady := by
  unfold storeVolRaiseRate; split <;> rfl

@[simp] theorem storeVolRaiseRate_inputs (d : F64) (s : State) : (storeVolRaiseRate d s).inputs = s.inputs := by
  unfold storeVolRaiseRate; split <;> rfl

@[simp] theorem schedulerCount_params (s : State) : (schedulerCount s).params = s.params := by
  unfold schedulerCount; split <;> rfl

@[simp] theorem schedulerCount_running (s : State) : (schedulerCount s).running = s.running := by
  unfold schedulerCount; split <;> rfl

@[simp] theorem schedulerCount_cfg (s : State) : (schedulerCount s).cfg = s.cfg := by
  unfold schedulerCount; split <;> rfl

@[simp] theorem schedulerCount_live (s : State) : (schedulerCount s).live = s.live := by
  unfold schedulerCount; split <;> rfl

@[simp] theorem schedulerCount_err (s : State) : (schedulerCount s).err = s.err := by
  unfold schedulerCount; split <;> rfl

@[simp] theorem schedulerCount_symq (s : State) : (schedulerCount s).symq = s.symq := by
  unfold schedulerCount; split <;> rfl

@[simp] theorem schedulerCount_pipe (s : State) : (schedulerCount s).pipe = s.pipe := by
  unfold schedulerCount; split <;> rfl

@[simp] theorem schedulerCount_out (s : State) : (schedulerCount s).out = s.out := by
  unfold schedulerCount; split <;> rfl

@[simp] theorem schedulerCount_devReady (s : State) : (schedulerCount s).devReady = s.devReady := by
  unfold schedulerCount; split <;> rfl

@[simp] theorem schedulerCount_inputs (s : State) : (schedulerCount s).inputs = s.inputs := by
  unfold schedulerCount; split <;> rfl

@[simp] theorem schedulerFetch_params (s : State) : (schedulerFetch s).params = s.params := by
  unfold schedulerFetch; split
  · split <;> rfl
  · rfl

@[simp] theorem schedulerFetch_running (s : State) : (schedulerFetch s).running = s.running := by
  unfold schedulerFetch; split
  · split <;> rfl
  · rfl

@[simp] theorem schedulerFetch_cfg (s : State) : (schedulerFetch s).cfg = s.cfg := by
  unfold schedulerFetch; split
  · split <;> rfl
  · rfl

@[simp] theorem schedulerFetch_live (s : State) : (schedulerFetch s).live = s.live := by
  unfold schedulerFetch; split
  · split <;> rfl
  · rfl

@[simp] theorem schedulerFetch_err (s : State) : (schedulerFetch s).err = s.err := by
  unfold schedulerFetch; split
  · split <;> rfl
  · rfl

@[simp] theorem schedulerFetch_pipe (s : State) : (schedulerFetch s).pipe = s.pipe := by
  unfold schedulerFetch; split
  · split <;> rfl
  · rfl

@[simp] theorem schedulerFetch_out (s : State) : (schedulerFetch s).out = s.out := by
  unfold schedulerFetch; split
  · split <;> rfl
  · rfl

@[simp] theorem schedulerFetch_devReady (s : State) : (schedulerFetch s).devReady = s.devReady := by
  unfold schedulerFetch; split
  · split <;> rfl
  · rfl

@[simp] theorem schedulerFetch_inputs (s : State) : (schedulerFetch s).inputs = s.inputs := by
  unfold schedulerFetch; split
  · split <;> rfl
  · rfl

@[simp] theorem controlStep_params (s : State) : (controlStep s).params = s.params := by
  unfold controlStep; split <;> simp [schedulerStep]

@[simp] theorem controlStep_running (s : State) : (controlStep s).running = s.running := by
  unfold controlStep; split <;> simp [schedulerStep]

@[simp] theorem controlStep_cfg (s : State) : (controlStep s).cfg = s.cfg := by
  unfold controlStep; split <;> simp [schedulerStep]

@[simp] theorem controlStep_live (s : State) : (controlStep s).live = s.live := by
  unfold controlStep; split <;> simp [schedulerStep]

@[simp] theorem controlStep_err (s : State) : (controlStep s).err = s.err := by
  unfold controlStep; split <;> simp [schedulerStep]

@[simp] theorem controlStep_pipe (s : State) : (controlStep s).pipe = s.pipe := by
  unfold controlStep; split <;> simp [schedulerStep]

@[simp] theorem controlStep_out (s : State) : (controlStep s).out = s.out := by
  unfold controlStep; split <;> simp [schedulerStep]

@[simp] theorem controlStep_devReady (s : State) : (controlStep s).devReady = s.devReady := by
  unfold controlStep; split <;> simp [schedulerStep]

@[simp] theorem controlStep_inputs (s : State) : (controlStep s).inputs = s.inputs := by
  unfold controlStep; split <;> simp [schedulerStep]

@[simp] theorem beforeSample_params (s : State) : (beforeSample s).params = s.params := by
  simp [beforeSample]

@[simp] theorem beforeSample_running (s : State) : (beforeSample s).running = s.running := by
  simp [beforeSample]

@[simp] theorem beforeSample_cfg (s : State) : (beforeSample s).cfg = s.cfg := by
  simp [beforeSample]

@[simp] theorem beforeSample_live (s : State) : (beforeSample s).live = s.live := by
  simp [beforeSample]

@[simp] theorem beforeSample_err (s : State) : (beforeSample s).err = s.err := by
  simp [beforeSample]

@[simp] theorem beforeSample_pipe (s : State) : (beforeSample s).pipe = s.pipe := by
  simp [beforeSample]

@[simp] theorem beforeSample_out (s : State) : (beforeSample s).out = s.out := by
  simp [beforeSample]

@[simp] theorem beforeSample_devReady (s : State) : (beforeSample s).devReady = s.devReady := by
  simp [beforeSample]

@[simp] theorem beforeSample_inputs (s : State) : (beforeSample s).inputs = s.inputs := by
  simp [beforeSample]

end Sys2Proof.Machine
end

