-- ==== Sys2Proof/Laws/Ops.lean ====
section
/-! SUPPORT. What each shared operation can do, said once: the checks of a write, a sequence of actions, a pool access, the
agents' actions, and a step. -/

namespace Sys2Proof.Machine

/-! ### Sequences of actions -/

@[simp] theorem andThen_next (s : State) (f : State → Result) : andThen (.next s) f = f s := rfl

theorem andThen_eq_next {o : Result} {f : State → Result} {t : State} :
    andThen o f = .next t ↔ ∃ s, o = .next s ∧ f s = .next t := by
  cases o <;> simp [andThen]

theorem andThen_completes {o : Result} {f : State → Result} {s : State} (h : o = .next s) :
    Completes (andThen o f) ↔ Completes (f s) := by
  subst h; rfl

/-! ### The checks of a write -/

theorem unlessBusy_cases (a : RegAddr) (s t : State) :
    (s.running = true ∧ unlessBusy a s t = hostError true a .busy s) ∨
      (s.running = false ∧ unlessBusy a s t = t) := by
  unfold unlessBusy
  cases h : s.running <;> simp

theorem unlessBusy_stopped {a : RegAddr} {s t : State} (h : s.running = false) : unlessBusy a s t = t := by
  simp [unlessBusy, h]

theorem unlessBusy_running {a : RegAddr} {s t : State} (h : s.running = true) :
    unlessBusy a s t = hostError true a .busy s := by
  simp [unlessBusy, h]

theorem ifStreaming_cases (m : OpMode) (a : RegAddr) (s t : State) :
    (s.cfg.mode ≠ m ∧ ifStreaming m a s t = hostError true a .mode s) ∨
      (s.cfg.mode = m ∧ s.running = false ∧ ifStreaming m a s t = hostError true a .notRunning s) ∨
      (s.cfg.mode = m ∧ s.running = true ∧ ifStreaming m a s t = t) := by
  unfold ifStreaming
  by_cases hm : s.cfg.mode = m
  · cases h : s.running <;> simp [hm]
  · simp [hm]

theorem ifStreaming_run {m : OpMode} {a : RegAddr} {s t : State} (hm : s.cfg.mode = m) (h : s.running = true) :
    ifStreaming m a s t = t := by
  simp [ifStreaming, hm, h]

theorem ifInRange_cases (l : Bool) (a : RegAddr) (s t : State) :
    (l = true ∧ ifInRange l a s t = t) ∨ (l = false ∧ ifInRange l a s t = hostError true a .range s) := by
  cases l <;> simp [ifInRange]

theorem ifInRange_legal {l : Bool} {a : RegAddr} {s t : State} (h : l = true) : ifInRange l a s t = t := by
  simp [ifInRange, h]

theorem ifListed_cases {α : Type} (c : Option α) (a : RegAddr) (s : State) (t : α → State) :
    (∃ x, c = some x ∧ ifListed c a s t = t x) ∨
      (c = none ∧ ifListed c a s t = hostError true a .reservedValue s) := by
  cases c <;> simp [ifListed]

theorem ifListed_some {α : Type} {c : Option α} {x : α} {a : RegAddr} {s : State} {t : α → State} (h : c = some x) :
    ifListed c a s t = t x := by
  subst h; rfl

theorem ifListed_none {α : Type} {c : Option α} {a : RegAddr} {s : State} {t : α → State} (h : c = none) :
    ifListed c a s t = hostError true a .reservedValue s := by
  subst h; rfl

/-! ### The pool -/

theorem bufWrite_eq_next {i j : Nat} {v : F64} {s t : State} :
    bufWrite i j v s = .next t ↔
      (i < s.cfg.bufCount.toNat ∧ j < s.cfg.bufSize.toNat) ∧
        t = { s with pipe.pool := s.pipe.pool.write (poolAddr s i j) v } := by
  unfold bufWrite
  split
  · rename_i h; simp [h, eq_comm]
  · rename_i h; simp [h]

theorem bufRead_eq_some {i : Nat} {s : State} {b : SampleBuf} :
    bufRead i s = some b ↔
      i < s.cfg.bufCount.toNat ∧
        b = ⟨s.cfg.bufSize.toNat, s.pipe.pool.slice (poolAddr s i 0) s.cfg.bufSize.toNat⟩ := by
  unfold bufRead
  split
  · rename_i h; simp [h, eq_comm]
  · rename_i h; simp [h]

/-- Sample `j` of a popped buffer is the pool's word `i · BUF_SIZE + j` (00_scope.md R12, 20_memory.md R61). -/
theorem bufRead_sample {i j : Nat} {s : State} {b : SampleBuf} (h : bufRead i s = some b)
    (hj : j < s.cfg.bufSize.toNat) : b.sample j = s.pipe.pool.read (poolAddr s i j) := by
  obtain ⟨-, rfl⟩ := bufRead_eq_some.1 h
  unfold SampleBuf.sample
  rw [Memory.read_slice, if_pos hj]
  rfl

@[simp] theorem silence_sample (n j : Nat) : (silence n).sample j = 0#64 := rfl

@[simp] theorem silence_len (n : Nat) : (silence n).len = n := rfl

/-- Distinct positions of the pool have distinct addresses. -/
theorem poolAddr_inj {s : State} {i j i' j' : Nat} (hj : j < s.cfg.bufSize.toNat) (hj' : j' < s.cfg.bufSize.toNat)
    (h : poolAddr s i j = poolAddr s i' j') : i = i' ∧ j = j' := by
  unfold poolAddr at h
  generalize s.cfg.bufSize.toNat = n at *
  have hn : 0 < n := by omega
  have h1 := congrArg (· / n) h
  have h2 := congrArg (· % n) h
  simp only [Nat.mul_comm _ n, Nat.mul_add_mod, Nat.mod_eq_of_lt hj, Nat.mod_eq_of_lt hj', Nat.mul_add_div hn,
    Nat.div_eq_of_lt hj, Nat.div_eq_of_lt hj'] at h1 h2
  exact ⟨by omega, h2⟩

/-! ### The producer and the consumer -/

/-- What a sample step does when it completes (46_pipeline.md R232). -/
theorem sampleStep_eq_next {s t : State} :
    sampleStep s = .next t ↔
      ((beforeSample s).pipe.fillIdx.toNat < s.cfg.bufCount.toNat ∧
          (beforeSample s).pipe.fillPos.toNat < s.cfg.bufSize.toNat) ∧
        t = phaseAdvance { beforeSample s with
          pipe.pool := (beforeSample s).pipe.pool.write
            (poolAddr s s.pipe.fillIdx.toNat s.pipe.fillPos.toNat) (oscOut (beforeSample s)),
          pipe.fillPos := s.pipe.fillPos + 1#32 } := by
  unfold sampleStep
  rw [andThen_eq_next]
  simp only [bufWrite_eq_next, beforeSample_cfg, beforeSample_pipe, poolAddr]
  constructor
  · rintro ⟨u, ⟨h, rfl⟩, h2⟩
    exact ⟨h, by injection h2 with h2; exact h2.symm⟩
  · rintro ⟨h, rfl⟩
    exact ⟨_, ⟨h, rfl⟩, rfl⟩

/-- The producer's one action in a cycle (46_pipeline.md R231, R234). -/
theorem producerAct_cases (s : State) :
    (s.running = false ∧ producerAct s = .next s) ∨
      (s.running = true ∧ s.pipe.fillPos.toNat < s.cfg.bufSize.toNat ∧ producerAct s = sampleStep s) ∨
      (s.running = true ∧ s.cfg.bufSize.toNat ≤ s.pipe.fillPos.toNat ∧
        s.pipe.ready.length + 1 < s.cfg.bufCount.toNat ∧ producerAct s = .next (publish s)) ∨
      (s.running = true ∧ s.cfg.bufSize.toNat ≤ s.pipe.fillPos.toNat ∧
        s.cfg.bufCount.toNat ≤ s.pipe.ready.length + 1 ∧ producerAct s = .next s) := by
  unfold producerAct
  cases h : s.running
  · simp
  · by_cases h1 : s.pipe.fillPos.toNat < s.cfg.bufSize.toNat
    · simp [h1]
    · by_cases h2 : s.pipe.ready.length + 1 < s.cfg.bufCount.toNat
      · simp [h1, h2, Nat.le_of_not_lt h1]
      · simp [h1, h2, Nat.le_of_not_lt h1, Nat.le_of_not_lt h2]

/-- A POP (46_pipeline.md R235 to R237). -/
theorem consumerPop_cases (s : State) :
    (s.running = false ∧ consumerPop s = .next s) ∨
      (s.running = true ∧ s.pipe.ready = [] ∧ consumerPop s = .next (underrunPop s)) ∨
      (∃ i rest, s.running = true ∧ s.pipe.ready = i :: rest ∧ s.cfg.bufCount.toNat ≤ i.toNat ∧
        consumerPop s = .fault .poolAddress) ∨
      (∃ i rest b, s.running = true ∧ s.pipe.ready = i :: rest ∧ bufRead i.toNat s = some b ∧
        consumerPop s = .next { s with
          pipe.ready := rest, pipe.outBuf := b, out.frameValid := true, out.underrun := false }) := by
  unfold consumerPop
  cases h : s.running
  · simp
  · cases hr : s.pipe.ready with
    | nil => simp
    | cons i rest =>
      by_cases hi : i.toNat < s.cfg.bufCount.toNat
      · simp [bufRead, hi]
      · simp [bufRead, hi, Nat.le_of_not_lt hi]

/-! ### A step -/

theorem step_reset {s : State} (h : (nextInputs s).rst = true) : step s = .next (resetCycle s) := by
  simp [step, h]

theorem step_cycle {s : State} (h : (nextInputs s).rst = false) : step s = cycle (nextInputs s) (beginCycle s) := by
  simp [step, h]

@[simp] theorem nextInputs_presentWord (t : Bus73) (s : State) :
    nextInputs (presentWord t s) = { nextInputs s with rst := false, host := some t } := rfl

/-- The three actions of a cycle that completes, in order (20_memory.md R69). -/
theorem cycle_eq_next {c : CycleInputs} {s t : State} :
    cycle c s = .next t ↔
      ∃ u v, hostAct c.host s = .next u ∧ consumerAct c.frameReq u = .next v ∧ producerAct v = .next t := by
  unfold cycle
  simp only [andThen_eq_next]
  constructor
  · rintro ⟨v, ⟨u, h1, h2⟩, h3⟩; exact ⟨u, v, h1, h2, h3⟩
  · rintro ⟨u, v, h1, h2, h3⟩; exact ⟨v, ⟨u, h1, h2⟩, h3⟩

end Sys2Proof.Machine
end

