-- ==== Sys2Proof/Laws/PerInstr.lean ====
section
/-! SUPPORT. The family `Legality`, one lemma for each operation: its row of the opcode map names an address of the register
map and a direction that the access column lets through (30_encoding.md R87, R88, R89), so no encoded operation is a
reserved address or a wrong direction. -/

namespace Sys2Proof.Laws

/-- The operation's address is in the register map, with its direction permitted. -/
def Legality.Statement (i : Instr) : Prop :=
  ∃ r, regAt? i.addr = some r ∧ r.access.permits i.isWrite = true

theorem Legality.rdId : Legality.Statement .rdId := ⟨_, rfl, rfl⟩
theorem Legality.rdStatus : Legality.Statement .rdStatus := ⟨_, rfl, rfl⟩
theorem Legality.rdErr : Legality.Statement .rdErr := ⟨_, rfl, rfl⟩
theorem Legality.clrErr : Legality.Statement .clrErr := ⟨_, rfl, rfl⟩
theorem Legality.start : Legality.Statement .start := ⟨_, rfl, rfl⟩
theorem Legality.stop : Legality.Statement .stop := ⟨_, rfl, rfl⟩
theorem Legality.rdMode : Legality.Statement .rdMode := ⟨_, rfl, rfl⟩
theorem Legality.wrMode (d : Word64) : Legality.Statement (.wrMode d) := ⟨_, rfl, rfl⟩
theorem Legality.rdSampleRate : Legality.Statement .rdSampleRate := ⟨_, rfl, rfl⟩
theorem Legality.wrSampleRate (d : Word64) : Legality.Statement (.wrSampleRate d) := ⟨_, rfl, rfl⟩
theorem Legality.rdWaveform : Legality.Statement .rdWaveform := ⟨_, rfl, rfl⟩
theorem Legality.wrWaveform (d : Word64) : Legality.Statement (.wrWaveform d) := ⟨_, rfl, rfl⟩
theorem Legality.rdFreq : Legality.Statement .rdFreq := ⟨_, rfl, rfl⟩
theorem Legality.wrFreq (d : Word64) : Legality.Statement (.wrFreq d) := ⟨_, rfl, rfl⟩
theorem Legality.rdCurFreq : Legality.Statement .rdCurFreq := ⟨_, rfl, rfl⟩
theorem Legality.rdPhase : Legality.Statement .rdPhase := ⟨_, rfl, rfl⟩
theorem Legality.rdVolume : Legality.Statement .rdVolume := ⟨_, rfl, rfl⟩
theorem Legality.wrVolume (d : Word64) : Legality.Statement (.wrVolume d) := ⟨_, rfl, rfl⟩
theorem Legality.rdEnvK1 : Legality.Statement .rdEnvK1 := ⟨_, rfl, rfl⟩
theorem Legality.wrEnvK1 (d : Word64) : Legality.Statement (.wrEnvK1 d) := ⟨_, rfl, rfl⟩
theorem Legality.rdEnvK2 : Legality.Statement .rdEnvK2 := ⟨_, rfl, rfl⟩
theorem Legality.wrEnvK2 (d : Word64) : Legality.Statement (.wrEnvK2 d) := ⟨_, rfl, rfl⟩
theorem Legality.rdCurVolume : Legality.Statement .rdCurVolume := ⟨_, rfl, rfl⟩
theorem Legality.activate : Legality.Statement .activate := ⟨_, rfl, rfl⟩
theorem Legality.deactivate : Legality.Statement .deactivate := ⟨_, rfl, rfl⟩
theorem Legality.rdFreqRaiseRate : Legality.Statement .rdFreqRaiseRate := ⟨_, rfl, rfl⟩
theorem Legality.wrFreqRaiseRate (d : Word64) : Legality.Statement (.wrFreqRaiseRate d) := ⟨_, rfl, rfl⟩
theorem Legality.rdVolRaiseRate : Legality.Statement .rdVolRaiseRate := ⟨_, rfl, rfl⟩
theorem Legality.wrVolRaiseRate (d : Word64) : Legality.Statement (.wrVolRaiseRate d) := ⟨_, rfl, rfl⟩
theorem Legality.rdHoldDuration : Legality.Statement .rdHoldDuration := ⟨_, rfl, rfl⟩
theorem Legality.wrHoldDuration (d : Word64) : Legality.Statement (.wrHoldDuration d) := ⟨_, rfl, rfl⟩
theorem Legality.rdTimeInCycle : Legality.Statement .rdTimeInCycle := ⟨_, rfl, rfl⟩
theorem Legality.rdVolumeFactor : Legality.Statement .rdVolumeFactor := ⟨_, rfl, rfl⟩
theorem Legality.txByte (d : Word64) : Legality.Statement (.txByte d) := ⟨_, rfl, rfl⟩
theorem Legality.txCommit : Legality.Statement .txCommit := ⟨_, rfl, rfl⟩
theorem Legality.txAbort : Legality.Statement .txAbort := ⟨_, rfl, rfl⟩
theorem Legality.rdSymqFree : Legality.Statement .rdSymqFree := ⟨_, rfl, rfl⟩
theorem Legality.rdDataBits : Legality.Statement .rdDataBits := ⟨_, rfl, rfl⟩
theorem Legality.wrDataBits (d : Word64) : Legality.Statement (.wrDataBits d) := ⟨_, rfl, rfl⟩
theorem Legality.rdParity : Legality.Statement .rdParity := ⟨_, rfl, rfl⟩
theorem Legality.wrParity (d : Word64) : Legality.Statement (.wrParity d) := ⟨_, rfl, rfl⟩
theorem Legality.rdStopBits : Legality.Statement .rdStopBits := ⟨_, rfl, rfl⟩
theorem Legality.wrStopBits (d : Word64) : Legality.Statement (.wrStopBits d) := ⟨_, rfl, rfl⟩
theorem Legality.rdMarkFreq : Legality.Statement .rdMarkFreq := ⟨_, rfl, rfl⟩
theorem Legality.wrMarkFreq (d : Word64) : Legality.Statement (.wrMarkFreq d) := ⟨_, rfl, rfl⟩
theorem Legality.rdSpaceFreq : Legality.Statement .rdSpaceFreq := ⟨_, rfl, rfl⟩
theorem Legality.wrSpaceFreq (d : Word64) : Legality.Statement (.wrSpaceFreq d) := ⟨_, rfl, rfl⟩
theorem Legality.rdBaud : Legality.Statement .rdBaud := ⟨_, rfl, rfl⟩
theorem Legality.wrBaud (d : Word64) : Legality.Statement (.wrBaud d) := ⟨_, rfl, rfl⟩
theorem Legality.rdIdleFreq : Legality.Statement .rdIdleFreq := ⟨_, rfl, rfl⟩
theorem Legality.wrIdleFreq (d : Word64) : Legality.Statement (.wrIdleFreq d) := ⟨_, rfl, rfl⟩
theorem Legality.rdWaitSamples : Legality.Statement .rdWaitSamples := ⟨_, rfl, rfl⟩
theorem Legality.rdCarriedErr : Legality.Statement .rdCarriedErr := ⟨_, rfl, rfl⟩
theorem Legality.rdBufSize : Legality.Statement .rdBufSize := ⟨_, rfl, rfl⟩
theorem Legality.wrBufSize (d : Word64) : Legality.Statement (.wrBufSize d) := ⟨_, rfl, rfl⟩
theorem Legality.rdBufCount : Legality.Statement .rdBufCount := ⟨_, rfl, rfl⟩
theorem Legality.wrBufCount (d : Word64) : Legality.Statement (.wrBufCount d) := ⟨_, rfl, rfl⟩
theorem Legality.rdUnderrunCount : Legality.Statement .rdUnderrunCount := ⟨_, rfl, rfl⟩
theorem Legality.rdFillPos : Legality.Statement .rdFillPos := ⟨_, rfl, rfl⟩

end Sys2Proof.Laws
end

