-- ==== Sys2Proof/Laws/Sine.lean ====
section
/-! SUPPORT. How near the fixed-point sine of Machine/Sine.lean is to the mathematical one, and that rounding a magnitude gives
the nearest binary64 magnitude. -/

namespace Sys2Proof.Machine

/-! ### Fixed-point complex numbers -/

theorem fixedOne_pos : (0 : ℝ) < (fixedOne : ℝ) := by
  unfold fixedOne; positivity

/-- The complex number that a fixed-point pair stands for. -/
noncomputable def fixedC (z : Int × Int) : ℂ := ⟨(z.1 : ℝ) / fixedOne, (z.2 : ℝ) / fixedOne⟩

/-- A floored quotient is within one of the exact one. -/
theorem ediv_error (a : Int) {d : Nat} (hd : 0 < d) : |((a / (d : Int) : Int) : ℝ) - (a : ℝ) / d| ≤ 1 := by
  have hd' : (0 : ℝ) < d := by exact_mod_cast hd
  have h1 := Int.emod_add_mul_ediv a d
  have h2 := Int.emod_nonneg a (show (d : Int) ≠ 0 by omega)
  have h3 := Int.emod_lt_of_pos a (show (0 : Int) < d by omega)
  have e1 : (a : ℝ) = ((a % (d : Int) : Int) : ℝ) + (d : ℝ) * ((a / (d : Int) : Int) : ℝ) := by exact_mod_cast h1.symm
  have e2 : (0 : ℝ) ≤ ((a % (d : Int) : Int) : ℝ) := by exact_mod_cast h2
  have e3 : ((a % (d : Int) : Int) : ℝ) < d := by exact_mod_cast h3
  have e4 : (a : ℝ) / d = ((a % (d : Int) : Int) : ℝ) / d + ((a / (d : Int) : Int) : ℝ) := by
    rw [e1, add_div, mul_div_cancel_left₀ _ hd'.ne']
  rw [e4, abs_le]
  have e5 : 0 ≤ ((a % (d : Int) : Int) : ℝ) / d := by positivity
  have e6 : ((a % (d : Int) : Int) : ℝ) / d ≤ 1 := by rw [div_le_one hd']; exact e3.le
  constructor <;> linarith

/-- Two complex numbers whose parts are each within `e` of one another. -/
theorem norm_sub_le_of_parts {a b : ℂ} {e : ℝ} (h1 : |a.re - b.re| ≤ e) (h2 : |a.im - b.im| ≤ e) : ‖a - b‖ ≤ 2 * e := by
  have h := Complex.norm_le_abs_re_add_abs_im (a - b)
  rw [Complex.sub_re, Complex.sub_im] at h
  linarith

/-! ### The exponential series -/

/-- Horner's form of the exponential series, exactly. -/
noncomputable def hornerC (z : ℂ) (n j : Nat) : ℂ :=
  match n with
  | 0 => 1
  | k + 1 => 1 + z / j * hornerC z k (j + 1)

theorem hornerC_eq_sum (z : ℂ) (n j : Nat) (hj : 0 < j) :
    hornerC z n j = ∑ m ∈ Finset.range (n + 1), z ^ m / (j.ascFactorial m : ℂ) := by
  induction n generalizing j with
  | zero => simp [hornerC]
  | succ k ih =>
    rw [hornerC, ih (j + 1) (by omega), Finset.sum_range_succ' _ (k + 1), Finset.mul_sum, add_comm]
    congr 1
    · refine Finset.sum_congr rfl fun m _ => ?_
      have hm : j.ascFactorial (m + 1) = j * (j + 1).ascFactorial m := by
        rw [Nat.ascFactorial_succ]; exact (Nat.succ_ascFactorial j m).symm
      rw [hm, pow_succ]
      push_cast
      have h1 : (j : ℂ) ≠ 0 := by exact_mod_cast hj.ne'
      have h2 : ((j + 1).ascFactorial m : ℂ) ≠ 0 := by exact_mod_cast (Nat.ascFactorial_pos j m).ne'
      field_simp
    · simp

/-- One step of Horner's form in fixed point. -/
theorem expSeries_step (y : Int) (k j : Nat) (hj : 0 < j) :
    ‖fixedC (expSeries y (k + 1) j) -
      (1 + (⟨0, (y : ℝ) / fixedOne⟩ : ℂ) / j * fixedC (expSeries y k (j + 1)))‖ ≤ 2 / fixedOne := by
  have hO := fixedOne_pos
  have hj' : (0 : ℝ) < j := by exact_mod_cast hj
  have hd : 0 < j * fixedOne := Nat.mul_pos hj (by exact_mod_cast hO)
  have part : ∀ a : Int, |((a / ((j * fixedOne : Nat) : Int) : Int) : ℝ) / fixedOne - (a : ℝ) / (j * fixedOne) / fixedOne| ≤
      1 / fixedOne := by
    intro a
    have h := ediv_error a hd
    rw [← sub_div, abs_div, abs_of_pos hO]
    rw [Nat.cast_mul (α := ℝ)] at h
    exact div_le_div_of_nonneg_right h hO.le
  rw [expSeries]
  generalize expSeries y k (j + 1) = z
  have hb : (1 + (⟨0, (y : ℝ) / fixedOne⟩ : ℂ) / j * fixedC z) =
      ⟨1 - (y * z.2 : ℝ) / (j * fixedOne) / fixedOne, (y * z.1 : ℝ) / (j * fixedOne) / fixedOne⟩ := by
    apply Complex.ext <;> simp [fixedC, Complex.div_natCast_re, Complex.div_natCast_im] <;> (field_simp; try ring)
  rw [hb, show (2 : ℝ) / fixedOne = 2 * (1 / fixedOne) by ring]
  refine norm_sub_le_of_parts ?_ ?_
  · have h := part (y * z.2)
    simp only [fixedC]
    push_cast at h ⊢
    rw [sub_div, div_self hO.ne', abs_sub_comm]
    rw [abs_le] at *
    constructor <;> linarith
  · have h := part (y * z.1)
    simpa [fixedC] using h


/-- One term of the error of Horner's form: halved from the second term on. -/
theorem expSeries_error_step {y : Int} (h : ‖(⟨0, (y : ℝ) / fixedOne⟩ : ℂ)‖ ≤ 1) (k j : Nat) (hj : 0 < j) {e : ℝ}
    (ih : ‖fixedC (expSeries y k (j + 1)) - hornerC ⟨0, (y : ℝ) / fixedOne⟩ k (j + 1)‖ ≤ e) :
    ‖fixedC (expSeries y (k + 1) j) - hornerC ⟨0, (y : ℝ) / fixedOne⟩ (k + 1) j‖ ≤ 2 / fixedOne + e / j := by
  have hj' : (0 : ℝ) < j := by exact_mod_cast hj
  have h1 := expSeries_step y k j hj
  have h2 : ‖(⟨0, (y : ℝ) / fixedOne⟩ : ℂ) / j * (fixedC (expSeries y k (j + 1)) -
      hornerC ⟨0, (y : ℝ) / fixedOne⟩ k (j + 1))‖ ≤ e / j := by
    rw [norm_mul, norm_div, Complex.norm_natCast, div_mul_eq_mul_div]
    refine div_le_div_of_nonneg_right ?_ hj'.le
    calc _ ≤ 1 * e := mul_le_mul h ih (norm_nonneg _) zero_le_one
      _ = e := one_mul e
  refine le_trans (le_of_eq ?_) (le_trans (norm_add_le _ _) (add_le_add h1 h2))
  rw [hornerC]
  congr 1
  ring

/-- The error of Horner's form in fixed point, from the second term on. -/
theorem expSeries_error {y : Int} (h : ‖(⟨0, (y : ℝ) / fixedOne⟩ : ℂ)‖ ≤ 1) (n j : Nat) (hj : 2 ≤ j) :
    ‖fixedC (expSeries y n j) - hornerC ⟨0, (y : ℝ) / fixedOne⟩ n j‖ ≤ 4 / fixedOne := by
  have hO := fixedOne_pos
  induction n generalizing j with
  | zero =>
    have : fixedC (expSeries y 0 j) - hornerC ⟨0, (y : ℝ) / fixedOne⟩ 0 j = 0 := by
      apply Complex.ext <;> simp [fixedC, expSeries, hornerC, hO.ne']
    rw [this, norm_zero]; positivity
  | succ k ih =>
    have hj' : (2 : ℝ) ≤ j := by exact_mod_cast hj
    refine le_trans (expSeries_error_step h k j (by omega) (ih (j + 1) (by omega))) ?_
    have : 4 / (fixedOne : ℝ) / j ≤ 4 / (fixedOne : ℝ) / 2 := div_le_div_of_nonneg_left (by positivity) (by norm_num) hj'
    have e : 4 / (fixedOne : ℝ) / 2 = 2 / fixedOne := by ring
    have e' : 4 / (fixedOne : ℝ) = 2 / fixedOne + 2 / fixedOne := by ring
    rw [e] at this; linarith

theorem factorial_large : 2 ^ 2401 ≤ Nat.factorial 401 := by decide +kernel

/-- The exponential series of 401 terms in fixed point is within 7 units of the exponential. -/
theorem expSeries_exp {y : Int} (h : ‖(⟨0, (y : ℝ) / fixedOne⟩ : ℂ)‖ ≤ 1) :
    ‖fixedC (expSeries y 400 1) - Complex.exp ⟨0, (y : ℝ) / fixedOne⟩‖ ≤ 7 / fixedOne := by
  have hO := fixedOne_pos
  have h1 := expSeries_error_step h 399 1 (by norm_num) (expSeries_error h 399 2 (by norm_num))
  have h2 := Complex.exp_bound h (n := 401) (by norm_num)
  rw [hornerC_eq_sum _ _ _ (by norm_num)] at h1
  simp only [Nat.one_ascFactorial, Nat.cast_one, div_one, Nat.reduceAdd] at h1
  rw [norm_sub_rev] at h2
  have h3 : ‖(⟨0, (y : ℝ) / fixedOne⟩ : ℂ)‖ ^ 401 * ((401 : ℕ).succ * ((401 : ℕ).factorial * (401 : ℕ) : ℝ)⁻¹) ≤
      1 / fixedOne := by
    have hf : (2 : ℝ) * fixedOne ≤ (401 : ℕ).factorial := by
      have := factorial_large
      have e : (2 : Nat) ^ 2401 = 2 * fixedOne := by unfold fixedOne; rw [← pow_succ']
      rw [e] at this
      exact_mod_cast this
    generalize ((401 : ℕ).factorial : ℝ) = F at *
    have hp := pow_le_one₀ (norm_nonneg (⟨0, (y : ℝ) / fixedOne⟩ : ℂ)) h (n := 401)
    have hF : 0 < F := by linarith
    have hc : (((401 : ℕ).succ : ℝ) * (F * (401 : ℕ))⁻¹) ≤ 1 / fixedOne := by
      rw [← div_eq_mul_inv, div_le_div_iff₀ (by positivity) hO]
      push_cast
      nlinarith
    calc _ ≤ 1 * (((401 : ℕ).succ : ℝ) * (F * (401 : ℕ))⁻¹) := mul_le_mul_of_nonneg_right hp (by positivity)
      _ ≤ _ := by rw [one_mul]; exact hc
  have h4 := norm_sub_le_norm_sub_add_norm_sub (fixedC (expSeries y 400 1))
    (∑ m ∈ Finset.range 401, (⟨0, (y : ℝ) / fixedOne⟩ : ℂ) ^ m / (m.factorial : ℂ)) (Complex.exp ⟨0, (y : ℝ) / fixedOne⟩)
  have e : (7 : ℝ) / fixedOne = 2 / fixedOne + 4 / fixedOne + 1 / fixedOne := by ring
  rw [e]
  exact h4.trans (add_le_add h1 (h2.trans h3))

/-! ### Squaring -/

/-- One squaring in fixed point, near a point of the unit circle. -/
theorem fixedSquare_error {z : Int × Int} {w : ℂ} {b : ℝ} (hw : ‖w‖ = 1) (hb : 0 ≤ b) (hs : b * b ≤ fixedOne)
    (h : ‖fixedC z - w‖ ≤ b / fixedOne) : ‖fixedC (fixedSquare z) - w ^ 2‖ ≤ (2 * b + 3) / fixedOne := by
  have hO := fixedOne_pos
  have hd : 0 < fixedOne := by exact_mod_cast hO
  have part : ∀ a : Int, |((a / (fixedOne : Int) : Int) : ℝ) / fixedOne - (a : ℝ) / fixedOne / fixedOne| ≤ 1 / fixedOne := by
    intro a
    rw [← sub_div, abs_div, abs_of_pos hO]
    exact div_le_div_of_nonneg_right (ediv_error a hd) hO.le
  have h1 : ‖fixedC (fixedSquare z) - fixedC z ^ 2‖ ≤ 2 * (1 / fixedOne) := by
    refine norm_sub_le_of_parts ?_ ?_
    · have := part (z.1 * z.1 - z.2 * z.2)
      have e : (fixedC z ^ 2).re = ((z.1 * z.1 - z.2 * z.2 : Int) : ℝ) / fixedOne / fixedOne := by
        simp [fixedC, pow_two, Complex.mul_re]; field_simp
      rw [e]; exact this
    · have := part (2 * z.1 * z.2)
      have e : (fixedC z ^ 2).im = ((2 * z.1 * z.2 : Int) : ℝ) / fixedOne / fixedOne := by
        simp [fixedC, pow_two, Complex.mul_im]; field_simp; ring
      rw [e]; exact this
  have h2 : ‖fixedC z + w‖ ≤ 2 + b / fixedOne := by
    have e : fixedC z + w = (fixedC z - w) + 2 * w := by ring
    have := norm_add_le (fixedC z - w) (2 * w)
    rw [← e, norm_mul, hw] at this
    simp only [Complex.norm_ofNat, mul_one] at this
    linarith
  have h3 : ‖fixedC z ^ 2 - w ^ 2‖ ≤ (2 * b + 1) / fixedOne := by
    rw [sq_sub_sq, norm_mul, mul_comm]
    refine le_trans (mul_le_mul h h2 (norm_nonneg _) (by positivity)) ?_
    have e : b / fixedOne * (2 + b / fixedOne) = (2 * b + b * b / fixedOne) / fixedOne := by field_simp
    rw [e]
    have : b * b / fixedOne ≤ 1 := by rw [div_le_one hO]; exact hs
    exact div_le_div_of_nonneg_right (by linarith) hO.le
  have h4 := norm_sub_le_norm_sub_add_norm_sub (fixedC (fixedSquare z)) (fixedC z ^ 2) (w ^ 2)
  have e : (2 * b + 3) / (fixedOne : ℝ) = 2 * (1 / fixedOne) + (2 * b + 1) / fixedOne := by ring
  rw [e]
  exact h4.trans (add_le_add h1 h3)

/-- `k` squarings in fixed point, near a point of the unit circle. -/
theorem fixedSquares_error (k : Nat) {z : Int × Int} {w : ℂ} {b : ℝ} (hw : ‖w‖ = 1) (hb : 0 ≤ b)
    (hs : (2 ^ k * (b + 3)) * (2 ^ k * (b + 3)) ≤ fixedOne) (h : ‖fixedC z - w‖ ≤ b / fixedOne) :
    ‖fixedC (fixedSquares k z) - w ^ (2 ^ k)‖ ≤ (2 ^ k * (b + 3)) / fixedOne := by
  have hO := fixedOne_pos
  induction k generalizing z w b with
  | zero =>
    rw [fixedSquares, pow_zero, pow_one, pow_zero, one_mul]
    exact h.trans (div_le_div_of_nonneg_right (by linarith) hO.le)
  | succ n ih =>
    have e : (2 : ℝ) ^ n * ((2 * b + 3) + 3) = 2 ^ (n + 1) * (b + 3) := by ring
    have hbb : b * b ≤ fixedOne := by
      refine le_trans ?_ hs
      have : b ≤ 2 ^ (n + 1) * (b + 3) := by nlinarith [one_le_pow₀ (show (1 : ℝ) ≤ 2 by norm_num) (n := n + 1)]
      exact mul_le_mul this this hb (by positivity)
    have := ih (w := w ^ 2) (b := 2 * b + 3) (by rw [norm_pow, hw, one_pow]) (by linarith) (by rw [e]; exact hs)
      (fixedSquare_error hw hb hbb h)
    rw [e, ← pow_mul, ← pow_succ'] at this
    exact this

/-! ### The sine -/

theorem fixedOne_real : (fixedOne : ℝ) = 2 ^ 2400 := by
  unfold fixedOne; rw [Nat.cast_pow, Nat.cast_ofNat]

/-- The error bound of `k` squarings stays below the square root of a unit. -/
theorem halvings_small {k : Nat} (hk : k ≤ 1024) : ((2 : ℝ) ^ k * (7 + 3)) * (2 ^ k * (7 + 3)) ≤ fixedOne := by
  have h1 : (2 : ℝ) ^ k * 2 ^ k * 2 ^ 8 ≤ fixedOne := by
    rw [fixedOne_real, ← pow_add, ← pow_add]
    exact pow_le_pow_right₀ one_le_two (by omega)
  have h2 : (0 : ℝ) < 2 ^ k := by positivity
  nlinarith [mul_pos h2 h2]

/-- The fixed-point sine of an angle `t`, from its `2^k`-th part. -/
theorem fixedSquares_sin {k : Nat} {y : Int} {t : ℝ} (hk : k ≤ 1024) (hy : (y : ℝ) / fixedOne = t / 2 ^ k) (h0 : 0 ≤ t)
    (h1 : t ≤ 2 ^ k) :
    |((fixedSquares k (expSeries y 400 1)).2 : ℝ) - Real.sin t * fixedOne| ≤ 2 ^ (k + 4) := by
  have hO := fixedOne_pos
  have hp : (0 : ℝ) < 2 ^ k := by positivity
  have eI : (⟨0, (y : ℝ) / fixedOne⟩ : ℂ) = (((y : ℝ) / fixedOne : ℝ) : ℂ) * Complex.I := by
    apply Complex.ext <;> simp
  have hY : ‖(⟨0, (y : ℝ) / fixedOne⟩ : ℂ)‖ ≤ 1 := by
    rw [eI, norm_mul, Complex.norm_I, mul_one, Complex.norm_real, Real.norm_eq_abs, hy,
      abs_of_nonneg (div_nonneg h0 hp.le), div_le_one hp]
    exact h1
  have hn : ‖Complex.exp ⟨0, (y : ℝ) / fixedOne⟩‖ = 1 := by rw [eI]; exact Complex.norm_exp_ofReal_mul_I _
  have h2 := fixedSquares_error k hn (by norm_num) (halvings_small hk) (expSeries_exp hY)
  have e3 : Complex.exp ⟨0, (y : ℝ) / fixedOne⟩ ^ (2 ^ k) = Complex.exp ((t : ℂ) * Complex.I) := by
    rw [← Complex.exp_nat_mul, eI, hy]
    congr 1
    have hc : (2 : ℂ) ^ k ≠ 0 := pow_ne_zero _ two_ne_zero
    push_cast
    field_simp
  rw [e3] at h2
  have h3 := (Complex.abs_im_le_norm _).trans h2
  rw [Complex.sub_im, Complex.exp_ofReal_mul_I_im] at h3
  simp only [fixedC] at h3
  rw [div_sub' hO.ne', abs_div, abs_of_pos hO, div_le_div_iff_of_pos_right hO, mul_comm (fixedOne : ℝ)] at h3
  refine h3.trans ?_
  rw [pow_add]
  nlinarith

theorem sinHalvings_le {m : Nat} (h : m < 2 ^ 2098) : sinHalvings m ≤ 1024 := by
  unfold sinHalvings
  by_cases h0 : m = 0
  · rw [h0, Nat.log2_zero]; omega
  · have := (Nat.log2_lt h0).2 h
    omega

/-- The fixed-point sine is within `sinError` units of the sine. -/
theorem sinFixed_error {m : Nat} (h : m < 2 ^ 2098) :
    |(sinFixed m : ℝ) - Real.sin ((m : ℝ) / 2 ^ 1074) * fixedOne| ≤ sinError m := by
  have hk := sinHalvings_le h
  clear h
  have hm : m < 2 ^ (1074 + sinHalvings m) :=
    lt_of_lt_of_le Nat.lt_log2_self (Nat.pow_le_pow_right (by norm_num) (by unfold sinHalvings; omega))
  have hU : (0 : ℝ) < 2 ^ 1074 := pow_pos two_pos _
  unfold sinFixed sinError
  rw [Nat.cast_pow, Nat.cast_ofNat]
  refine fixedSquares_sin hk ?_ (div_nonneg (Nat.cast_nonneg m) hU.le) ?_
  · rw [fixedOne_real, div_div, ← pow_add, div_eq_div_iff (pow_pos two_pos _).ne' (pow_pos two_pos _).ne',
      Int.cast_natCast, Nat.cast_mul, Nat.cast_pow, Nat.cast_ofNat, mul_assoc, ← pow_add]
    rw [show 1326 - sinHalvings m + (1074 + sinHalvings m) = 2400 by omega]
  · rw [div_le_iff₀ hU, ← pow_add, Nat.add_comm]
    have h2 : (m : ℝ) < ((2 ^ (1074 + sinHalvings m) : Nat) : ℝ) := Nat.cast_lt.2 hm
    rw [Nat.cast_pow, Nat.cast_ofNat] at h2
    exact h2.le

/-! ### Rounding to the nearest -/

/-- Rounding to an integer multiple of `w` gives the nearest one. -/
theorem rneDiv_nearest {n w : Nat} (hw : 0 < w) (k : Nat) :
    |(n : ℝ) - ((rneDiv n w * w : Nat) : ℝ)| ≤ |(n : ℝ) - ((k * w : Nat) : ℝ)| := by
  obtain ⟨h1, h2⟩ := rneDiv_error (n := n) hw
  generalize rneDiv n w = r at *
  have e1 : 2 * (n : ℝ) ≤ 2 * ((r * w : Nat) : ℝ) + w := by exact_mod_cast h1
  have e2 : 2 * ((r * w : Nat) : ℝ) ≤ 2 * (n : ℝ) + w := by exact_mod_cast h2
  rcases Nat.lt_trichotomy k r with hk | hk | hk
  · have h3 : k * w + w ≤ r * w := by
      rw [← Nat.succ_mul]; exact Nat.mul_le_mul_right _ hk
    have e3 : ((k * w : Nat) : ℝ) + w ≤ ((r * w : Nat) : ℝ) := by exact_mod_cast h3
    rw [abs_le]
    have := le_abs_self ((n : ℝ) - ((k * w : Nat) : ℝ))
    constructor <;> linarith
  · rw [hk]
  · have h3 : r * w + w ≤ k * w := by
      rw [← Nat.succ_mul]; exact Nat.mul_le_mul_right _ hk
    have e3 : ((r * w : Nat) : ℝ) + w ≤ ((k * w : Nat) : ℝ) := by exact_mod_cast h3
    rw [abs_le]
    have := neg_le_abs ((n : ℝ) - ((k * w : Nat) : ℝ))
    constructor <;> linarith

/-- The value of an encoding given as an exponent unit and a mantissa, the carry to the next unit included. -/
theorem magOfBits_carry {u r : Nat} (hr : r ≤ 2 ^ 53) (hn : 1 ≤ u → 2 ^ 52 ≤ r) :
    magOfBits (u * 2 ^ 52 + r) = r * 2 ^ u := by
  unfold magOfBits
  by_cases h0 : u = 0 ∧ r < 2 ^ 52
  · rw [h0.1, if_pos (by omega)]; omega
  · have h52 : 2 ^ 52 ≤ r := by omega
    rw [if_neg (by omega)]
    by_cases hc : r = 2 ^ 53
    · rw [show (u * 2 ^ 52 + r) / 2 ^ 52 - 1 = u + 1 by omega, show (u * 2 ^ 52 + r) % 2 ^ 52 = 0 by omega, hc, pow_succ]
      ring
    · rw [show (u * 2 ^ 52 + r) / 2 ^ 52 - 1 = u by omega, show 2 ^ 52 + (u * 2 ^ 52 + r) % 2 ^ 52 = r by omega]

/-- A magnitude that does not overflow rounds to the nearest binary64 magnitude. -/
theorem roundMag_nearest {n d : Nat} (hd : 0 < d) (hf : roundMag n d < infBits) (b : Nat) :
    |(n : ℝ) - ((magOfBits (roundMag n d) * d : Nat) : ℝ)| ≤ |(n : ℝ) - ((magOfBits b * d : Nat) : ℝ)| := by
  have hw : 0 < d * 2 ^ ulpExp n d := by positivity
  have hlt := lt_ulp n hd
  have hr : rneDiv n (d * 2 ^ ulpExp n d) ≤ 2 ^ 53 := rneDiv_le hw hlt.le
  have hge : 1 ≤ ulpExp n d → 2 ^ 52 ≤ rneDiv n (d * 2 ^ ulpExp n d) := fun h => le_rneDiv hw (ulp_le h)
  have hb : roundMag n d = ulpExp n d * 2 ^ 52 + rneDiv n (d * 2 ^ ulpExp n d) := by
    rw [roundMag_eq] at hf ⊢
    omega
  have ev : magOfBits (roundMag n d) * d = rneDiv n (d * 2 ^ ulpExp n d) * (d * 2 ^ ulpExp n d) := by
    rw [hb, magOfBits_carry hr hge]; ring
  rw [ev]
  obtain ⟨u, m, -, hv, hm, -⟩ := magOfBits_split b
  rcases Nat.lt_or_ge u (ulpExp n d) with hu | hu
  · have hn := ulp_le (by omega : 1 ≤ ulpExp n d)
    have h1 := rneDiv_nearest (n := n) hw (2 ^ 52)
    have h2 : magOfBits b * d ≤ 2 ^ 52 * (d * 2 ^ ulpExp n d) := by
      obtain ⟨c, hc⟩ := Nat.exists_eq_add_of_lt hu
      rw [hv, hc, show u + c + 1 = u + (c + 1) by omega, pow_add, pow_succ]
      have h3 : 1 ≤ 2 ^ c := Nat.one_le_two_pow
      calc m * 2 ^ u * d ≤ 2 ^ 53 * (2 ^ u * d) := by rw [Nat.mul_assoc]; exact Nat.mul_le_mul_right _ hm.le
        _ ≤ 2 ^ 53 * (2 ^ u * d) * 2 ^ c := Nat.le_mul_of_pos_right _ h3
        _ = _ := by ring
    refine h1.trans ?_
    have e1 : ((2 ^ 52 * (d * 2 ^ ulpExp n d) : Nat) : ℝ) ≤ n := Nat.cast_le.2 hn
    have e2 : ((magOfBits b * d : Nat) : ℝ) ≤ ((2 ^ 52 * (d * 2 ^ ulpExp n d) : Nat) : ℝ) := Nat.cast_le.2 h2
    rw [abs_of_nonneg (by linarith), abs_of_nonneg (by linarith)]
    linarith
  · obtain ⟨c, hc⟩ := Nat.exists_eq_add_of_le hu
    have e : magOfBits b * d = m * 2 ^ c * (d * 2 ^ ulpExp n d) := by rw [hv, hc, pow_add]; ring
    rw [e]
    exact rneDiv_nearest hw _

/-! ### The enclosure -/

/-- What is nearest to both ends of an interval is nearest to each of its points. -/
theorem nearest_between {p q t b y : ℝ} (hp : p ≤ t) (hq : t ≤ q) (h1 : |p - b| ≤ |p - y|) (h2 : |q - b| ≤ |q - y|) :
    |t - b| ≤ |t - y| := by
  rw [← sq_le_sq] at *
  rcases le_total b y with h | h <;> nlinarith

theorem scaled_eq_magnitude_of_sign (x : F64) : (scaled x : ℝ) = (if signBit x then -1 else 1) * (magnitude x : ℝ) := by
  unfold scaled
  split <;> simp

/-- Changing the sign of an encoding. -/
theorem scaled_packF64 {neg : Bool} {bits : Nat} (h : bits ≤ infBits) :
    (scaled (packF64 neg bits) : ℝ) = (if neg then -1 else 1) * (magOfBits bits : ℝ) := by
  rw [scaled_eq_magnitude_of_sign, signBit_packF64 h, magnitude_packF64 h]

theorem abs_sub_magnitude_le (σ : ℝ) (hσ : σ = 1 ∨ σ = -1) {t : ℝ} (ht : 0 ≤ t) (y : F64) :
    |t - magnitude y| ≤ |σ * t - scaled y| := by
  have hm : (0 : ℝ) ≤ (magnitude y : ℝ) := Nat.cast_nonneg _
  rw [scaled_eq_magnitude_of_sign]
  generalize (magnitude y : ℝ) = m at *
  rw [← sq_le_sq]
  rcases hσ with h | h <;> subst h <;> split <;> nlinarith [mul_nonneg ht hm]

/-- The magnitudes up to 2.0 in units of 2^-2400 round to a finite value. -/
theorem roundMag_lt_infBits {n : Nat} (h : n ≤ 2 * fixedOne) : roundMag n (2 ^ 1326) < infBits := by
  have e : 2 * fixedOne = magOfBits 0x4000000000000000 * 2 ^ 1326 := by unfold fixedOne; decide +kernel
  rw [e] at h
  generalize hD : (2 : Nat) ^ 1326 = D at *
  exact lt_of_le_of_lt (roundMag_le (by rw [← hD]; exact Nat.two_pow_pos _) h) (by unfold infBits; norm_num)

theorem sign_mul_natAbs (s : Int) : (s : ℝ) = (if s < 0 then -1 else 1) * (s.natAbs : ℝ) := by
  rw [Nat.cast_natAbs, Int.cast_abs]
  split
  · next h => rw [abs_of_neg (Int.cast_lt_zero.2 h)]; ring
  · next h => rw [abs_of_nonneg (Int.cast_nonneg (not_lt.1 h))]; ring

/-- What `roundEnclosed` answers is nearest to every number within `e` of `s`. -/
theorem roundEnclosed_nearest {s : Int} {e : Nat} {r : F64} (h : roundEnclosed s e = some r)
    (hs : s.natAbs + e ≤ 2 * fixedOne) :
    isFinite r = true ∧ ∀ t : ℝ, |(s : ℝ) - t| ≤ e → ∀ y : F64,
      |t / 2 ^ 1326 - scaled r| ≤ |t / 2 ^ 1326 - scaled y| := by
  have hfin := roundMag_lt_infBits hs
  have hD : 0 < (2 : Nat) ^ 1326 := Nat.two_pow_pos _
  have hDr : (((2 : Nat) ^ 1326 : Nat) : ℝ) = 2 ^ 1326 := by rw [Nat.cast_pow, Nat.cast_ofNat]
  unfold roundEnclosed at h
  generalize (2 : Nat) ^ 1326 = D at *
  rw [← hDr]
  have hDp : (0 : ℝ) < D := Nat.cast_pos.2 hD
  clear hDr hs
  simp only at h
  split at h
  · next hc =>
    obtain ⟨he, hb⟩ := hc
    have hlo : roundMag (s.natAbs - e) D < infBits := hb ▸ hfin
    have h1 := roundMag_nearest hD hlo
    have h2 := roundMag_nearest hD hfin
    rw [hb] at h2
    generalize roundMag (s.natAbs - e) D = b at *
    obtain rfl := Option.some.inj h
    refine ⟨by rw [isFinite_packF64 hlo.le]; simpa using hlo, fun t ht y => ?_⟩
    rw [scaled_packF64 hlo.le]
    have hy1 := h1 (lowBits y)
    have hy2 := h2 (lowBits y)
    rw [← magnitude_lowBits] at hy1 hy2
    rw [Nat.cast_sub he.le] at hy1
    push_cast at hy1 hy2
    have hsa := sign_mul_natAbs s
    have he' : (e : ℝ) < (s.natAbs : ℝ) := Nat.cast_lt.2 he
    generalize (s.natAbs : ℝ) = a at *
    obtain ⟨σ, hσ, hσs, hσd⟩ : ∃ σ : ℝ, (σ = 1 ∨ σ = -1) ∧ (if s < 0 then (-1 : ℝ) else 1) = σ ∧
        (if decide (s < 0) = true then (-1 : ℝ) else 1) = σ := by
      by_cases hn : s < 0
      · exact ⟨-1, Or.inr rfl, by simp [hn], by simp [hn]⟩
      · exact ⟨1, Or.inl rfl, by simp [hn], by simp [hn]⟩
    rw [hσs] at hsa
    rw [hσd]
    have hσσ : σ * σ = 1 := by rcases hσ with h | h <;> rw [h] <;> norm_num
    rw [abs_le] at ht
    have ht' : a - e ≤ σ * t ∧ σ * t ≤ a + e := by
      rcases hσ with h | h <;> subst h <;> constructor <;> linarith [ht.1, ht.2]
    have hn := nearest_between ht'.1 ht'.2 hy1 hy2
    have hpos : 0 ≤ σ * t / D := div_nonneg (by linarith [ht'.1]) hDp.le
    have hn' : |σ * t / D - (magOfBits b : ℝ)| ≤ |σ * t / D - (magnitude y : ℝ)| := by
      have k : ∀ v : ℝ, |σ * t / D - v| = |σ * t - v * D| / D := by
        intro v
        rw [div_sub' hDp.ne', abs_div, abs_of_pos hDp, mul_comm (D : ℝ)]
      rw [k, k]
      exact div_le_div_of_nonneg_right hn hDp.le
    have e1 : |t / D - σ * (magOfBits b : ℝ)| = |σ * t / D - (magOfBits b : ℝ)| := by
      have : t / D - σ * (magOfBits b : ℝ) = σ * (σ * t / D - magOfBits b) := by
        rw [mul_sub, ← mul_div_assoc, ← mul_assoc, hσσ, one_mul]
      rw [this, abs_mul, show |σ| = 1 by rcases hσ with h | h <;> rw [h] <;> norm_num, one_mul]
    have e2 := abs_sub_magnitude_le σ hσ hpos y
    rw [← mul_div_assoc, ← mul_assoc, hσσ, one_mul] at e2
    rw [e1]
    exact hn'.trans e2
  · cases h

/-- A finite value is below 2^2098 units. -/
theorem magnitude_lt {x : F64} (h : isFinite x = true) : magnitude x < 2 ^ 2098 := by
  rw [isFinite_iff] at h
  obtain ⟨u, m, hb, hv, hm, hn⟩ := magOfBits_split (lowBits x)
  rw [magnitude_lowBits, hv]
  have hu : u ≤ 2045 := by unfold infBits at h; omega
  calc m * 2 ^ u < 2 ^ 53 * 2 ^ u := Nat.mul_lt_mul_of_pos_right hm (Nat.two_pow_pos _)
    _ = 2 ^ (53 + u) := by rw [pow_add]
    _ ≤ 2 ^ 2098 := Nat.pow_le_pow_right (by norm_num) (by omega)

/-- One, in the two units. -/
theorem fixedOne_div : (fixedOne : ℝ) / 2 ^ 1326 = 2 ^ 1074 := by
  rw [fixedOne_real, div_eq_iff (pow_pos two_pos _).ne', ← pow_add]

/-- The error bound of the fixed-point sine is at most a quarter of one. -/
theorem sinError_small {m : Nat} (h : m < 2 ^ 2098) : 4 * sinError m ≤ fixedOne := by
  have hk := sinHalvings_le h
  clear h
  unfold sinError fixedOne
  rw [show 4 = 2 ^ 2 by norm_num, ← pow_add]
  exact Nat.pow_le_pow_right (by norm_num) (by omega)

/-- The enclosure of a sine stays in [-2, 2]. -/
theorem sinFixed_le {m : Nat} (h : m < 2 ^ 2098) : (sinFixed m).natAbs + sinError m ≤ 2 * fixedOne := by
  have h1 := sinFixed_error h
  have h2 := sinError_small h
  have hO := fixedOne_pos
  clear h
  have h3 := Real.abs_sin_le_one ((m : ℝ) / 2 ^ 1074)
  generalize Real.sin ((m : ℝ) / 2 ^ 1074) = S at *
  have h4 : |S * fixedOne| ≤ fixedOne := by rw [abs_mul, abs_of_pos hO]; nlinarith
  have h5 : |(sinFixed m : ℝ)| ≤ fixedOne + sinError m := by
    have := abs_sub_abs_le_abs_sub (sinFixed m : ℝ) (S * fixedOne)
    linarith
  have h6 : ((sinFixed m).natAbs : ℝ) ≤ fixedOne + sinError m := by rwa [Nat.cast_natAbs, Int.cast_abs]
  have h7 : (sinFixed m).natAbs ≤ fixedOne + sinError m := by exact_mod_cast h6
  omega

end Sys2Proof.Machine
end

