-- ==== Sys2Proof/Tests/Slice0.lean ====
section
/-! SUPPORT. Tests. Every expected value is the one 95_test_vectors.md gives, or is written from the rule named; `witness_X`
shows inputs that meet all the hypotheses of the statement X. -/

namespace Sys2Proof.Tests

-- One theorem after another: in parallel their threads' stacks together pass the memory limit of the check.
set_option Elab.async false

open Sys2Proof Sys2Proof.Machine

/-! ### Helpers -/

/-- The state after a result, or the state given in place of a stop. -/
def orElse (o : Result) (s : State) : State :=
  match o with
  | .next t => t
  | _ => s

/-- Whether a result is a next state that meets a check. -/
def nextMeets (o : Result) (p : State → Bool) : Bool :=
  match o with
  | .next t => p t
  | _ => false

/-- A cycle that presents a word. -/
def present (s : State) (w : Bus73) : Result := step (s.withFetchWord 73 w.toNat)

/-- The word is an accepted read of a value. -/
def reads (s : State) (w : Bus73) (v : Word64) : Bool :=
  nextMeets (present s w) fun t => t.out.hostRdata == v && !t.out.hostErr && t.err == s.err

/-- The word is an accepted write, and the state after the cycle meets a check. -/
def accepts (s : State) (w : Bus73) (p : State → Bool) : Bool :=
  nextMeets (present s w) fun t => t.out.hostRdata == 0#64 && !t.out.hostErr && p t

/-- The word is rejected, with an ERR value. -/
def rejects (s : State) (w : Bus73) (e : BitVec 17) : Bool :=
  nextMeets (present s w) fun t => t.out.hostRdata == 0#64 && t.out.hostErr && t.err == e

/-- The reset state in another mode. -/
def stopped (m : OpMode) : State := { State.reset with cfg.mode := m }

/-- Right after START's own action in a mode, from the reset values. -/
def started (m : OpMode) : State := streamInit (stopped m)

/-- After the cycle of that START, which takes the first sample. -/
def running (m : OpMode) : State := orElse (producerAct (started m)) (started m)

/-- The reset state with `dev_ready` low. -/
def notReady : State := { State.reset with devReady := false }

/-- The symbols of six frames of 0x41, as the setup of E-39 stages them. -/
def sixFrames : List SymbolT := (List.replicate 6 (frame LiveRegs.reset 0x41#8)).flatten

/-- Whether each word decodes to its operation. -/
def allDecode (l : List (Bus73 × Instr)) : Bool :=
  match l with
  | [] => true
  | (w, i) :: r => (match decode w with | .ok j => decide (j = i) | .error _ => false) && allDecode r

/-- The verdict on a word. -/
def verdict? (w : Bus73) : Option Verdict :=
  match decode w with
  | .ok _ => none
  | .error v => some v

/-! ### Well-formed operations -/

/-- One operand that each check of `Instr.wellFormed` refuses. -/
theorem test_wellformed_refuses : ∀ i ∈ ([
    .wrMode 3#64, .wrSampleRate 0x3FE0000000000000#64, .wrSampleRate 0x41DFFFFFFFC00001#64, .wrWaveform 5#64,
    .wrFreq 0xBFF0000000000000#64, .wrVolume 0x3FF0000000000001#64, .wrEnvK1 0x7FF8000000000000#64,
    .wrEnvK2 0x3FF8000000000000#64, .wrFreqRaiseRate 0xBFF0000000000000#64, .wrVolRaiseRate 0x7FF0000000000000#64,
    .wrHoldDuration 0x8000000000000001#64, .txByte 0x100#64, .wrDataBits 9#64, .wrParity 3#64, .wrStopBits 1#64,
    .wrMarkFreq 0xFFF0000000000000#64, .wrSpaceFreq 0xBFF0000000000000#64, .wrBaud 0x3FE0000000000000#64,
    .wrIdleFreq 0x7FF0000000000001#64, .wrBufSize 0#64, .wrBufCount 1#64, .wrBufCount 17#64] : List Instr),
    i.wellFormed = false := by decide +kernel

/-- The operands at the ends of the legal ranges (10_state.md R24 to R42), -0.0 among them (30_encoding.md R82). -/
theorem test_wellformed_accepts : ∀ i ∈ ([
    .wrMode 2#64, .wrSampleRate 0x3FF0000000000000#64, .wrSampleRate 0x41DFFFFFFFC00000#64, .wrWaveform 4#64,
    .wrFreq 0x8000000000000000#64, .wrVolume 0x3FF0000000000000#64, .wrEnvK1 0#64, .wrHoldDuration 0x7FEFFFFFFFFFFFFF#64,
    .txByte 0xFF#64, .wrDataBits 8#64, .wrParity 0#64, .wrStopBits 4#64, .wrBaud 0x3FF0000000000000#64, .wrBufSize 1#64,
    .wrBufCount 2#64, .wrBufCount 16#64] : List Instr), i.wellFormed = true := by decide +kernel

/-! ### Decoding: a word for every row of the opcode map (30_encoding.md R87), by family -/

theorem test_decode_control : allDecode [
    (0x0000000000000000000#73, .rdId), (0x0010000000000000000#73, .rdStatus), (0x0030000000000000000#73, .rdErr),
    (0x1030000000000000000#73, .clrErr), (0x1020000000000000001#73, .start), (0x1020000000000000002#73, .stop),
    (0x0080000000000000000#73, .rdMode), (0x1080000000000000002#73, .wrMode 0x2#64),
    (0x0090000000000000000#73, .rdSampleRate), (0x10940BF400000000000#73, .wrSampleRate 0x40BF400000000000#64)] = true := by decide +kernel

theorem test_decode_oscillator : allDecode [
    (0x00A0000000000000000#73, .rdWaveform), (0x10A0000000000000004#73, .wrWaveform 0x4#64),
    (0x0100000000000000000#73, .rdFreq), (0x11040C5888000000000#73, .wrFreq 0x40C5888000000000#64),
    (0x0310000000000000000#73, .rdCurFreq), (0x0330000000000000000#73, .rdPhase)] = true := by decide +kernel

theorem test_decode_envelope : allDecode [
    (0x0110000000000000000#73, .rdVolume), (0x1113FF0000000000000#73, .wrVolume 0x3FF0000000000000#64),
    (0x0120000000000000000#73, .rdEnvK1), (0x1120000000000000000#73, .wrEnvK1 0x0#64),
    (0x0130000000000000000#73, .rdEnvK2), (0x1133FF0000000000000#73, .wrEnvK2 0x3FF0000000000000#64),
    (0x0320000000000000000#73, .rdCurVolume)] = true := by decide +kernel

theorem test_decode_period : allDecode [
    (0x11B0000000000000001#73, .activate), (0x11B0000000000000000#73, .deactivate),
    (0x0180000000000000000#73, .rdFreqRaiseRate), (0x11840D86A0000000000#73, .wrFreqRaiseRate 0x40D86A0000000000#64),
    (0x0190000000000000000#73, .rdVolRaiseRate), (0x119406F400000000000#73, .wrVolRaiseRate 0x406F400000000000#64),
    (0x01A0000000000000000#73, .rdHoldDuration), (0x11A3F60624DD2F1A9FC#73, .wrHoldDuration 0x3F60624DD2F1A9FC#64),
    (0x0360000000000000000#73, .rdTimeInCycle), (0x0370000000000000000#73, .rdVolumeFactor)] = true := by decide +kernel

theorem test_decode_framing : allDecode [
    (0x1270000000000000041#73, .txByte 0x41#64), (0x1020000000000000003#73, .txCommit),
    (0x1020000000000000004#73, .txAbort), (0x0280000000000000000#73, .rdSymqFree),
    (0x0210000000000000000#73, .rdDataBits), (0x1210000000000000009#73, .wrDataBits 0x9#64),
    (0x0220000000000000000#73, .rdParity), (0x1220000000000000003#73, .wrParity 0x3#64),
    (0x0230000000000000000#73, .rdStopBits), (0x1230000000000000001#73, .wrStopBits 0x1#64),
    (0x0240000000000000000#73, .rdMarkFreq), (0x1244094500000000000#73, .wrMarkFreq 0x4094500000000000#64),
    (0x0250000000000000000#73, .rdSpaceFreq), (0x12540A0680000000000#73, .wrSpaceFreq 0x40A0680000000000#64)] = true := by decide +kernel

theorem test_decode_scheduler : allDecode [
    (0x0200000000000000000#73, .rdBaud), (0x1204092C00000000000#73, .wrBaud 0x4092C00000000000#64),
    (0x0260000000000000000#73, .rdIdleFreq), (0x1264094500000000000#73, .wrIdleFreq 0x4094500000000000#64),
    (0x0340000000000000000#73, .rdWaitSamples), (0x0350000000000000000#73, .rdCarriedErr)] = true := by decide +kernel

theorem test_decode_pipeline : allDecode [
    (0x00B0000000000000000#73, .rdBufSize), (0x10B0000000000000040#73, .wrBufSize 0x40#64),
    (0x00C0000000000000000#73, .rdBufCount), (0x10C0000000000000002#73, .wrBufCount 0x2#64),
    (0x0300000000000000000#73, .rdUnderrunCount), (0x0380000000000000000#73, .rdFillPos)] = true := by decide +kernel

/-! ### Single transactions: 95_test_vectors.md 2.1, by their numbers there -/

theorem test_C1 : (reads State.reset 0x0000000000000000000#73 0x53494747454E0007#64) = true := by decide +kernel
theorem test_C2 : (reads State.reset 0x0010000000000000000#73 0x10030#64) = true := by decide +kernel
theorem test_C3 : (reads notReady 0x0010000000000000000#73 0x30#64) = true := by decide +kernel
theorem test_C4 : (reads State.reset 0x0100000000000000000#73 0x408F400000000000#64) = true := by decide +kernel
theorem test_C5 : (reads State.reset 0x0120000000000000000#73 0x3FEFEF9DB22D0E56#64) = true := by decide +kernel
theorem test_C6 : (reads State.reset 0x00B0000000000000000#73 0x400#64) = true := by decide +kernel
theorem test_C7 : (reads State.reset 0x0280000000000000000#73 0x40#64) = true := by decide +kernel
theorem test_C8 : (reads (running .continuous) 0x0010000000000000000#73 0x10031#64) = true := by decide +kernel
theorem test_C9 :
    (accepts (running .continuous) 0x1020000000000000001#73 fun t => t.running) = true := by
  decide +kernel
theorem test_C10 : (accepts State.reset 0x1020000000000000002#73 fun t => !t.running) = true := by decide +kernel
theorem test_C11 :
    (reads { running .continuous with running := false, pipe.fillPos := 4#32 } 0x0380000000000000000#73 4#64) = true := by
  decide +kernel
theorem test_C12 :
    (accepts { running .continuous with running := false } 0x10A0000000000000000#73 fun t => t.cfg.waveform == .sine) = true := by
  decide +kernel
theorem test_C13 :
    (accepts State.reset 0x1118000000000000000#73 fun t => t.live.volume == 0x8000000000000000#64) = true := by
  decide +kernel
theorem test_C14 :
    (accepts State.reset 0x11040D5888000000000#73 fun t => t.live.freq == 0x40D5888000000000#64) = true := by
  decide +kernel
theorem test_C15 :
    (accepts (stopped .pulse) 0x11040C5888000000000#73 fun t => t.live.freq == 0x40C5888000000000#64) = true := by
  decide +kernel
theorem test_C16 :
    (reads { State.reset with err := 0x12007#17 } 0x0030000000000000000#73 0x12007#64) = true := by
  decide +kernel
theorem test_C17 :
    (accepts { State.reset with err := 0x12007#17 } 0x1030000000000000000#73 fun t => t.err == 0#17) = true := by
  decide +kernel
theorem test_E1 : (rejects State.reset 0x0040000000000000000#73 0x00401#17) = true := by decide +kernel
theorem test_E2 : (rejects State.reset 0x1390000000000000000#73 0x13901#17) = true := by decide +kernel
theorem test_E3 : (rejects State.reset 0x1000000000000000000#73 0x10002#17) = true := by decide +kernel
theorem test_E4 : (rejects State.reset 0x1010000000000000000#73 0x10102#17) = true := by decide +kernel
theorem test_E5 : (rejects State.reset 0x0020000000000000000#73 0x00202#17) = true := by decide +kernel
theorem test_E6 : (rejects State.reset 0x0270000000000000000#73 0x02702#17) = true := by decide +kernel
theorem test_E7 : (rejects State.reset 0x1020000000000000005#73 0x10206#17) = true := by decide +kernel
theorem test_E8 : (rejects State.reset 0x1020000000000000000#73 0x10206#17) = true := by decide +kernel
theorem test_E9 : (rejects State.reset 0x11B0000000000000002#73 0x11B06#17) = true := by decide +kernel
theorem test_E10 : (rejects (running .continuous) 0x10A0000000000000000#73 0x10A03#17) = true := by decide +kernel
theorem test_E11 : (rejects (running .continuous) 0x1133FF8000000000000#73 0x11307#17) = true := by decide +kernel
theorem test_E12 : (rejects State.reset 0x11B0000000000000001#73 0x11B04#17) = true := by decide +kernel
theorem test_E13 : (rejects (stopped .pulse) 0x11B0000000000000001#73 0x11B05#17) = true := by decide +kernel
theorem test_E14 : (rejects State.reset 0x1270000000000000041#73 0x12704#17) = true := by decide +kernel
theorem test_E15 : (rejects (stopped .modem) 0x1270000000000000041#73 0x12705#17) = true := by decide +kernel
theorem test_E16 : (rejects (stopped .modem) 0x1020000000000000003#73 0x10205#17) = true := by decide +kernel
theorem test_E17 : (rejects State.reset 0x1020000000000000004#73 0x10204#17) = true := by decide +kernel
theorem test_E18 : (rejects (running .modem) 0x1270000000000000100#73 0x12706#17) = true := by decide +kernel
theorem test_E19 : (rejects State.reset 0x10A0000000000000005#73 0x10A06#17) = true := by decide +kernel
theorem test_E20 : (rejects State.reset 0x1080000000000000003#73 0x10806#17) = true := by decide +kernel
theorem test_E21 : (rejects State.reset 0x1210000000000000009#73 0x12106#17) = true := by decide +kernel
theorem test_E22 : (rejects State.reset 0x1220000000000000003#73 0x12206#17) = true := by decide +kernel
theorem test_E23 : (rejects State.reset 0x1230000000000000001#73 0x12306#17) = true := by decide +kernel
theorem test_E24 : (rejects State.reset 0x11040DD4C0000000000#73 0x11007#17) = true := by decide +kernel
theorem test_E25 : (rejects (stopped .pulse) 0x11040D5888000000000#73 0x11007#17) = true := by decide +kernel
theorem test_E26 : (rejects State.reset 0x1107FF8000000000000#73 0x11007#17) = true := by decide +kernel
theorem test_E27 : (rejects State.reset 0x11A7FF0000000000000#73 0x11A07#17) = true := by decide +kernel
theorem test_E28 : (rejects State.reset 0x118BFF0000000000000#73 0x11807#17) = true := by decide +kernel
theorem test_E29 : (rejects State.reset 0x109412E848200000000#73 0x10907#17) = true := by decide +kernel
theorem test_E30 : (rejects State.reset 0x1093FE0000000000000#73 0x10907#17) = true := by decide +kernel
theorem test_E31 : (rejects State.reset 0x10B0000000000000000#73 0x10B07#17) = true := by decide +kernel
theorem test_E32 : (rejects State.reset 0x10B0000000000001001#73 0x10B07#17) = true := by decide +kernel
theorem test_E33 : (rejects State.reset 0x10C0000000000000001#73 0x10C07#17) = true := by decide +kernel
theorem test_E34 : (rejects State.reset 0x10C0000000000000009#73 0x10C07#17) = true := by decide +kernel
theorem test_E35 : (rejects State.reset 0x1203FE0000000000000#73 0x12007#17) = true := by decide +kernel
theorem test_E36 :
    (rejects { State.reset with cfg.sampleRate := 0x408F400000000000#64 } 0x1020000000000000001#73 0x10207#17) = true := by
  decide +kernel
theorem test_E37 :
    (rejects { stopped .modem with cfg.sampleRate := 0x409F400000000000#64 } 0x1020000000000000001#73 0x10207#17) = true := by
  decide +kernel
theorem test_E38 : (rejects notReady 0x1020000000000000001#73 0x10209#17) = true := by decide +kernel
theorem test_E39 :
    (rejects { running .modem with symq.staged := sixFrames } 0x1270000000000000041#73 0x12708#17) = true := by
  decide +kernel

/-! ### Stored operands: the setup lines of the programs P1 to P4, and the words of their tables -/

theorem test_store_cfg : (accepts State.reset 0x1080000000000000002#73 (fun t => t.cfg.mode == .modem) &&
    accepts State.reset 0x109408F400000000000#73 (fun t => t.cfg.sampleRate == 0x408F400000000000#64) &&
    accepts State.reset 0x10A0000000000000003#73 (fun t => t.cfg.waveform == .triangle) &&
    accepts State.reset 0x10B0000000000000040#73 (fun t => t.cfg.bufSize == 64#64) &&
    accepts State.reset 0x10C0000000000000003#73 (fun t => t.cfg.bufCount == 3#64)) = true := by decide +kernel

theorem test_store_live : (accepts State.reset 0x1104059000000000000#73 (fun t => t.live.freq == 0x4059000000000000#64) &&
    accepts State.reset 0x1113FE0000000000000#73 (fun t => t.live.volume == 0x3FE0000000000000#64) &&
    accepts State.reset 0x1120000000000000000#73 (fun t => t.live.envK1 == 0#64) &&
    accepts State.reset 0x1133FF0000000000000#73 (fun t => t.live.envK2 == 0x3FF0000000000000#64) &&
    accepts State.reset 0x11840D86A0000000000#73 (fun t => t.live.freqRaiseRate == 0x40D86A0000000000#64) &&
    accepts State.reset 0x119406F400000000000#73 (fun t => t.live.volRaiseRate == 0x406F400000000000#64) &&
    accepts State.reset 0x11A3F60624DD2F1A9FC#73 (fun t => t.live.holdDuration == 0x3F60624DD2F1A9FC#64) &&
    accepts State.reset 0x1204092C00000000000#73 (fun t => t.live.baud == 0x4092C00000000000#64)) = true := by
  decide +kernel

/-- R200, R202, R204, R206, R208, R223. -/
theorem test_store_frame : (accepts State.reset 0x1210000000000000008#73 (fun t => t.live.dataBits == .eight) &&
    accepts State.reset 0x1220000000000000002#73 (fun t => t.live.parity == .odd) &&
    accepts State.reset 0x1230000000000000003#73 (fun t => t.live.stopBits == .three) &&
    accepts State.reset 0x1244059000000000000#73 (fun t => t.live.markFreq == 0x4059000000000000#64) &&
    accepts State.reset 0x1254059000000000000#73 (fun t => t.live.spaceFreq == 0x4059000000000000#64) &&
    accepts State.reset 0x1264059000000000000#73 (fun t => t.live.idleFreq == 0x4059000000000000#64)) = true := by
  decide +kernel

/-! ### Reads of the registers at their reset values (10_state.md R22), and of the internal state -/

theorem test_read_reset : (reads State.reset 0x0080000000000000000#73 0#64 &&
    reads State.reset 0x0090000000000000000#73 0x40E5888000000000#64 && reads State.reset 0x00A0000000000000000#73 0#64 &&
    reads State.reset 0x00C0000000000000000#73 4#64 && reads State.reset 0x0110000000000000000#73 0#64 &&
    reads State.reset 0x0130000000000000000#73 0x3F60624DD2F1A9FC#64 && reads State.reset 0x0180000000000000000#73 0#64 &&
    reads State.reset 0x0190000000000000000#73 0#64 && reads State.reset 0x01A0000000000000000#73 0#64 &&
    reads State.reset 0x0200000000000000000#73 0x4092C00000000000#64 && reads State.reset 0x0210000000000000000#73 7#64 &&
    reads State.reset 0x0220000000000000000#73 1#64 && reads State.reset 0x0230000000000000000#73 2#64 &&
    reads State.reset 0x0240000000000000000#73 0x4094500000000000#64 &&
    reads State.reset 0x0250000000000000000#73 0x40A0680000000000#64 &&
    reads State.reset 0x0260000000000000000#73 0x4094500000000000#64) = true := by decide +kernel

/-- Reads in P1 (cycle 15), P2 (73 to 75), P3 (20) and P4 (21), from states that hold what those programs reach there. -/
theorem test_read_internal :
    (reads { State.reset with synth.phase := fPi } 0x0330000000000000000#73 0x400921FB54442D18#64 &&
    reads { State.reset with synth.ws := 5#32 } 0x0340000000000000000#73 5#64 &&
    reads { State.reset with synth.cerr := 0x3FD5555555555520#64 } 0x0350000000000000000#73 0x3FD5555555555520#64 &&
    reads { State.reset with synth.curF := 0x4094500000000000#64 } 0x0310000000000000000#73 0x4094500000000000#64 &&
    reads { State.reset with synth.tic := 0x3F60624DD2F1A9FC#64 } 0x0360000000000000000#73 0x3F60624DD2F1A9FC#64 &&
    reads { State.reset with synth.vf := fOne } 0x0370000000000000000#73 0x3FF0000000000000#64 &&
    reads { State.reset with synth.curV := fOne } 0x0320000000000000000#73 0x3FF0000000000000#64 &&
    reads { State.reset with pipe.underruns := 3#32 } 0x0300000000000000000#73 3#64) = true := by decide +kernel

/-- The STATUS words of P1 (cycle 14), P2 (76), P3 (17) and P4 (28). -/
theorem test_read_status :
    (statusWord { running .continuous with pipe.fillIdx := 1#4 } = 0x11031#64) ∧
    (statusWord { running .modem with pipe.ready := [0#4], pipe.fillIdx := 1#4, synth.ws := 2#32 } = 0x11111#64) ∧
    (statusWord { running .pulse with synth.pmode := .ramping, synth.tgtValid := true } = 0x1003D#64) ∧
    (statusWord { running .continuous with pipe.ready := [1#4, 2#4] } = 0x10231#64) := by decide +kernel

/-! ### MODEM transactions: after E-39, and P2 cycles 10 to 12 -/

theorem test_txbyte_stages : (accepts (running .modem) 0x1270000000000000041#73 fun t =>
    t.symq.staged == frame LiveRegs.reset 0x41#8 && t.symq.committed == []) = true := by decide +kernel

theorem test_txcommit_after_E39 : (accepts { running .modem with symq.staged := sixFrames } 0x1020000000000000003#73 fun t =>
    t.symq.staged == [] && t.symq.committed.length == 59 && symqFree t == 5#64 && statusWord t == 0x10001#64) = true := by
  decide +kernel

theorem test_txabort_after_E39 : (accepts { running .modem with symq.staged := sixFrames } 0x1020000000000000004#73 fun t =>
    symqFree t == 64#64) = true := by decide +kernel

theorem test_status_after_E39 : (reads { running .modem with symq.staged := sixFrames } 0x0010000000000000000#73 0x10071#64 &&
    reads { running .modem with symq.staged := sixFrames } 0x0280000000000000000#73 4#64) = true := by decide +kernel

/-! ### PULSE transactions: T-10 to T-13 -/

/-- The state of P3 before its cycle 13, without the earlier samples. -/
def p3State : State := streamInit { stopped .pulse with
  cfg.sampleRate := 0x408F400000000000#64, cfg.waveform := .triangle, live.freq := 0x4059000000000000#64,
  live.freqRaiseRate := 0x40D86A0000000000#64, live.volRaiseRate := 0x406F400000000000#64,
  live.holdDuration := 0x3F60624DD2F1A9FC#64, live.volume := fOne, live.envK1 := fZero, live.envK2 := fOne }

theorem test_T10_activate : (accepts p3State 0x11B0000000000000001#73 fun t =>
    t.synth.pmode == .ramping && t.synth.curF == 0x405F400000000000#64 && t.synth.vf == 0x3FD0000000000000#64 &&
      t.synth.curV == 0x3FD0000000000000#64) = true := by decide +kernel

theorem test_T11_activate_again : ∀ m ∈ [PeriodMode.holding, .ramping],
    nextMeets (execActivate { p3State with synth.pmode := m })
      (fun t => decide (t = { p3State with synth.pmode := m, out := Outputs.quiet })) = true := by decide +kernel

theorem test_T12_deactivate : (accepts { p3State with synth.pmode := .holding, synth.vf := fOne, synth.curV := fOne }
    0x11B0000000000000000#73 fun t => t.synth.pmode == .resting && t.synth.vf == fZero && t.synth.tic == fZero &&
      t.synth.tgt == fZero && t.synth.tgtValid && t.synth.curV == fZero) = true := by decide +kernel

theorem test_T13_start : p3State.synth.frd = 0x4039000000000000#64 ∧ p3State.synth.vrd = 0x3FD0000000000000#64 ∧
    p3State.synth.invFs = 0x3F50624DD2F1A9FC#64 := by decide +kernel

/-! ### Period steps: T-1 to T-9 -/

theorem test_T1_resting : (periodStep p3State).synth.curF = 0x4059000000000000#64 ∧ (periodStep p3State).synth.tgt = fZero := by
  decide +kernel

/-- T-2, with 0.003 as T-2 and T-5 give it. -/
theorem test_T2_ramping : rampingStep 0x4059000000000000#64 { p3State.synth with
    pmode := .ramping, curF := 0x4065E00000000000#64, vf := 0x3FE0000000000000#64, tic := 0x3F60624DD2F1A9FC#64 } =
    { p3State.synth with
      pmode := .ramping, curF := 0x4069000000000000#64, vf := 0x3FE8000000000000#64, tic := 0x3F689374BC6A7EFA#64 } := by
  decide +kernel

theorem test_T3_ramp_ends : rampingStep 0x4059000000000000#64 { p3State.synth with
    pmode := .ramping, curF := 0x4069000000000000#64, vf := 0x3FE8000000000000#64, tic := 0x3F60624DD2F1A9FC#64 } =
    { p3State.synth with pmode := .holding, curF := 0x4059000000000000#64, vf := fOne, tic := fZero } := by decide +kernel

theorem test_T4_holding : holdingStep 0x4059000000000000#64 0x3F60624DD2F1A9FC#64 { p3State.synth with
    pmode := .holding, vf := fOne, tic := 0x3F50624DD2F1A9FC#64 } =
    { p3State.synth with pmode := .holding, vf := fOne, tic := 0x3F60624DD2F1A9FC#64 } := by decide +kernel

theorem test_T5_hold_ends : holdingStep 0x4059000000000000#64 0x3F60624DD2F1A9FC#64 { p3State.synth with
    pmode := .holding, curF := fOne, vf := fOne, tic := 0x3F60624DD2F1A9FC#64 } =
    { p3State.synth with pmode := .ramping, curF := 0x4059000000000000#64, vf := fOne, tic := fZero } := by decide +kernel

theorem test_T6_no_hold : (holdingStep 0x4059000000000000#64 fZero { p3State.synth with pmode := .holding }).pmode = .ramping := by
  decide +kernel

theorem test_T7_base_zero : (rampingStep fZero { p3State.synth with pmode := .ramping, curF := fZero }).pmode = .holding ∧
    (rampingStep fZero { p3State.synth with pmode := .ramping, curF := fZero }).curF = fZero := by decide +kernel

theorem test_T8_factor_saturates :
    (periodAdvance { p3State.synth with vf := 0x3FE8000000000000#64, vrd := 0x3FE0000000000000#64 }).vf = fOne := by
  decide +kernel

theorem test_T9_target : (pulseTarget fOne { p3State.synth with vf := 0x3FD0000000000000#64 }).tgt = 0x3FD0000000000000#64 := by
  decide +kernel

/-! ### Oscillator: O1, O3 to O8 -/

/-- O1. -/
theorem test_O1_increments : phaseIncrement 0x408F400000000000#64 0x40E5888000000000#64 = 0x3FC23CA61DCC76A2#64 ∧
    phaseIncrement 0x40C5888000000000#64 0x40E5888000000000#64 = fHalfPi ∧
    phaseIncrement 0x40D5888000000000#64 0x40E5888000000000#64 = fPi ∧
    phaseIncrement 0x4094500000000000#64 0x40E5888000000000#64 = 0x3FC7B53E59F033D3#64 ∧
    phaseIncrement 0x40A0680000000000#64 0x40E5888000000000#64 = 0x3FD32614D27D162B#64 ∧
    phaseIncrement 0x4059000000000000#64 0x408F400000000000#64 = 0x3FE41B2F769CF0E0#64 ∧
    phaseIncrement 0x4094500000000000#64 0x40BF400000000000#64 = 0x3FF05616905F83B6#64 := by decide +kernel

/-- O3: each waveform at +0.0, HALF_PI, PI and THREE_HALF_PI, with the default SIN. -/
theorem test_O3_waveforms : ∀ x ∈ [(Waveform.sine, [0#64, fOne, 0x3CA1A62633145C07#64, fMinusOne]),
      (.sineSquaredAlt, [0x8000000000000000#64, fMinusOne, 0xB95377CE858A5D48#64, fOne]),
      (.sineCubed, [0#64, fOne, 0x36057974E73DA3D2#64, fMinusOne]), (.triangle, [0#64, fOne, 0#64, fMinusOne]),
      (.square, [fMinusOne, fMinusOne, fOne, fOne])],
    [fZero, fHalfPi, fPi, fThreeHalfPi].map (wave SinFn.correctlyRounded x.1) = x.2 := by
  simp only [List.forall_mem_cons, List.not_mem_nil, false_implies, implies_true, and_true]; decide +kernel

/-- R131: SIN as an argument: at PI it is what the argument lists, and elsewhere the default. -/
theorem test_sin_argument : wave ⟨[(fPi, fTwo)]⟩ .sine fPi = fTwo ∧ wave ⟨[(fPi, fTwo)]⟩ .sine fHalfPi = fOne ∧
    wave ⟨[(fPi, fTwo)]⟩ .sineCubed fPi = 0x4020000000000000#64 := by decide +kernel

/-- O4: 1.0, 3.0, 5.0, PI/4 and TWO_PI - 2^-50. -/
theorem test_O4_triangle : wTriangle fOne = 0x3FE45F306DC9C883#64 ∧ wTriangle 0x4008000000000000#64 = 0x3FB71375B51533C0#64 ∧
    wTriangle 0x4014000000000000#64 = 0xBFEA240DDB0F1570#64 ∧ wTriangle 0x3FE921FB54442D18#64 = 0x3FE0000000000000#64 ∧
    wTriangle 0x401921FB54442D17#64 = 0xBCC0000000000000#64 := by decide +kernel

/-- O6 and O7. -/
theorem test_O6_phase_wraps : wrapPhase (fadd fThreeHalfPi fHalfPi) = 0#64 ∧ wrapPhase (fadd fPi fHalfPi) = fThreeHalfPi ∧
    wrapPhase 0x4019A54999E786D2#64 = 0x3FC069C8B46B3740#64 := by decide +kernel

/-- O8. -/
theorem test_O8_scaling : fmul (wave SinFn.correctlyRounded .square fZero) 0x3FE0000000000000#64 = 0xBFE0000000000000#64 ∧
    fmul (wave SinFn.correctlyRounded .triangle fHalfPi) 0x3FD0000000000000#64 = 0x3FD0000000000000#64 := by decide +kernel

/-! ### Envelope: V-1, V-4, V-5, V-7, V-8 -/

/-- A stopped state with a filter's state and coefficients. -/
def filter (k1 k2 v t : F64) : State :=
  { State.reset with live.envK1 := k1, live.envK2 := k2, synth.curV := v, synth.tgt := t, synth.tgtValid := true }

/-- V-1, step 1 to 3, each from the value before it, and V-5. -/
theorem test_V1_steps : envelopeNext (filter LiveRegs.reset.envK1 LiveRegs.reset.envK2 fZero fOne) = 0x3F60624DD2F1A9FC#64 ∧
    envelopeNext (filter LiveRegs.reset.envK1 LiveRegs.reset.envK2 0x3F60624DD2F1A9FC#64 fOne) = 0x3F705E1C15097C80#64 ∧
    envelopeNext (filter LiveRegs.reset.envK1 LiveRegs.reset.envK2 0x3F705E1C15097C80#64 fOne) = 0x3F7886E1A873738C#64 ∧
    envelopeNext (filter LiveRegs.reset.envK1 LiveRegs.reset.envK2 fZero 0x3FE0000000000000#64) = 0x3F50624DD2F1A9FC#64 := by
  decide +kernel

/-- V-4: a subnormal fixed point, 1.23e-321, clears the target. -/
theorem test_V4_subnormal : (envelopeStep (filter LiveRegs.reset.envK1 LiveRegs.reset.envK2 249#64 fZero)).synth.tgtValid = false ∧
    (envelopeStep (filter LiveRegs.reset.envK1 LiveRegs.reset.envK2 249#64 fZero)).synth.curV = 249#64 := by decide +kernel

/-- V-7, V-8. -/
theorem test_V7_clears : (envelopeStep (filter fZero fOne fZero 0x3FE6666666666666#64)).synth.tgtValid = true ∧
    (envelopeStep (filter fZero fOne 0x3FE6666666666666#64 0x3FE6666666666666#64)).synth.tgtValid = false ∧
    (envelopeStep (filter fOne fOne fZero fZero)).synth.tgtValid = false := by decide +kernel

/-! ### Framing: F-1, F-3, F-4 and F-6, as bits of the mark tone and the last duration -/

/-- The symbols of a frame as 1 for mark and 0 for space. -/
def shape (d : DataBits) (p : Parity) (h : HalfBits) (b : BitVec 8) : List Bool :=
  (frame { LiveRegs.reset with dataBits := d, parity := p, stopBits := h } b).map
    (fun q => q.tone == LiveRegs.reset.markFreq)

theorem test_F_shapes : shape .seven .even .two 0x41#8 = [false, true, false, false, false, false, false, true, false, true] ∧
    shape .seven .odd .two 0x41#8 = [false, true, false, false, false, false, false, true, true, true] ∧
    shape .eight .none .three 0x41#8 = [false, true, false, false, false, false, false, true, false, true] ∧
    shape .eight .odd .four 0xC3#8 = [false, true, true, false, false, false, false, true, true, true, true] ∧
    shape .seven .even .two 0xFF#8 = [false, true, true, true, true, true, true, true, true, true] ∧
    shape .seven .odd .two 0x00#8 = [false, false, false, false, false, false, false, false, true, true] ∧
    shape .seven .even .two 0xC1#8 = shape .seven .even .two 0x41#8 := by decide +kernel

theorem test_F3_durations : (frame { LiveRegs.reset with dataBits := .eight, parity := .none, stopBits := .three } 0x41#8).map
    (fun q => q.dur) = [.two, .two, .two, .two, .two, .two, .two, .two, .two, .three] := by decide +kernel

/-! ### Scheduler: Q-1 to Q-7 -/

/-- A running MODEM stream at 44100 Hz and 1200 baud with one committed symbol and a carried error. -/
def modemState (h : HalfBits) (cerr : F64) : State :=
  { running .modem with symq.committed := [⟨0x4094500000000000#64, h⟩], synth.cerr := cerr }

/-- Q-1, the first pop; Q-5; Q-2, the last pop; Q-3, the first pop: `ws` at the end of the sample, and `cerr`. -/
theorem test_Q_pops : ∀ x ∈ [(HalfBits.two, 0#64, 36#32, 0x3FD0000000000000#64),
      (.two, 0x3FD0000000000000#64, 35#32, 0xBFE0000000000000#64), (.three, 0x3FD0000000000000#64, 54#32, 0x3FC0000000000000#64),
      (.four, 0#64, 73#32, 0x3FE0000000000000#64)],
    (schedulerStep (modemState x.1 x.2.1)).synth.ws = x.2.2.1 ∧ (schedulerStep (modemState x.1 x.2.1)).synth.cerr = x.2.2.2 := by
  decide +kernel

/-- Q-4, Q-7. -/
theorem test_Q4_shortest_Q7_idle :
    (schedulerStep { modemState .two fZero with cfg.sampleRate := 0x40A2C00000000000#64 }).synth.ws = 1#32 ∧
    (schedulerStep (running .modem)).synth.curF = 0x4094500000000000#64 ∧ (schedulerStep (running .modem)).synth.ws = 0#32 := by
  decide +kernel

/-- Q-6. -/
theorem test_Q6_rounding : roundHalfEven 0x4042400000000000#64 = 36 ∧ roundHalfEven 0x4042C00000000000#64 = 38 ∧
    roundHalfEven 0x404BC00000000000#64 = 56 ∧ roundHalfEven 0x4042600000000000#64 = 37 := by decide +kernel

/-! ### Pipeline: B-3, B-4, B-7, the sample and the publish of P4, and the reset cycle -/

theorem test_B3_underrun : (nextMeets (step { State.reset with
    inputs := [⟨false, some 0x1020000000000000001#73, true, true⟩] }) fun t =>
      t.out.frameValid && t.out.underrun && t.pipe.underruns == 1#32 && t.pipe.outBuf == silence 1024 && t.pipe.fillPos == 1#32) =
    true := by decide +kernel

theorem test_B4_stopped : (nextMeets (step { State.reset with inputs := [⟨false, none, true, true⟩] }) fun t =>
    !t.out.frameValid && t.pipe.underruns == 0#32) = true := by decide +kernel

theorem test_B7_saturates : (underrunPop { State.reset with pipe.underruns := 0xFFFFFFFF#32 }).pipe.underruns = 0xFFFFFFFF#32 := by
  decide +kernel

/-- P4 with two buffers published, before its cycle 16. -/
def p4State : State := { streamInit { State.reset with
    cfg.waveform := .square, cfg.bufSize := 2#64, cfg.bufCount := 3#64, live.freq := 0x40C5888000000000#64,
    live.volume := 0x3FE0000000000000#64, live.envK1 := fZero, live.envK2 := fOne } with
  pipe.pool := [(2, 0x3FE0000000000000#64), (3, 0x3FE0000000000000#64), (4, 0xBFE0000000000000#64),
    (5, 0xBFE0000000000000#64)]
  pipe.ready := [1#4, 2#4], pipe.fillIdx := 0#4, synth.phase := fPi, synth.curV := 0x3FE0000000000000#64 }

theorem test_P4_cycle16 : (nextMeets (step { p4State with inputs := [⟨false, none, true, true⟩] }) fun t =>
    t.pipe.outBuf.sample 0 == 0x3FE0000000000000#64 && t.pipe.outBuf.sample 1 == 0x3FE0000000000000#64 &&
    t.out.frameValid && !t.out.underrun && t.pipe.ready == [2#4] && t.pipe.pool.read 0 == 0x3FE0000000000000#64 &&
    t.pipe.fillPos == 1#32) = true := by decide +kernel

theorem test_P4_publish : (nextMeets (producerAct { p4State with pipe.ready := [2#4], pipe.fillPos := 2#32 }) fun t =>
    t.pipe.ready == [2#4, 0#4] && t.pipe.fillIdx == 1#4 && t.pipe.fillPos == 0#32) = true := by decide +kernel

theorem test_P4_stall : (nextMeets (producerAct { p4State with pipe.fillPos := 2#32 }) fun t =>
    decide (t = { p4State with pipe.fillPos := 2#32 })) = true := by decide +kernel

/-- R275, R277. -/
theorem test_reset_cycle : (nextMeets (step { p4State with inputs := [⟨true, some 0x1020000000000000001#73, true, true⟩] }) fun t =>
    decide (t = State.reset)) = true := by decide +kernel

/-! ### binary64 arithmetic (00_scope.md R9): signed zeros, overflow, infinities, NaN in comparisons -/

theorem test_f64_zeros : fadd 0x8000000000000000#64 0x8000000000000000#64 = 0x8000000000000000#64 ∧
    fadd fZero 0x8000000000000000#64 = fZero ∧ fsub fOne fOne = fZero ∧ fmul fMinusOne fZero = 0x8000000000000000#64 ∧
    feq fZero 0x8000000000000000#64 = true := by decide +kernel

theorem test_f64_extremes : fadd 0x7FEFFFFFFFFFFFFF#64 0x7FEFFFFFFFFFFFFF#64 = 0x7FF0000000000000#64 ∧
    fdiv fOne fZero = 0x7FF0000000000000#64 ∧ fmul 1#64 0x3FE0000000000000#64 = 0#64 ∧ fmul 3#64 0x3FE0000000000000#64 = 2#64 ∧
    fle 0x7FF8000000000000#64 0x7FF8000000000000#64 = false := by decide +kernel

/-! ### Witnesses: inputs that meet all the hypotheses of each statement that has some -/

theorem witness_OpcodeRowsDisjoint : ∀ r ∈ opcodeMap, r.selects r.pattern := by
  unfold OpcodeRow.selects; decide +kernel

/-- The first and last address of every reserved range, and the addresses beside them. -/
theorem witness_ReservedAddressRejected :
    (∀ a ∈ [0x04#8, 0x07#8, 0x0D#8, 0x0F#8, 0x14#8, 0x17#8, 0x1C#8, 0x1F#8, 0x29#8, 0x2F#8, 0x39#8, 0xFF#8], ∀ w ∈ [true, false],
      verdict? (bus73 w a 0#64) = some .badAddr) ∧
    (∀ a ∈ [0x03#8, 0x08#8, 0x0C#8, 0x10#8, 0x13#8, 0x18#8, 0x20#8, 0x28#8, 0x30#8, 0x38#8],
      verdict? (bus73 false a 0#64) = none) := by decide +kernel

theorem witness_WrongDirectionRejected :
    (∀ w ∈ [0x1000000000000000000#73, 0x1380000000000000000#73, 0x0020000000000000000#73, 0x0270000000000000000#73],
      verdict? w = some .access) := by
  simp only [List.forall_mem_cons, List.not_mem_nil, false_implies, implies_true, and_true]; decide +kernel

theorem witness_ReservedCommandRejected :
    (∀ w ∈ [0x1020000000000000000#73, 0x1020000000000000005#73, 0x11B0000000000000002#73, 0x11BFFFFFFFFFFFFFFFF#73],
      verdict? w = some .reservedValue) ∧
    (∀ w ∈ [0x1020000000000000001#73, 0x1020000000000000004#73, 0x11B0000000000000000#73, 0x11B0000000000000001#73],
      verdict? w = none) := by
  simp only [List.forall_mem_cons, List.not_mem_nil, false_implies, implies_true, and_true]; decide +kernel

/-- A word that decodes, and one that does not, with a frame request and without. -/
theorem witness_StepRunsDecoded : ∀ c ∈ [(⟨false, some 0#73, false, true⟩ : CycleInputs),
      ⟨false, some 0x0040000000000000000#73, true, false⟩],
    ({ State.reset with inputs := [c] } : State).inputs = [c] ∧ c.rst = false ∧
      (c.host = some 0#73 ∧ allDecode [(0#73, .rdId)] = true ∨
        c.host = some 0x0040000000000000000#73 ∧ verdict? 0x0040000000000000000#73 = some .badAddr) := by decide +kernel

/-- No inputs listed, and a listed cycle without a transaction, with a frame request and without. -/
theorem witness_StepWithoutTransaction :
    (running .modem).inputs = [] ∧ (nextInputs (running .modem)).rst = false ∧ (nextInputs (running .modem)).host = none ∧
    nextMeets (step (running .modem)) (fun t => t.pipe.fillPos == 2#32) = true ∧
    ∀ c ∈ [(⟨false, none, true, false⟩ : CycleInputs), ⟨false, none, false, true⟩],
      ({ running .modem with inputs := [c] } : State).inputs = [c] ∧ c.rst = false ∧ c.host = none ∧
      nextMeets (step { running .modem with inputs := [c] }) (fun t => t.pipe.fillPos == 2#32) = true := by decide +kernel

theorem witness_StepReset :
    (nextInputs { running .pulse with inputs := [⟨true, none, false, false⟩] }).rst = true := by decide

/-- A running stream that STOP stops in this cycle, and a stopped one with a frame request. -/
theorem witness_StoppedCycle : ∀ s ∈ [(running .pulse).withFetchWord 73 0x1020000000000000002,
      { State.reset with inputs := [⟨false, none, true, true⟩] }],
    (nextInputs s).rst = false ∧
      nextMeets (hostAct (nextInputs s).host (beginCycle s)) (fun u => !u.running) = true := by decide +kernel

/-- A rejected word, and an accepted one that is not CLRERR. -/
theorem witness_TransactionAnswered :
    nextMeets (hostAct (some 0x0040000000000000000#73) State.reset) (fun t => t.out.hostErr) = true ∧
    nextMeets (hostAct (some 0x0000000000000000000#73) State.reset) (fun t => !t.out.hostErr) = true ∧
    allDecode [(0x0000000000000000000#73, .clrErr)] = false := by decide +kernel

theorem witness_IllFormedRejected : LegalParams Params.default ∧ (Instr.wrMode 3#64).wellFormed = false := by
  unfold LegalParams; decide +kernel

/-- The FIFO bound met with room, and with none. -/
theorem witness_ReadsOfIdErrAndSizes :
    LegalParams State.reset.params ∧ FifoBounded State.reset ∧
    FifoBounded { running .modem with symq.staged := List.replicate 64 ⟨fOne, .two⟩ } := by
  unfold LegalParams FifoBounded; decide +kernel

/-- The ends of the ranges of R112, R241 and R243. -/
theorem witness_CfgWritesStopped : State.reset.running = false ∧
    (∀ d ∈ [0x3FF0000000000000#64, 0x412E848000000000#64], isFinite d ∧ fle fOne d ∧ fle d State.reset.params.fsMax) ∧
    (∀ d ∈ [1#64, 4096#64], 1 ≤ d.toNat ∧ d.toNat ≤ State.reset.params.bufszMax) ∧
    (∀ d ∈ [2#64, 8#64], 2 ≤ d.toNat ∧ d.toNat ≤ State.reset.params.nbufMax) := by
  simp only [List.forall_mem_cons, List.not_mem_nil, false_implies, implies_true, and_true]; decide +kernel

theorem witness_CfgWritesIllegal : State.reset.running = false ∧
    (∀ d ∈ [3#64, 0xFFFFFFFFFFFFFFFF#64], 3 ≤ d.toNat) ∧ 5 ≤ (5#64).toNat ∧
    (∀ d ∈ [0x3FEFFFFFFFFFFFFF#64, 0x412E848000000001#64, 0x7FF0000000000000#64, 0x7FF8000000000000#64],
      ¬ (isFinite d ∧ fle fOne d ∧ fle d State.reset.params.fsMax)) ∧
    (∀ d ∈ [0#64, 4097#64, 0x100000001#64], ¬ (1 ≤ d.toNat ∧ d.toNat ≤ State.reset.params.bufszMax)) ∧
    (∀ d ∈ [1#64, 9#64], ¬ (2 ≤ d.toNat ∧ d.toNat ≤ State.reset.params.nbufMax)) := by
  simp only [List.forall_mem_cons, List.not_mem_nil, false_implies, implies_true, and_true]; decide +kernel

theorem witness_CfgWritesBusy : ∀ m ∈ [OpMode.continuous, .pulse, .modem], (running m).running = true := by decide +kernel

/-- The ends of each range: FREQ in CONTINUOUS and in PULSE, the tones, BAUD, the units and the rates. -/
theorem witness_LiveWritesLegal :
    (∀ d ∈ [fZero, 0x8000000000000000#64, 0x40D5888000000000#64], isFinite d ∧ fle fZero d ∧
      fle d (fdiv State.reset.cfg.sampleRate (if State.reset.cfg.mode = .pulse then fFour else fTwo)) ∧
      fle d (fdiv State.reset.cfg.sampleRate fTwo)) ∧
    (∀ d ∈ [fZero, 0x40C5888000000000#64], isFinite d ∧ fle fZero d ∧
      fle d (fdiv (stopped .pulse).cfg.sampleRate (if (stopped .pulse).cfg.mode = .pulse then fFour else fTwo))) ∧
    (∀ d ∈ [fOne, 0x40D5888000000000#64], isFinite d ∧ fle fOne d ∧ fle d (fdiv State.reset.cfg.sampleRate fTwo)) ∧
    (∀ d ∈ [fZero, fOne], isFinite d ∧ fle fZero d ∧ fle d fOne) ∧
    (∀ d ∈ [fZero, 0x7FEFFFFFFFFFFFFF#64], isFinite d ∧ fle fZero d) := by
  simp only [List.forall_mem_cons, List.not_mem_nil, false_implies, implies_true, and_true]; decide +kernel

/-- Just outside each end, and a NaN and an infinity. -/
theorem witness_LiveWritesIllegal :
    (∀ d ∈ [0x8000000000000001#64, 0x40D5888000000001#64, 0x7FF8000000000000#64, 0x7FF0000000000000#64],
      ¬ (isFinite d ∧ fle fZero d ∧
        fle d (fdiv State.reset.cfg.sampleRate (if State.reset.cfg.mode = .pulse then fFour else fTwo))) ∧
      ¬ (isFinite d ∧ fle fZero d ∧ fle d (fdiv State.reset.cfg.sampleRate fTwo))) ∧
    (∀ d ∈ [0x3FEFFFFFFFFFFFFF#64, 0x40D5888000000001#64, 0x7FF8000000000000#64],
      ¬ (isFinite d ∧ fle fOne d ∧ fle d (fdiv State.reset.cfg.sampleRate fTwo))) ∧
    (∀ d ∈ [0x8000000000000001#64, 0x3FF0000000000001#64, 0x7FF0000000000000#64], ¬ (isFinite d ∧ fle fZero d ∧ fle d fOne)) ∧
    (∀ d ∈ [0x8000000000000001#64, 0x7FF0000000000000#64, 0xFFF8000000000000#64], ¬ (isFinite d ∧ fle fZero d)) := by
  simp only [List.forall_mem_cons, List.not_mem_nil, false_implies, implies_true, and_true]; decide +kernel

theorem witness_VolumeWrite :
    (∀ d ∈ [fZero, fOne], isFinite d ∧ fle fZero d ∧ fle d fOne) ∧
    (∀ m ∈ [OpMode.continuous, .modem], (running m).running = true ∧ (running m).cfg.mode ≠ .pulse) ∧
    (∀ s ∈ [State.reset, running .pulse], ¬ (s.running = true ∧ s.cfg.mode ≠ .pulse)) := by
  simp only [List.forall_mem_cons, List.not_mem_nil, false_implies, implies_true, and_true]; decide +kernel

theorem witness_RaiseRateWrites :
    (∀ d ∈ [fZero, 0x7FEFFFFFFFFFFFFF#64], isFinite d ∧ fle fZero d) ∧ (running .pulse).running = true ∧
    State.reset.running = false := by
  simp only [List.forall_mem_cons, List.not_mem_nil, false_implies, implies_true, and_true]; decide +kernel

theorem witness_FrameParameterWrites :
    (∀ d ∈ [6#64, 9#64, 0x100000007#64], d ∉ [7#64, 8#64]) ∧ 3#64 ∉ [0#64, 1#64, 2#64] ∧
    (∀ d ∈ [1#64, 5#64], d ∉ [2#64, 3#64, 4#64]) := by
  simp only [List.forall_mem_cons, List.not_mem_nil, false_implies, implies_true, and_true]; decide +kernel

/-- START from reset in each mode, and in PULSE with FREQ at the limit. -/
theorem witness_StartInitialises : ∀ s ∈ [stopped .continuous, stopped .pulse, stopped .modem,
      { stopped .pulse with live.freq := 0x40C5888000000000#64 }],
    s.running = false ∧ s.devReady = true ∧
    fle s.live.freq (fdiv s.cfg.sampleRate (if s.cfg.mode = .pulse then fFour else fTwo)) ∧
    (s.cfg.mode = .modem → ∀ v ∈ [s.live.markFreq, s.live.spaceFreq, s.live.idleFreq, s.live.baud],
      fle v (fdiv s.cfg.sampleRate fTwo)) := by
  simp only [List.forall_mem_cons, List.not_mem_nil, false_implies, implies_true, and_true]; decide +kernel

/-- A running stream; a device that is not ready; FREQ above the limit, and in MODEM one tone above it. -/
theorem witness_StartOtherwise : (running .modem).running = true ∧ (notReady.running = false ∧ notReady.devReady = false) ∧
    ∀ s ∈ [{ stopped .pulse with live.freq := 0x40D5888000000000#64 },
        { stopped .modem with cfg.sampleRate := 0x40AF400000000000#64 }],
      s.running = false ∧ s.devReady = true ∧
      ¬ (fle s.live.freq (fdiv s.cfg.sampleRate (if s.cfg.mode = .pulse then fFour else fTwo)) ∧
        (s.cfg.mode = .modem → ∀ v ∈ [s.live.markFreq, s.live.spaceFreq, s.live.idleFreq, s.live.baud],
          fle v (fdiv s.cfg.sampleRate fTwo))) := by
  simp only [List.forall_mem_cons, List.not_mem_nil, false_implies, implies_true, and_true]; decide +kernel

theorem witness_ActivateAndDeactivate : (running .pulse).cfg.mode = .pulse ∧ (running .pulse).running = true ∧
    (running .pulse).synth.pmode = .resting ∧
    ∀ m ∈ [PeriodMode.holding, .ramping], ({ running .pulse with synth.pmode := m } : State).synth.pmode ≠ .resting := by
  decide +kernel

theorem witness_StreamOperationPriority : State.reset.cfg.mode ≠ .pulse ∧ State.reset.cfg.mode ≠ .modem ∧
    (∀ m ∈ [OpMode.pulse, .modem], (stopped m).cfg.mode = m ∧ (stopped m).running = false) := by decide

/-- A frame that fits exactly: 54 + 10 symbols. -/
theorem witness_TxByteStages : ∀ s ∈ [{ running .modem with symq.staged := List.replicate 54 ⟨fOne, .two⟩ }],
    s.cfg.mode = .modem ∧ s.running = true ∧
    s.symq.committed.length + s.symq.staged.length + (frame s.live 0x41#8).length ≤ s.params.symqDepth := by decide +kernel

/-- The least illegal operand, and a frame that is one symbol too long: 55 + 10. -/
theorem witness_TxByteRefused : 256 ≤ (256#64).toNat ∧
    ∀ s ∈ [{ running .modem with symq.staged := List.replicate 55 ⟨fOne, .two⟩ }],
      s.cfg.mode = .modem ∧ s.running = true ∧
      s.params.symqDepth < s.symq.committed.length + s.symq.staged.length + (frame s.live 0x41#8).length := by decide +kernel

theorem witness_TxCommitAndAbort : (running .modem).cfg.mode = .modem ∧ (running .modem).running = true := by decide +kernel

theorem witness_FrameLayout : ∀ d ∈ [DataBits.seven, .eight], 0 < d.count ∧ d.count - 1 < d.count := by decide

theorem witness_FrameParity : ∀ p ∈ [Parity.even, .odd], ({ LiveRegs.reset with parity := p } : LiveRegs).parity ≠ .none := by
  decide

/-- Both sides of PI, and operands of the default SIN: PI, -0.0, the smallest negative value, and the largest phase. -/
theorem witness_WaveformValues : flt 0x400921FB54442D17#64 fPi = true ∧ ¬ (flt fPi fPi = true) ∧
    nearestSin? fPi = some 0x3CA1A62633145C07#64 ∧ nearestSin? 0x8000000000000000#64 = some 0x8000000000000000#64 ∧
    nearestSin? 0x8000000000000001#64 = some 0x8000000000000001#64 ∧ (nearestSin? 0x401921FB54442D17#64).isSome = true := by decide +kernel

/-- The ends of the cycle and of the three segments. -/
theorem witness_TriangleRange : ∀ p ∈ [fZero, fHalfPi, 0x3FF921FB54442D19#64, fThreeHalfPi, 0x4012D97C7F3321D3#64,
    0x401921FB54442D17#64], fle fZero p = true ∧ flt p fTwoPi = true := by
  simp only [List.forall_mem_cons, List.not_mem_nil, false_implies, implies_true, and_true]; decide +kernel

theorem witness_EnvelopeFilter : (running .continuous).synth.tgtValid = false ∧ (started .continuous).synth.tgtValid = true := by
  decide +kernel

/-- The ramp of P3 at its ceiling, with the volume factor at 1. -/
theorem witness_RampCeiling : ∀ y ∈ [{ p3State.synth with curF := 0x4069000000000000#64, vf := fOne }],
    legalNonNeg 0x4059000000000000#64 = true ∧ legalNonNeg y.curF = true ∧ fle fZero y.frd = true ∧ legalUnit y.vf = true ∧
    fle fZero y.vrd = true := by decide +kernel

/-- Each clause, at the steps of T-1, T-3, T-2, T-5 and T-4. -/
theorem witness_PeriodTransitions : p3State.synth.pmode = .resting ∧
    flt (fmul fTwo p3State.live.freq) (fadd 0x4069000000000000#64 p3State.synth.frd) = true ∧
    ¬ (flt (fmul fTwo p3State.live.freq) (fadd 0x4065E00000000000#64 p3State.synth.frd) = true) ∧
    flt p3State.live.holdDuration (fadd 0x3F60624DD2F1A9FC#64 p3State.synth.invFs) = true ∧
    ¬ (flt p3State.live.holdDuration (fadd 0x3F50624DD2F1A9FC#64 p3State.synth.invFs) = true) := by decide +kernel

/-- A pop as in Q-5, an empty queue, and the last sample of a symbol. -/
theorem witness_SchedulerStep : (modemState .two fZero).synth.ws = 0#32 ∧
    (modemState .two fZero).symq.committed = [⟨0x4094500000000000#64, .two⟩] ∧
    roundHalfEven (fsub (fdiv (fmul (fdiv (fofInt HalfBits.two.count) fTwo) (modemState .two fZero).cfg.sampleRate)
      (modemState .two fZero).live.baud) (modemState .two fZero).synth.cerr) = 37 ∧
    ((running .modem).synth.ws = 0#32 ∧ (running .modem).symq.committed = []) ∧
    ({ running .modem with synth.ws := 1#32 } : State).synth.ws ≠ 0#32 := by decide +kernel

/-- The least rate with its one baud rate, the largest rate with the least baud rate, and Q-4, at both ends of the carried
error. -/
theorem witness_SymbolBounds : ∀ x ∈ [(fTwo, fOne), (fsMaxMax, fOne), (0x40A2C00000000000#64, 0x4092C00000000000#64)],
    ∀ c ∈ [0xBFE0000000000000#64, fZero, 0x3FE0000000000000#64],
      inRange fOne fsMaxMax x.1 = true ∧ isFinite x.2 = true ∧ fle fOne x.2 = true ∧ fle x.2 (fdiv x.1 fTwo) = true ∧
      inRange 0xBFE0000000000000#64 0x3FE0000000000000#64 c = true := by
  simp only [List.forall_mem_cons, List.not_mem_nil, false_implies, implies_true, and_true]; decide +kernel

/-- The first and the last word of a buffer, and the last buffer, one of them in each mode; the other variables are named by
their equations. -/
theorem witness_SampleStored : ∀ s ∈ [started .continuous, { started .modem with pipe.fillPos := 1023#32 },
      { started .pulse with pipe.fillIdx := 3#4, pipe.fillPos := 1023#32 }],
    s.running = true ∧ s.pipe.fillIdx.toNat < s.cfg.bufCount.toNat ∧ s.pipe.fillPos.toNat < s.cfg.bufSize.toNat ∧
    s.pipe.pool.wf = true := by decide +kernel

/-- A full buffer with one free slot, and with none. -/
theorem witness_PublishOrStall :
    (∀ s ∈ [{ p4State with pipe.ready := [2#4], pipe.fillPos := 2#32 }, { p4State with pipe.fillPos := 2#32 }],
      s.running = true ∧ s.cfg.bufSize.toNat ≤ s.pipe.fillPos.toNat ∧ s.cfg.bufCount.toNat ≤ 16) ∧
    ([2#4] : List (BitVec 4)).length < p4State.cfg.bufCount.toNat - 1 ∧
    p4State.cfg.bufCount.toNat - 1 ≤ p4State.pipe.ready.length := by decide +kernel

theorem witness_PopReturnsOldest : p4State.running = true ∧ p4State.pipe.ready = [1#4, 2#4] ∧
    (1#4).toNat < p4State.cfg.bufCount.toNat := by decide +kernel

theorem witness_UnderrunSilence : (started .continuous).running = true ∧ (started .continuous).pipe.ready = [] := by decide +kernel

/-- A POP, and two operations other than START that complete. -/
theorem witness_AgentsWriteOwnState : nextMeets (consumerAct true p4State) (fun t => t.out.frameValid) = true ∧
    nextMeets (exec .rdId p4State) (fun t => !t.out.hostErr) = true ∧
    nextMeets (exec (.wrVolume fOne) p4State) (fun t => t.synth.tgt == fOne) = true := by decide +kernel

theorem witness_ConfigurationFixed : (nextInputs p4State).rst = false ∧ p4State.running = true ∧
    nextMeets (step p4State) (fun t => t.pipe.fillPos == 1#32) = true := by decide +kernel

/-- A START, a STOP and a reset. -/
theorem witness_OnlyStartStarts : State.reset.running = false ∧ p4State.running = true ∧
    nextMeets (present State.reset 0x1020000000000000001#73) (fun t => t.running) = true ∧
    nextMeets (present p4State 0x1020000000000000002#73) (fun t => !t.running) = true ∧
    nextMeets (step { p4State with inputs := [⟨true, none, false, true⟩] }) (fun t => !t.running) = true := by decide +kernel

theorem witness_MachineInv_p4 : MachineInv p4State where
  params := by unfold LegalParams; decide +kernel
  cfg := by unfold LegalCfg; decide +kernel
  live := by unfold LegalLive; decide +kernel
  fits := by unfold StreamFits; decide +kernel
  owned := by unfold PoolOwned; decide +kernel
  fifo := by unfold FifoBounded; decide +kernel
  quiet := by unfold RestingQuiet; decide +kernel
  canonical := by unfold CanonicalPool; decide +kernel

/-- A running stream with both ready slots taken meets the invariant and completes a cycle that pops. -/
theorem witness_InvariantKept : MachineInv { p4State with inputs := [⟨false, none, true, true⟩] } ∧
    nextMeets (step { p4State with inputs := [⟨false, none, true, true⟩] }) (fun t => t.pipe.fillPos == 1#32) = true :=
  ⟨{ witness_MachineInv_p4 with }, by decide +kernel⟩

theorem witness_StepNeverStops : MachineInv p4State := witness_MachineInv_p4

/-- The same stream, at phase PI. -/
theorem witness_PhaseKept : MachineInv p4State ∧ TonesBounded p4State ∧ PhaseInRange p4State ∧
    nextMeets (step p4State) (fun t => t.synth.phase == fThreeHalfPi) = true :=
  ⟨witness_MachineInv_p4, ⟨by decide +kernel, by decide +kernel, by decide +kernel⟩, by unfold PhaseInRange; decide +kernel,
    by decide +kernel⟩

theorem witness_VolumeKept : MachineInv p4State ∧ VolumeBounded p4State ∧
    nextMeets (step p4State) (fun t => t.synth.curV == 0x3FE0000000000000#64) = true :=
  ⟨witness_MachineInv_p4, ⟨by decide +kernel, by decide +kernel, by decide +kernel, by decide +kernel⟩, by decide +kernel⟩

theorem witness_CarriedErrKept : MachineInv p4State ∧ CarriedErrBounded p4State ∧
    nextMeets (step p4State) (fun t => t.running) = true :=
  ⟨witness_MachineInv_p4, by unfold CarriedErrBounded; decide +kernel, by decide +kernel⟩

/-- The reset state itself is covered by the parameters of 00_scope.md R6, at the default column and at both ends. -/
theorem witness_ResetInvariants : LegalParams Params.default ∧ LegalParams ⟨2, 1, 11, fOne, ⟨[(fPi, fTwo)]⟩⟩ ∧
    LegalParams ⟨16, 2 ^ 31, 2 ^ 16, fsMaxMax, SinFn.correctlyRounded⟩ := by unfold LegalParams; decide +kernel

end Sys2Proof.Tests
end

section
/-! PROOFS. The waveforms of the oscillator and its sine (41_oscillator.md R131 to R137; 00_scope.md R6). -/

namespace Sys2Proof.Machine

/-! ### SIN as data (00_scope.md R6, 41_oscillator.md R131) -/

/-- The graph of a function over a list of operands, read back as a list of points, is the function on that list. -/
theorem pointAt?_graph (g : F64 → F64) {l : List F64} {x : F64} (hx : x ∈ l) :
    pointAt? (l.map fun a => (a, g a)) x = some (g x) := by
  induction l with
  | nil => cases hx
  | cons a l ih =>
    rw [List.map_cons, pointAt?]
    split
    · next hxa => rw [hxa]
    · next hxa => exact ih ((List.mem_cons.1 hx).resolve_left hxa)

/-- The words of a width are finitely many. -/
theorem exists_list_of_all_words (w : Nat) : ∃ l : List (BitVec w), ∀ x, x ∈ l :=
  ⟨(List.finRange (2 ^ w)).map BitVec.ofFin, fun x => List.mem_map.2 ⟨x.toFin, List.mem_finRange _, rfl⟩⟩

/-- Every total function is some SIN: the one that lists all of the function's points. -/
theorem exists_sinFn (g : F64 → F64) : ∃ f : SinFn, ∀ x, sinOf f x = g x := by
  obtain ⟨l, hl⟩ := exists_list_of_all_words 64
  refine ⟨⟨l.map fun a => (a, g a)⟩, fun x => ?_⟩
  rw [sinOf, pointAt?_graph g (hl x), Option.getD_some]

/-- The default SIN lists no point. -/
@[simp] theorem sinOf_correctlyRounded (x : F64) : sinOf SinFn.correctlyRounded x = defaultSin x := rfl

theorem defaultSin_of_nearestSin? {x r : F64} (h : nearestSin? x = some r) : defaultSin x = r := by
  rw [defaultSin, h, Option.getD_some]

/-! ### The default SIN is the nearest value (R131) -/

@[simp] theorem fneg_fneg (x : F64) : fneg (fneg x) = x := by
  rw [fneg, fneg, BitVec.xor_assoc, BitVec.xor_self, BitVec.xor_zero]

@[simp] theorem magnitude_fneg (x : F64) : magnitude (fneg x) = magnitude x := by
  rw [magnitude_lowBits, lowBits_fneg, ← magnitude_lowBits]

theorem scaled_of_not_signBit {x : F64} (h : signBit x = false) : scaled x = magnitude x := by
  rw [scaled, h]; rfl

theorem scaled_of_magnitude_eq_zero {x : F64} (h : magnitude x = 0) : scaled x = 0 := by
  rw [← Int.natAbs_eq_zero, scaled_natAbs, h]

/-- The answers of `nearestSin?`: the sine of a zero is that zero, and the sine of another finite value is the enclosed
one of its magnitude, with its sign. -/
theorem nearestSin?_cases {x r : F64} (h : nearestSin? x = some r) :
    isFinite x = true ∧ (magnitude x = 0 ∧ r = x ∨
      ∃ b, roundEnclosed (sinFixed (magnitude x)) (sinError (magnitude x)) = some b ∧
        r = if signBit x then fneg b else b) := by
  unfold nearestSin? at h
  split at h
  · next hfin =>
    refine ⟨hfin, ?_⟩
    split at h
    · next hzero => exact .inl ⟨hzero, (Option.some.inj h).symm⟩
    · obtain ⟨b, hb, hr⟩ := Option.map_eq_some_iff.1 h
      exact .inr ⟨b, hb, hr.symm⟩
  · cases h

/-- A zero is the sine of itself. -/
theorem isNearestSin_zero {x : F64} (hfin : isFinite x = true) (hzero : magnitude x = 0) : IsNearestSin x x := by
  refine ⟨hfin, hfin, fun y _ => ?_⟩
  rw [scaled_of_magnitude_eq_zero hzero]
  simp

/-- The sine is odd, and so is what is nearest to it. -/
theorem isNearestSin_fneg {x r : F64} (h : IsNearestSin x r) : IsNearestSin (fneg x) (fneg r) := by
  obtain ⟨hx, hr, hnear⟩ := h
  refine ⟨(isFinite_fneg x).trans hx, (isFinite_fneg r).trans hr, fun y hy => ?_⟩
  have hmirror (v t : ℝ) : |v - -t| = |-v - t| := by
    rw [← abs_neg, neg_sub', sub_neg_eq_add, ← sub_eq_add_neg]
  have hy' := hnear (fneg y) ((isFinite_fneg y).trans hy)
  rw [scaled_fneg, Int.cast_neg] at hy'
  rw [scaled_fneg, scaled_fneg, Int.cast_neg, Int.cast_neg, neg_div, Real.sin_neg, neg_mul, hmirror, hmirror, neg_neg]
  exact hy'

/-- What the enclosure of the sine of a positive operand rounds to is nearest to that sine: the true sine lies in the
enclosure, and the answer is nearest to each point of it. -/
theorem isNearestSin_of_roundEnclosed {x r : F64} (hfin : isFinite x = true) (hsign : signBit x = false)
    (h : roundEnclosed (sinFixed (magnitude x)) (sinError (magnitude x)) = some r) : IsNearestSin x r := by
  have hlt := magnitude_lt hfin
  obtain ⟨hr, hnear⟩ := roundEnclosed_nearest h (sinFixed_le hlt)
  refine ⟨hfin, hr, fun y _ => ?_⟩
  have hy := hnear _ (sinFixed_error hlt) y
  rw [mul_div_assoc, fixedOne_div] at hy
  rw [scaled_of_not_signBit hsign, Int.cast_natCast, abs_sub_comm, abs_sub_comm (scaled y : ℝ)]
  exact hy

/-- Where the default SIN is computed, it is the binary64 value nearest to the mathematical sine. -/
theorem isNearestSin_of_nearestSin? {x r : F64} (h : nearestSin? x = some r) : IsNearestSin x r := by
  obtain ⟨hfin, ⟨hzero, rfl⟩ | ⟨b, hb, rfl⟩⟩ := nearestSin?_cases h
  · exact isNearestSin_zero hfin hzero
  · cases hsign : signBit x with
    | false => exact isNearestSin_of_roundEnclosed hfin hsign hb
    | true =>
      have hpos : IsNearestSin (fneg x) b :=
        isNearestSin_of_roundEnclosed ((isFinite_fneg x).trans hfin) (by rw [signBit_fneg, hsign]; rfl)
          (by rw [magnitude_fneg]; exact hb)
      exact fneg_fneg x ▸ isNearestSin_fneg hpos

/-! ### The waveforms (R132 to R137) -/

theorem wave_triangle (f : SinFn) (p : F64) : wave f .triangle p = wTriangle p := rfl

theorem wave_square_of_flt {p : F64} (f : SinFn) (h : flt p fPi = true) : wave f .square p = fMinusOne :=
  if_pos h

theorem wave_square_of_not_flt {p : F64} (f : SinFn) (h : ¬ flt p fPi = true) : wave f .square p = fOne :=
  if_neg h

/-- The triangle at the ends of its segments (R136). -/
theorem wTriangle_segment_points : wTriangle fZero = 0#64 ∧ wTriangle fHalfPi = fOne ∧ wTriangle fPi = 0#64 ∧
    wTriangle fThreeHalfPi = fMinusOne := by decide +kernel

/-- Settles O41: the waveforms by their definitions, every function as the list of its points, and the default SIN from the
error bound of the fixed-point sine. -/
theorem waveformValues : Obligations.WaveformValues := by
  refine ⟨fun f p => ⟨rfl, rfl, rfl, rfl, wave_square_of_flt f, wave_square_of_not_flt f⟩, fun f => ?_, exists_sinFn,
    fun x r h => ⟨?_, isNearestSin_of_nearestSin? h⟩, rfl⟩
  · simp only [wave_triangle]
    exact wTriangle_segment_points
  · rw [sinOf_correctlyRounded, defaultSin_of_nearestSin? h]

end Sys2Proof.Machine
end

section
/-! PROOFS. The registers of the block as the host sees them (10_state.md R22, R23, R46, R59): what the reads answer, the STATUS
word, the reset state, and the configuration while a stream runs. -/

namespace Sys2Proof.Machine

/-! ### Reads -/

/-- Every read is answered with some value, and changes nothing but the two host outputs. -/
theorem exec_read {i : Instr} (h : i.isWrite = false) (s : State) : ∃ v, exec i s = .next (acceptRead v s) := by
  cases i <;> cases h <;> exact ⟨_, rfl⟩

theorem exec_rdStatus (s : State) : exec .rdStatus s = .next (acceptRead (statusWord s) s) := rfl

theorem exec_rdSymqFree (s : State) : exec .rdSymqFree s = .next (acceptRead (symqFree s) s) := rfl

/-! ### The STATUS word (10_state.md R46, 40_control.md R103) -/

theorem symqEmpty_eq (s : State) : symqEmpty s = decide (s.symq.committed.length = 0) := by
  rw [Bool.eq_iff_iff]
  simp [symqEmpty]

theorem txIdle_eq (s : State) : txIdle s = decide (s.synth.ws = 0#32 ∧ s.symq.committed.length = 0) := by
  rw [Bool.eq_iff_iff]
  simp [txIdle]

theorem stagedFlag_eq (s : State) : stagedFlag s = decide (0 < s.symq.staged.length) := by
  rw [Bool.eq_iff_iff]
  simp [stagedFlag, List.length_pos_iff]

/-- STATUS with the width of each concatenation written as a sum, the form the library's lemmas on `++` speak of. -/
theorem statusWord_layout (s : State) :
    statusWord s = (BitVec.ofBool s.devReady ++ s.pipe.fillIdx ++ BitVec.ofNat 4 s.pipe.ready.length ++ 0#1 ++
      BitVec.ofBool (stagedFlag s) ++ BitVec.ofBool (txIdle s) ++ BitVec.ofBool (symqEmpty s) ++
      BitVec.ofBool s.synth.tgtValid ++ s.synth.pmode.code ++ BitVec.ofBool s.running).setWidth 64 := rfl

/-- The one-bit fields of STATUS, each the low bit of what is left after dropping the fields below it. -/
theorem statusWord_flags (s : State) :
    (statusWord s).getLsbD 0 = s.running ∧ (statusWord s).getLsbD 3 = s.synth.tgtValid ∧
      (statusWord s).getLsbD 4 = symqEmpty s ∧ (statusWord s).getLsbD 5 = txIdle s ∧
      (statusWord s).getLsbD 6 = stagedFlag s ∧ (statusWord s).getLsbD 7 = false ∧
      (statusWord s).getLsbD 16 = s.devReady := by
  rw [statusWord_layout]
  simp only [BitVec.getLsbD_setWidth, BitVec.getLsbD_append, BitVec.getLsbD_ofBool, BitVec.getLsbD_zero, Nat.reduceLT,
    Nat.reduceSub, if_true, if_false, decide_true, Bool.true_and, and_self]

/-- The wider fields of STATUS. -/
theorem statusWord_codes (s : State) :
    (statusWord s).extractLsb' 1 2 = s.synth.pmode.code ∧
      (statusWord s).extractLsb' 8 4 = BitVec.ofNat 4 s.pipe.ready.length ∧
      (statusWord s).extractLsb' 12 4 = s.pipe.fillIdx := by
  rw [statusWord_layout]
  simp only [BitVec.extractLsb'_setWidth_of_le, BitVec.extractLsb'_append_eq_of_le, BitVec.extractLsb'_append_eq_of_add_le,
    BitVec.extractLsb'_eq_self, Nat.reduceLeDiff, Nat.reduceSub, and_self]

/-- Bits 63:17 of STATUS are 0: the word is extended from 17 bits. -/
theorem statusWord_high (s : State) : (statusWord s).extractLsb' 17 47 = 0#47 := by
  ext i hi
  simp [statusWord]

/-- Settles O18: the read answers the STATUS word, and its fields lie at their bits. -/
theorem readStatusFields : Obligations.ReadStatusFields := by
  intro s
  obtain ⟨hrun, htgt, hempty, hidle, hstaged, hzero, hdev⟩ := statusWord_flags s
  obtain ⟨hpmode, hready, hfill⟩ := statusWord_codes s
  refine ⟨statusWord s, exec_rdStatus s, hrun, ?_, htgt, hempty.trans (symqEmpty_eq s), hidle.trans (txIdle_eq s),
    hstaged.trans (stagedFlag_eq s), hzero, ?_, hfill, hdev, statusWord_high s⟩
  · rw [hpmode]
    cases s.synth.pmode <;> rfl
  · rw [hready]
    exact BitVec.toNat_ofNat _ _

/-! ### The reset state (10_state.md R22, R59) -/

/-- STATUS after reset: TX_IDLE, SYMQ_EMPTY and the level of `dev_ready`. -/
theorem statusWord_reset (p : Params) (b : Bool) :
    statusWord { State.resetWith p with devReady := b } = if b then 0x10030#64 else 0x30#64 := by
  simp only [statusWord, stagedFlag, txIdle, symqEmpty, State.resetWith, Synth.reset, Pipeline.reset]
  cases b <;> decide

/-- After reset the whole symbol FIFO is free. -/
theorem symqFree_reset (p : Params) (b : Bool) :
    symqFree { State.resetWith p with devReady := b } = BitVec.ofNat 64 p.symqDepth := by
  simp [symqFree, State.resetWith]

/-- Settles O12, by the rows of the table: only STATUS and SYMQ_FREE are computed when they are read, every other register
answers a field of the reset state. -/
theorem resetRegisters : Obligations.ResetRegisters := by
  intro p b
  simp only [List.forall_mem_cons]
  refine ⟨rfl, ?status, rfl, rfl, rfl, rfl, rfl, rfl, rfl, rfl, rfl, rfl, rfl, rfl, rfl, rfl, rfl, rfl, rfl, rfl, rfl, rfl,
    ?symqFree, rfl, rfl, rfl, rfl, rfl, rfl, rfl, rfl, rfl, List.forall_mem_nil _⟩
  case status =>
    rw [exec_rdStatus, statusWord_reset]
    rfl
  case symqFree =>
    rw [exec_rdSymqFree, symqFree_reset]
    rfl

/-- Settles O13: each item is the field's reset value, and an empty list of words reads +0.0 at every address. -/
theorem resetInternalState : Obligations.ResetInternalState := fun _ =>
  ⟨rfl, rfl, rfl, rfl, rfl, rfl, rfl, rfl, rfl, fun _ => rfl, rfl, rfl, rfl, fun _ => rfl⟩

/-! ### The checks of a write: what holds of the rejection and of the accepted write holds of the answer -/

theorem unlessBusy_induct {P : State → Prop} {a : RegAddr} {s t : State}
    (hbusy : P (hostError true a .busy s)) (hstopped : s.running = false → P t) : P (unlessBusy a s t) := by
  obtain ⟨-, h⟩ | ⟨hr, h⟩ := unlessBusy_cases a s t <;> rw [h]
  · exact hbusy
  · exact hstopped hr

theorem ifStreaming_induct {P : State → Prop} {m : OpMode} {a : RegAddr} {s t : State}
    (hreject : ∀ c, P (hostError true a c s)) (ht : P t) : P (ifStreaming m a s t) := by
  obtain ⟨-, h⟩ | ⟨-, -, h⟩ | ⟨-, -, h⟩ := ifStreaming_cases m a s t <;> rw [h]
  · exact hreject .mode
  · exact hreject .notRunning
  · exact ht

theorem ifInRange_induct {P : State → Prop} {l : Bool} {a : RegAddr} {s t : State}
    (hreject : P (hostError true a .range s)) (ht : P t) : P (ifInRange l a s t) := by
  obtain ⟨-, h⟩ | ⟨-, h⟩ := ifInRange_cases l a s t <;> rw [h]
  · exact ht
  · exact hreject

theorem ifListed_induct {P : State → Prop} {α : Type} {c : Option α} {a : RegAddr} {s : State} {t : α → State}
    (hreject : P (hostError true a .reservedValue s)) (ht : ∀ x, P (t x)) : P (ifListed c a s t) := by
  obtain ⟨x, -, h⟩ | ⟨-, h⟩ := ifListed_cases c a s t <;> rw [h]
  · exact ht x
  · exact hreject

/-! ### Writes of CFG registers (10_state.md R23) -/

/-- The writes of CFG registers, with their addresses. -/
def cfgWrites (d : Word64) : List (Instr × RegAddr) :=
  [(.wrMode d, 0x08#8), (.wrSampleRate d, 0x09#8), (.wrWaveform d, 0x0A#8), (.wrBufSize d, 0x0B#8),
    (.wrBufCount d, 0x0C#8)]

/-- A write of a CFG register checks BUSY before anything else, and does not touch the parameters. -/
theorem exec_cfgWrites {d : Word64} {x : Instr × RegAddr} (hx : x ∈ cfgWrites d) (s : State) :
    ∃ t, exec x.1 s = .next (unlessBusy x.2 s t) ∧ t.params = s.params := by
  simp only [cfgWrites, List.mem_cons, List.not_mem_nil, or_false] at hx
  obtain rfl | rfl | rfl | rfl | rfl := hx
  · exact ⟨_, rfl, ifListed_induct (P := (·.params = s.params)) rfl fun _ => rfl⟩
  · exact ⟨_, rfl, ifInRange_induct (P := (·.params = s.params)) rfl rfl⟩
  · exact ⟨_, rfl, ifListed_induct (P := (·.params = s.params)) rfl fun _ => rfl⟩
  · exact ⟨_, rfl, ifInRange_induct (P := (·.params = s.params)) rfl rfl⟩
  · exact ⟨_, rfl, ifInRange_induct (P := (·.params = s.params)) rfl rfl⟩

/-- Settles O24: the BUSY check of the five writes fires, and the five reads are answered like every read. -/
theorem cfgWritesBusy : Obligations.CfgWritesBusy := by
  intro s d hrun
  constructor
  · intro x hx
    obtain ⟨t, ht, -⟩ := exec_cfgWrites hx s
    rw [ht, unlessBusy_running hrun]
    rfl
  · intro i hi
    have hread : ∀ i ∈ [Instr.rdMode, .rdSampleRate, .rdWaveform, .rdBufSize, .rdBufCount], i.isWrite = false := by
      decide
    exact exec_read (hread i hi) s

/-! ### The configuration while a stream runs (10_state.md R23, 00_scope.md R6) -/

/-- The parameters are kept, and, if the stream runs before, the CFG registers too. -/
structure KeepsConfig (s t : State) : Prop where
  params : t.params = s.params
  cfg : s.running = true → t.cfg = s.cfg

theorem KeepsConfig.of_eq {s t : State} (hp : t.params = s.params) (hc : t.cfg = s.cfg) : KeepsConfig s t :=
  ⟨hp, fun _ => hc⟩

theorem keepsConfig_hostError (w : Bool) (a : RegAddr) (c : ErrCode) (s : State) : KeepsConfig s (hostError w a c s) :=
  .of_eq rfl rfl

/-- A CFG write that is not rejected with BUSY finds the stream stopped. -/
theorem keepsConfig_unlessBusy {a : RegAddr} {s t : State} (hp : t.params = s.params) :
    KeepsConfig s (unlessBusy a s t) :=
  unlessBusy_induct (keepsConfig_hostError ..) fun hstopped =>
    ⟨hp, fun hrun => absurd hrun (by rw [hstopped]; decide)⟩

theorem exec_cfgWrites_keepsConfig {i : Instr} {d : Word64} (hi : (i, i.addr) ∈ cfgWrites d) (s : State) :
    ∃ t, exec i s = .next t ∧ KeepsConfig s t := by
  obtain ⟨t, ht, hp⟩ := exec_cfgWrites hi s
  exact ⟨_, ht, keepsConfig_unlessBusy hp⟩

theorem exec_start_keepsConfig (s : State) : ∃ t, exec .start s = .next t ∧ KeepsConfig s t := by
  refine ⟨_, rfl, ?_⟩
  split
  · exact .of_eq rfl rfl
  · split
    · split
      · exact .of_eq rfl rfl
      · exact keepsConfig_hostError ..
    · exact keepsConfig_hostError ..

theorem keepsConfig_stageFrame (b : BitVec 8) (s : State) : KeepsConfig s (stageFrame b s) := by
  unfold stageFrame
  split
  · exact .of_eq rfl rfl
  · exact keepsConfig_hostError ..

theorem exec_txByte_keepsConfig (d : Word64) (s : State) : ∃ t, exec (.txByte d) s = .next t ∧ KeepsConfig s t := by
  refine ⟨_, rfl, ifStreaming_induct (fun _ => keepsConfig_hostError ..) ?_⟩
  split
  · exact keepsConfig_stageFrame ..
  · exact keepsConfig_hostError ..

/-- Every operation is answered and keeps the configuration: a read changes no state, a CFG write is checked for BUSY, and no
other write stores into the CFG registers. -/
theorem exec_keepsConfig (i : Instr) (s : State) : ∃ t, exec i s = .next t ∧ KeepsConfig s t := by
  cases hw : i.isWrite with
  | false =>
    obtain ⟨v, hv⟩ := exec_read hw s
    exact ⟨_, hv, .of_eq rfl rfl⟩
  | true =>
    match i, hw with
    | .wrMode d, _ | .wrSampleRate d, _ | .wrWaveform d, _ | .wrBufSize d, _ | .wrBufCount d, _ =>
      exact exec_cfgWrites_keepsConfig (d := d) (by simp [cfgWrites, Instr.addr]) s
    | .clrErr, _ | .stop, _ => exact ⟨_, rfl, .of_eq rfl rfl⟩
    | .start, _ => exact exec_start_keepsConfig s
    | .txByte d, _ => exact exec_txByte_keepsConfig d s
    | .txCommit, _ | .txAbort, _ | .deactivate, _ =>
      exact ⟨_, rfl, ifStreaming_induct (fun _ => keepsConfig_hostError ..) (.of_eq rfl rfl)⟩
    | .activate, _ =>
      exact ⟨_, rfl, ifStreaming_induct (fun _ => keepsConfig_hostError ..)
        (.of_eq (enterRamping_params s) (enterRamping_cfg s))⟩
    | .wrDataBits d, _ | .wrParity d, _ | .wrStopBits d, _ =>
      exact ⟨_, rfl, ifListed_induct (keepsConfig_hostError ..) fun _ => .of_eq rfl rfl⟩
    | .wrVolume d, _ =>
      exact ⟨_, rfl, ifInRange_induct (keepsConfig_hostError ..) (.of_eq (storeVolume_params d s) (storeVolume_cfg d s))⟩
    | .wrFreqRaiseRate d, _ =>
      exact ⟨_, rfl, ifInRange_induct (keepsConfig_hostError ..)
        (.of_eq (storeFreqRaiseRate_params d s) (storeFreqRaiseRate_cfg d s))⟩
    | .wrVolRaiseRate d, _ =>
      exact ⟨_, rfl, ifInRange_induct (keepsConfig_hostError ..)
        (.of_eq (storeVolRaiseRate_params d s) (storeVolRaiseRate_cfg d s))⟩
    | .wrFreq d, _ | .wrEnvK1 d, _ | .wrEnvK2 d, _ | .wrHoldDuration d, _ | .wrMarkFreq d, _ | .wrSpaceFreq d, _
    | .wrBaud d, _ | .wrIdleFreq d, _ =>
      exact ⟨_, rfl, ifInRange_induct (keepsConfig_hostError ..) (.of_eq rfl rfl)⟩

theorem hostAct_of_decode_ok {w : Bus73} {i : Instr} (h : decode w = .ok i) (s : State) :
    hostAct (some w) s = exec i s := by
  simp only [hostAct, h]

theorem hostAct_of_decode_error {w : Bus73} {v : Verdict} (h : decode w = .error v) (s : State) :
    hostAct (some w) s = .next (hostError (fieldW w) (fieldA w) (verdictCode v) s) := by
  simp only [hostAct, h]

/-- The host's action keeps the configuration, whatever word it presents. -/
theorem hostAct_keepsConfig (w : Option Bus73) (s : State) : ∃ u, hostAct w s = .next u ∧ KeepsConfig s u := by
  cases w with
  | none => exact ⟨s, rfl, .of_eq rfl rfl⟩
  | some w =>
    cases hd : decode w with
    | error v => exact ⟨_, hostAct_of_decode_error hd s, keepsConfig_hostError ..⟩
    | ok i =>
      rw [hostAct_of_decode_ok hd]
      exact exec_keepsConfig i s

/-- A POP does not write the parameters or the CFG registers (20_memory.md R74). -/
theorem consumerAct_config {req : Bool} {s t : State} (h : consumerAct req s = .next t) :
    t.params = s.params ∧ t.cfg = s.cfg := by
  cases req with
  | false =>
    cases h
    exact ⟨rfl, rfl⟩
  | true =>
    change consumerPop s = .next t at h
    obtain ⟨-, e⟩ | ⟨-, -, e⟩ | ⟨_, _, -, -, -, e⟩ | ⟨_, _, _, -, -, -, e⟩ := consumerPop_cases s <;> rw [e] at h
    · cases h; exact ⟨rfl, rfl⟩
    · cases h; exact ⟨rfl, rfl⟩
    · cases h
    · cases h; exact ⟨rfl, rfl⟩

/-- The producer does not write the parameters or the CFG registers (20_memory.md R74). -/
theorem producerAct_config {s t : State} (h : producerAct s = .next t) : t.params = s.params ∧ t.cfg = s.cfg := by
  obtain ⟨-, e⟩ | ⟨-, -, e⟩ | ⟨-, -, -, e⟩ | ⟨-, -, -, e⟩ := producerAct_cases s <;> rw [e] at h
  · cases h; exact ⟨rfl, rfl⟩
  · obtain ⟨-, rfl⟩ := sampleStep_eq_next.1 h
    exact ⟨beforeSample_params s, beforeSample_cfg s⟩
  · cases h; exact ⟨rfl, rfl⟩
  · cases h; exact ⟨rfl, rfl⟩

/-- Settles O53: of the three actions of a cycle only the host's can write the CFG registers, and not while the stream
runs. -/
theorem configurationFixed : Obligations.ConfigurationFixed := by
  intro s t h
  cases hrst : (nextInputs s).rst with
  | true =>
    rw [step_reset hrst] at h
    cases h
    exact ⟨resetCycle_params s, fun hlow => absurd hlow (by decide)⟩
  | false =>
    rw [step_cycle hrst] at h
    obtain ⟨u, v, hhost, hcons, hprod⟩ := cycle_eq_next.1 h
    obtain ⟨u', hhost', hkeep⟩ := hostAct_keepsConfig (nextInputs s).host (beginCycle s)
    obtain rfl : u' = u := by rw [hhost'] at hhost; injection hhost
    obtain ⟨hvp, hvc⟩ := consumerAct_config hcons
    obtain ⟨htp, htc⟩ := producerAct_config hprod
    exact ⟨htp.trans (hvp.trans hkeep.params), fun _ hrun => htc.trans (hvc.trans (hkeep.cfg hrun))⟩

end Sys2Proof.Machine
end

section
/-! PROOFS. The agents of a cycle and the state each of them writes (20_memory.md R69, R74). -/

namespace Sys2Proof.Machine

/-! ### What the consumer writes (20_memory.md R74) -/

/-- The frame of the consumer: outside `ready`, `out_buf`, `underruns` and its two outputs the state is kept. -/
theorem consumerAct_frame {r : Bool} {s t : State} (h : consumerAct r s = .next t) :
    t = { s with
      pipe.ready := t.pipe.ready, pipe.outBuf := t.pipe.outBuf, pipe.underruns := t.pipe.underruns,
      out.frameValid := t.out.frameValid, out.underrun := t.out.underrun } := by
  cases r with
  | false =>
    cases h
    rfl
  | true =>
    change consumerPop s = .next t at h
    obtain ⟨-, e⟩ | ⟨-, -, e⟩ | ⟨_, _, -, -, -, e⟩ | ⟨_, _, _, -, -, -, e⟩ := consumerPop_cases s <;> rw [e] at h
    · cases h; rfl
    · cases h; rfl
    · cases h
    · cases h; rfl

/-! ### What the host's operations write (20_memory.md R74) -/

/-- The pipeline and the oscillator, envelope, period and scheduler state are kept. -/
structure KeepsProducer (s t : State) : Prop where
  pipe : t.pipe = s.pipe
  synth : t.synth = s.synth

theorem keepsProducer_hostError (w : Bool) (a : RegAddr) (c : ErrCode) (s : State) :
    KeepsProducer s (hostError w a c s) :=
  ⟨rfl, rfl⟩

theorem keepsProducer_stageFrame (b : BitVec 8) (s : State) : KeepsProducer s (stageFrame b s) := by
  unfold stageFrame
  split
  · exact ⟨rfl, rfl⟩
  · exact keepsProducer_hostError ..

theorem exec_txByte_keepsProducer (d : Word64) (s : State) :
    ∃ t, exec (.txByte d) s = .next t ∧ KeepsProducer s t := by
  refine ⟨_, rfl, ifStreaming_induct (fun _ => keepsProducer_hostError ..) ?_⟩
  split
  · exact keepsProducer_stageFrame ..
  · exact keepsProducer_hostError ..

/-- The operations other than START that may write the oscillator, envelope, period and scheduler state. -/
def writesSynth : Instr → Bool
  | .wrVolume _ | .wrFreqRaiseRate _ | .wrVolRaiseRate _ | .activate | .deactivate => true
  | _ => false

/-- The operations that may write the oscillator, envelope, period and scheduler state do not write the pipeline. -/
theorem exec_writesSynth_pipe {i : Instr} (hi : writesSynth i = true) (s : State) :
    ∃ t, exec i s = .next t ∧ t.pipe = s.pipe := by
  match i, hi with
  | .wrVolume d, _ => exact ⟨_, rfl, ifInRange_induct (P := (·.pipe = s.pipe)) rfl (storeVolume_pipe d s)⟩
  | .wrFreqRaiseRate d, _ =>
    exact ⟨_, rfl, ifInRange_induct (P := (·.pipe = s.pipe)) rfl (storeFreqRaiseRate_pipe d s)⟩
  | .wrVolRaiseRate d, _ =>
    exact ⟨_, rfl, ifInRange_induct (P := (·.pipe = s.pipe)) rfl (storeVolRaiseRate_pipe d s)⟩
  | .activate, _ => exact ⟨_, rfl, ifStreaming_induct (P := (·.pipe = s.pipe)) (fun _ => rfl) (enterRamping_pipe s)⟩
  | .deactivate, _ => exact ⟨_, rfl, ifStreaming_induct (P := (·.pipe = s.pipe)) (fun _ => rfl) rfl⟩

/-- Every other operation keeps both, whichever of its checks rejects it: a read changes no state, and a write stores into CFG,
LIVE, ERR, `running` or the symbol FIFO. -/
theorem exec_keepsProducer {i : Instr} (hstart : i ≠ .start) (hi : writesSynth i = false) (s : State) :
    ∃ t, exec i s = .next t ∧ KeepsProducer s t := by
  cases hw : i.isWrite with
  | false =>
    obtain ⟨v, hv⟩ := exec_read hw s
    exact ⟨_, hv, rfl, rfl⟩
  | true =>
    match i, hw with
    | .start, _ => exact absurd rfl hstart
    | .wrVolume _, _ | .wrFreqRaiseRate _, _ | .wrVolRaiseRate _, _ | .activate, _ | .deactivate, _ => cases hi
    | .clrErr, _ | .stop, _ => exact ⟨_, rfl, rfl, rfl⟩
    | .txByte d, _ => exact exec_txByte_keepsProducer d s
    | .txCommit, _ | .txAbort, _ =>
      exact ⟨_, rfl, ifStreaming_induct (fun _ => keepsProducer_hostError ..) ⟨rfl, rfl⟩⟩
    | .wrMode d, _ | .wrWaveform d, _ =>
      exact ⟨_, rfl, unlessBusy_induct (keepsProducer_hostError ..) fun _ =>
        ifListed_induct (keepsProducer_hostError ..) fun _ => ⟨rfl, rfl⟩⟩
    | .wrSampleRate d, _ | .wrBufSize d, _ | .wrBufCount d, _ =>
      exact ⟨_, rfl, unlessBusy_induct (keepsProducer_hostError ..) fun _ =>
        ifInRange_induct (keepsProducer_hostError ..) ⟨rfl, rfl⟩⟩
    | .wrDataBits d, _ | .wrParity d, _ | .wrStopBits d, _ =>
      exact ⟨_, rfl, ifListed_induct (keepsProducer_hostError ..) fun _ => ⟨rfl, rfl⟩⟩
    | .wrFreq d, _ | .wrEnvK1 d, _ | .wrEnvK2 d, _ | .wrHoldDuration d, _ | .wrMarkFreq d, _ | .wrSpaceFreq d, _
    | .wrBaud d, _ | .wrIdleFreq d, _ =>
      exact ⟨_, rfl, ifInRange_induct (keepsProducer_hostError ..) ⟨rfl, rfl⟩⟩

/-- `writesSynth` lists no operation but those the statement excepts. -/
theorem writesSynth_eq_false {i : Instr}
    (hwr : ∀ d, i ≠ .wrVolume d ∧ i ≠ .wrFreqRaiseRate d ∧ i ≠ .wrVolRaiseRate d) (hact : i ≠ .activate)
    (hdeact : i ≠ .deactivate) : writesSynth i = false := by
  obtain ⟨hvolume, hfreqRate, hvolRate⟩ := by simpa only [forall_and] using hwr
  refine Bool.eq_false_iff.2 fun h => ?_
  match i, h with
  | .wrVolume d, _ => exact hvolume d rfl
  | .wrFreqRaiseRate d, _ => exact hfreqRate d rfl
  | .wrVolRaiseRate d, _ => exact hvolRate d rfl
  | .activate, _ => exact hact rfl
  | .deactivate, _ => exact hdeact rfl

/-- Settles O52: the consumer by its frame, a host operation by whether it is one of the five that may write the oscillator,
envelope, period and scheduler state. -/
theorem agentsWriteOwnState : Obligations.AgentsWriteOwnState := by
  refine ⟨fun _ _ _ h => consumerAct_frame h, fun i s t h hstart => ?_⟩
  cases hi : writesSynth i with
  | true =>
    obtain ⟨t', ht', hpipe⟩ := exec_writesSynth_pipe hi s
    obtain rfl : t' = t := by rw [ht'] at h; injection h
    exact ⟨hpipe, fun hwr hact hdeact => absurd hi (by rw [writesSynth_eq_false hwr hact hdeact]; decide)⟩
  | false =>
    obtain ⟨t', ht', hkeep⟩ := exec_keepsProducer hstart hi s
    obtain rfl : t' = t := by rw [ht'] at h; injection h
    exact ⟨hkeep.pipe, fun _ _ _ => hkeep.synth⟩

/-! ### The order of the agents in a cycle (20_memory.md R69) -/

theorem nextInputs_cons {s : State} {c : CycleInputs} {rest : List CycleInputs} (h : s.inputs = c :: rest) :
    nextInputs s = c := by
  simp only [nextInputs, h]

theorem beginCycle_cons {s : State} {c : CycleInputs} {rest : List CycleInputs} (h : s.inputs = c :: rest) :
    beginCycle s = { s with inputs := rest, devReady := c.devReady, out := Outputs.quiet } := by
  simp only [beginCycle, nextInputs_cons h, h, List.tail_cons]

/-- Once the host's action is answered, the cycle is the consumer's action and then the producer's. -/
theorem cycle_of_hostAct {c : CycleInputs} {s u : State} (h : hostAct c.host s = .next u) :
    cycle c s = andThen (consumerAct c.frameReq u) producerAct := by
  rw [cycle, h, andThen_next]

theorem consumerAct_false (s : State) : consumerAct false s = .next s := rfl

/-- Settles O9: the host's action is answered for every word, and the cycle goes on from its answer. -/
theorem stepRunsDecoded : Obligations.StepRunsDecoded := by
  rintro s _ c rest w hin hrst hhost rfl
  obtain ⟨u, hu, -⟩ := hostAct_keepsConfig (some w) (beginCycle s)
  have hstep : step s = andThen (consumerAct c.frameReq u) producerAct := by
    rw [step_cycle (by rw [nextInputs_cons hin, hrst]), nextInputs_cons hin, cycle_of_hostAct (by rw [hhost, hu])]
  rw [beginCycle_cons hin] at hu
  refine ⟨u, hu, fun i hd => ?decodes, fun v hd => ?rejected, hstep, fun hreq => ?noRequest⟩
  case decodes => exact (hostAct_of_decode_ok hd _).symm.trans hu
  case rejected =>
    rw [hostAct_of_decode_error hd] at hu
    injection hu with hu
    rw [← hu]
    cases v <;> rfl
  case noRequest => rw [hstep, hreq, consumerAct_false, andThen_next]

end Sys2Proof.Machine
end

section
/-! PROOFS. The words of the opcode map, their decoding and encoding, and the words that are no operation (30_encoding.md R80,
R85 to R90). -/

namespace Sys2Proof

/-! ### The fields of a word (R80) -/

theorem bus73_toNat (w : Bool) (a : RegAddr) (d : Word64) :
    (bus73 w a d).toNat = w.toNat * 2 ^ 72 + a.toNat * 2 ^ 64 + d.toNat := by
  have hbits : (bus73 w a d).toNat = (w.toNat <<< 8 ||| a.toNat) <<< 64 ||| d.toNat := by
    rw [bus73, BitVec.toNat_append, BitVec.toNat_append, BitVec.toNat_ofBool]
  rw [hbits, ← Nat.shiftLeft_add_eq_or_of_lt a.isLt, ← Nat.shiftLeft_add_eq_or_of_lt d.isLt, Nat.shiftLeft_eq,
    Nat.shiftLeft_eq]
  omega

/-- Words are equal when their three fields are. -/
theorem bus73_ext_iff {t u : Bus73} : t = u ↔ fieldW t = fieldW u ∧ fieldA t = fieldA u ∧ fieldD t = fieldD u := by
  constructor
  · rintro rfl
    exact ⟨rfl, rfl, rfl⟩
  · rintro ⟨hw, ha, hd⟩
    rw [← bus73_fields t, ← bus73_fields u, hw, ha, hd]

@[simp] theorem fieldW_and (t m : Bus73) : fieldW (t &&& m) = (fieldW t && fieldW m) := BitVec.getLsbD_and

@[simp] theorem fieldA_and (t m : Bus73) : fieldA (t &&& m) = fieldA t &&& fieldA m := BitVec.extractLsb'_and

@[simp] theorem fieldD_and (t m : Bus73) : fieldD (t &&& m) = fieldD t &&& fieldD m := BitVec.extractLsb'_and

/-- The selection of a read does not look at DATA. -/
theorem selectOp_read (a : RegAddr) (d d' : Word64) : selectOp false a d = selectOp false a d' := rfl

theorem decode_bus73_read (a : RegAddr) (d d' : Word64) : decode (bus73 false a d) = decode (bus73 false a d') := by
  simp only [decode, fieldW_bus73, fieldA_bus73, fieldD_bus73, selectOp_read a d d']

/-- Settles O8: the word as a number, and the fields of a word that was built from its fields. -/
theorem wordFields : Obligations.WordFields := fun w a d d' =>
  ⟨bus73_toNat w a d, fieldW_bus73 w a d, fieldA_bus73 w a d, fieldD_bus73 w a d, decode_bus73_read a d d'⟩

/-! ### The rows of the opcode map (R86, R87) -/

/-- The DATA of a word that a row matches: any, where the mask leaves DATA out, and the match's own otherwise. -/
def OpcodeRow.fitData (r : OpcodeRow) (d : Word64) : Word64 :=
  if fieldD r.mask = 0#64 then d else fieldD r.pattern

/-- What `OpcodeRow.selects` says of the fields of a word, for the rows of the opcode map (`selects_iff_fits`). -/
structure OpcodeRow.Fits (r : OpcodeRow) (w : Bool) (a : RegAddr) (d : Word64) : Prop where
  w : fieldW r.pattern = w
  addr : fieldA r.pattern = a
  data : r.fitData d = d

/-- A row's mask covers W and ADDR, and DATA either not at all or wholly. -/
theorem opcodeMap_masks : ∀ r ∈ opcodeMap, fieldW r.mask = true ∧ fieldA r.mask = BitVec.allOnes 8 ∧
    (fieldD r.mask = 0#64 ∧ fieldD r.pattern = 0#64 ∨ fieldD r.mask = BitVec.allOnes 64) := by decide +kernel

/-- A row matches the words with its W and ADDR and, where it selects by DATA, its DATA. -/
theorem selects_iff_fits {r : OpcodeRow} (hr : r ∈ opcodeMap) (t : Bus73) :
    r.selects t ↔ r.Fits (fieldW t) (fieldA t) (fieldD t) := by
  obtain ⟨hw, ha, hd⟩ := opcodeMap_masks r hr
  have hdata : fieldD t &&& fieldD r.mask = fieldD r.pattern ↔ r.fitData (fieldD t) = fieldD t := by
    obtain ⟨hmask, hpat⟩ | hmask := hd
    · simp [OpcodeRow.fitData, hmask, hpat]
    · rw [OpcodeRow.fitData, hmask, BitVec.and_allOnes, if_neg (by decide), eq_comm]
  rw [OpcodeRow.selects, bus73_ext_iff, fieldW_and, fieldA_and, fieldD_and, hw, ha, hdata, Bool.and_true,
    BitVec.and_allOnes, eq_comm, eq_comm (a := fieldA t)]
  exact ⟨fun ⟨hw, ha, hd⟩ => ⟨hw, ha, hd⟩, fun ⟨hw, ha, hd⟩ => ⟨hw, ha, hd⟩⟩

/-- Two rows that match one word agree wherever both masks look. -/
theorem selects_overlap {r r' : OpcodeRow} {t : Bus73} (h : r.selects t) (h' : r'.selects t) :
    r.pattern &&& r'.mask = r'.pattern &&& r.mask := by
  rw [← show _ = r.pattern from h, ← show _ = r'.pattern from h', BitVec.and_assoc, BitVec.and_assoc,
    BitVec.and_comm r.mask]

/-- No two rows of the table agree wherever both masks look. -/
theorem opcodeMap_overlap : ∀ r ∈ opcodeMap, ∀ r' ∈ opcodeMap,
    r.pattern &&& r'.mask = r'.pattern &&& r.mask → r.mnemonic = r'.mnemonic := by decide +kernel

/-- Settles O2: a word that two rows match would make their matches agree under both masks. -/
theorem opcodeRowsDisjoint : Obligations.OpcodeRowsDisjoint := fun r hr r' hr' _ h h' =>
  opcodeMap_overlap r hr r' hr' (selects_overlap h h')

/-! ### The selection of an operation is the opcode map (R86, R87) -/

/-- A word that fits a row selects that row's operation. -/
theorem selectOp_fitData : ∀ r ∈ opcodeMap, ∀ d,
    selectOp (fieldW r.pattern) (fieldA r.pattern) (r.fitData d) = some (r.op (r.fitData d)) := by
  simp only [opcodeMap, List.forall_mem_cons, List.not_mem_nil, false_implies, implies_true, and_true]
  and_intros <;> exact fun _ => rfl

/-- A selected operation's row fits: the address selects it and, for the six commands of CMD and ACTIVATE, DATA. The rows stand
in the order of the constructors. -/
theorem fits_of_selectOp {w : Bool} {a : RegAddr} {d : Word64} {i : Instr} :
    selectOp w a d = some i → ∃ r, opcodeMap[i.ctorIdx]? = some r ∧ r.Fits w a d ∧ r.op d = i := by
  fun_cases selectOp w a d <;> intro h <;> cases h
  case case35 | case36 | case37 | case38 | case47 | case48 =>
    rename_i ha hd
    exact ⟨_, rfl, ⟨rfl, BitVec.eq_of_toNat_eq ha.symm, BitVec.eq_of_toNat_eq hd.symm⟩, rfl⟩
  all_goals
    rename_i ha
    exact ⟨_, rfl, ⟨rfl, BitVec.eq_of_toNat_eq ha.symm, rfl⟩, rfl⟩

theorem selectOp_eq_some_iff {w : Bool} {a : RegAddr} {d : Word64} {i : Instr} :
    selectOp w a d = some i ↔ ∃ r ∈ opcodeMap, r.Fits w a d ∧ r.op d = i := by
  constructor
  · intro h
    obtain ⟨r, hr, hfits⟩ := fits_of_selectOp h
    exact ⟨r, List.mem_of_getElem? hr, hfits⟩
  · rintro ⟨r, hr, ⟨rfl, rfl, hd⟩, rfl⟩
    have h := selectOp_fitData r hr d
    rwa [hd] at h

/-- Every row's address is in the register map, and its access column permits the row's direction. -/
theorem opcodeMap_permitted : ∀ r ∈ opcodeMap,
    (regAt? (fieldA r.pattern)).any (·.access.permits (fieldW r.pattern)) = true := by decide +kernel

/-- Of the decoder's three tests the last implies the others: no row is at a reserved address or in a wrong direction. -/
theorem decode_eq_ok_iff {t : Bus73} {i : Instr} :
    decode t = .ok i ↔ selectOp (fieldW t) (fieldA t) (fieldD t) = some i := by
  constructor
  · intro h
    obtain ⟨-, e⟩ | ⟨-, -, -, e⟩ | ⟨-, -, -, -, e⟩ | ⟨-, j, -, -, hsel, e⟩ := decode_cases t <;> rw [e] at h
    · cases h
    · cases h
    · cases h
    · rw [hsel, Except.ok.inj h]
  · intro hsel
    obtain ⟨r, hr, hfits, -⟩ := selectOp_eq_some_iff.1 hsel
    have hperm := opcodeMap_permitted r hr
    rw [hfits.w, hfits.addr] at hperm
    obtain ⟨q, hq, hpermits⟩ := (Option.any_eq_true _ _).1 hperm
    simp only [decode, hq, hpermits, hsel, if_true]

/-- Settles O1: a word decodes to what its fields select, and the selection is the opcode map's. -/
theorem decodeFollowsOpcodeMap : Obligations.DecodeFollowsOpcodeMap := by
  intro t i
  rw [decode_eq_ok_iff, selectOp_eq_some_iff]
  exact exists_congr fun r => and_congr_right fun hr => and_congr_left' (selects_iff_fits hr t).symm

/-! ### Encoding (R87) -/

/-- The fields that the encoder writes select the operation again. -/
theorem selectOp_encoded (i : Instr) : selectOp i.isWrite i.addr i.data = some i := by
  cases i <;> rfl

/-- Settles O3: the decoder reads the fields back that the encoder wrote, and they select the operation. -/
theorem decodeEncode : Obligations.DecodeEncode := by
  intro i
  rw [decode_eq_ok_iff, encode, fieldW_bus73, fieldA_bus73, fieldD_bus73]
  exact selectOp_encoded i

theorem decode_eq_ok_of_encode {t : Bus73} {i : Instr} (h : encode i = t) : decode t = .ok i :=
  h ▸ decodeEncode i

/-- Settles O4: each of the words is the encoding of its operation. -/
theorem specWordsDecode : Obligations.SpecWordsDecode :=
  ⟨decode_eq_ok_of_encode rfl, decode_eq_ok_of_encode rfl, decode_eq_ok_of_encode rfl, decode_eq_ok_of_encode rfl,
    decode_eq_ok_of_encode rfl, decode_eq_ok_of_encode rfl, decode_eq_ok_of_encode rfl, decode_eq_ok_of_encode rfl,
    decode_eq_ok_of_encode rfl, decode_eq_ok_of_encode rfl⟩

end Sys2Proof
end

section
/-! PROOFS. The words that are no operation and their rejection (30_encoding.md R88 to R90, 60_exceptions.md R257). -/

namespace Sys2Proof.Machine

/-! ### Which words get which verdict -/

theorem decode_eq_badAddr_iff {t : Bus73} : decode t = .error .badAddr ↔ regAt? (fieldA t) = none := by
  obtain ⟨ha, e⟩ | ⟨r, ha, -, e⟩ | ⟨r, ha, -, -, e⟩ | ⟨r, i, ha, -, -, e⟩ := decode_cases t <;> simp [ha, e]

/-- The access column of the register at the address does not permit the direction. -/
theorem decode_eq_access_iff {t : Bus73} :
    decode t = .error .access ↔ (regAt? (fieldA t)).any (fun r => !r.access.permits (fieldW t)) = true := by
  obtain ⟨ha, e⟩ | ⟨r, ha, hp, e⟩ | ⟨r, ha, hp, -, e⟩ | ⟨r, i, ha, hp, -, e⟩ := decode_cases t <;>
    rw [e, ha] <;> simp [*]

theorem decode_eq_reservedValue_iff {t : Bus73} :
    decode t = .error .reservedValue ↔ (regAt? (fieldA t)).any (·.access.permits (fieldW t)) = true ∧
      selectOp (fieldW t) (fieldA t) (fieldD t) = none := by
  obtain ⟨ha, e⟩ | ⟨r, ha, hp, e⟩ | ⟨r, ha, hp, hs, e⟩ | ⟨r, i, ha, hp, hs, e⟩ := decode_cases t <;>
    rw [e, ha] <;> simp [*]

/-! ### Reserved addresses (R88) and wrong directions (R89) -/

/-- The gaps of the register map, checked at each of the 256 addresses. -/
theorem regAt?_eq_none_iff : ∀ a : RegAddr, regAt? a = none ↔
    (0x04 ≤ a.toNat ∧ a.toNat ≤ 0x07) ∨ (0x0D ≤ a.toNat ∧ a.toNat ≤ 0x0F) ∨ (0x14 ≤ a.toNat ∧ a.toNat ≤ 0x17) ∨
      (0x1C ≤ a.toNat ∧ a.toNat ≤ 0x1F) ∨ (0x29 ≤ a.toNat ∧ a.toNat ≤ 0x2F) ∨ 0x39 ≤ a.toNat := by decide +kernel

/-- Settles O5: the reserved addresses are the gaps of the register map. -/
theorem reservedAddressRejected : Obligations.ReservedAddressRejected := fun t s =>
  ⟨decode_eq_badAddr_iff.trans (regAt?_eq_none_iff (fieldA t)), fun h => hostAct_of_decode_error h s⟩

/-- The read-only and the write-only registers, checked at each of the 256 addresses in both directions. -/
theorem regAt?_notPermitted_iff : ∀ (w : Bool) (a : RegAddr),
    (regAt? a).any (fun r => !r.access.permits w) = true ↔
      (w = true ∧ a ∈ [0x00#8, 0x01#8, 0x28#8, 0x30#8, 0x31#8, 0x32#8, 0x33#8, 0x34#8, 0x35#8, 0x36#8, 0x37#8, 0x38#8]) ∨
      (w = false ∧ a ∈ [0x02#8, 0x1B#8, 0x27#8]) := by decide +kernel

/-- Settles O6: the access column of the register map, read for both directions. -/
theorem wrongDirectionRejected : Obligations.WrongDirectionRejected := fun t s =>
  ⟨decode_eq_access_iff.trans (regAt?_notPermitted_iff (fieldW t) (fieldA t)), fun h => hostAct_of_decode_error h s⟩

/-! ### Reserved command values (R90) -/

/-- The DATA values that a write of a command register may have; none at every other address. -/
def commandCodes (a : RegAddr) : List Word64 :=
  if a = 0x02#8 then [1#64, 2#64, 3#64, 4#64] else if a = 0x1B#8 then [0#64, 1#64] else []

theorem commandCodes_ne_nil {a : RegAddr} (h : commandCodes a ≠ []) : a = 0x02#8 ∨ a = 0x1B#8 := by
  by_contra hne
  obtain ⟨hcmd, hactivate⟩ := not_or.1 hne
  exact h (by rw [commandCodes, if_neg hcmd, if_neg hactivate])

/-- A register with codes is writable. -/
theorem permits_write_of_commandCodes {a : RegAddr} (h : commandCodes a ≠ []) :
    (regAt? a).any (·.access.permits true) = true := by
  obtain rfl | rfl := commandCodes_ne_nil h <;> rfl

/-- Each code selects a command. -/
theorem selectOp_of_mem_commandCodes {a : RegAddr} {d : Word64} (hd : d ∈ commandCodes a) :
    ∃ i, selectOp true a d = some i := by
  obtain rfl | rfl := commandCodes_ne_nil (List.ne_nil_of_mem hd)
  · have hcodes : d ∈ [1#64, 2#64, 3#64, 4#64] := hd
    simp only [List.mem_cons, List.not_mem_nil, or_false] at hcodes
    obtain rfl | rfl | rfl | rfl := hcodes <;> exact ⟨_, rfl⟩
  · have hcodes : d ∈ [0#64, 1#64] := hd
    simp only [List.mem_cons, List.not_mem_nil, or_false] at hcodes
    obtain rfl | rfl := hcodes <;> exact ⟨_, rfl⟩

/-- The rows of a command register are those of its codes, and every other access that the register map permits has a row
that leaves DATA out. -/
theorem regMap_rows : ∀ q ∈ regMap, ∀ w, q.access.permits w = true →
    if w = true ∧ commandCodes q.addr ≠ [] then
      ∀ r ∈ opcodeMap, fieldW r.pattern = w → fieldA r.pattern = q.addr →
        fieldD r.mask ≠ 0#64 ∧ fieldD r.pattern ∈ commandCodes q.addr
    else ∃ r ∈ opcodeMap, fieldW r.pattern = w ∧ fieldA r.pattern = q.addr ∧ fieldD r.mask = 0#64 := by decide +kernel

theorem regAt?_eq_some {a : RegAddr} {q : RegRow} (h : regAt? a = some q) : q ∈ regMap ∧ q.addr = a :=
  ⟨List.mem_of_find?_eq_some h, by simpa using List.find?_some h⟩

/-- A permitted access selects no operation exactly when it is a command write with an unlisted code. -/
theorem selectOp_eq_none_iff {w : Bool} {a : RegAddr} {d : Word64}
    (hperm : (regAt? a).any (·.access.permits w) = true) :
    selectOp w a d = none ↔ (w = true ∧ commandCodes a ≠ []) ∧ d ∉ commandCodes a := by
  obtain ⟨q, hq, hw⟩ := (Option.any_eq_true _ _).1 hperm
  obtain ⟨hmem, rfl⟩ := regAt?_eq_some hq
  have hrows := regMap_rows q hmem w hw
  split at hrows
  · next hcmd =>
    obtain ⟨rfl, hcodes⟩ := hcmd
    have hlisted : (∃ i, selectOp true q.addr d = some i) ↔ d ∈ commandCodes q.addr := by
      refine ⟨fun ⟨i, hsel⟩ => ?_, selectOp_of_mem_commandCodes⟩
      obtain ⟨r, hr, hfits, -⟩ := selectOp_eq_some_iff.1 hsel
      obtain ⟨hmask, hcode⟩ := hrows r hr hfits.w hfits.addr
      rw [← hfits.data, OpcodeRow.fitData, if_neg hmask]
      exact hcode
    rw [← hlisted, Option.eq_none_iff_forall_ne_some, not_exists]
    exact ⟨fun hnone => ⟨⟨rfl, hcodes⟩, hnone⟩, fun h => h.2⟩
  · next hcmd =>
    obtain ⟨r, hr, hrw, hra, hmask⟩ := hrows
    have hsel : selectOp w q.addr d = some (r.op d) := selectOp_eq_some_iff.2 ⟨r, hr, ⟨hrw, hra, if_pos hmask⟩, rfl⟩
    exact ⟨fun hnone => absurd hnone (by rw [hsel]; exact Option.some_ne_none _), fun h => absurd h.1 hcmd⟩

theorem unlistedCode_iff (a : RegAddr) (d : Word64) :
    commandCodes a ≠ [] ∧ d ∉ commandCodes a ↔
      (a = 0x02#8 ∧ d ∉ [1#64, 2#64, 3#64, 4#64]) ∨ (a = 0x1B#8 ∧ d ∉ [0#64, 1#64]) := by
  unfold commandCodes
  split
  · next h => simp [h]
  · next h => split <;> simp [*]

theorem decode_eq_reservedValue_iff_unlisted {t : Bus73} :
    decode t = .error .reservedValue ↔
      (fieldW t = true ∧ commandCodes (fieldA t) ≠ []) ∧ fieldD t ∉ commandCodes (fieldA t) := by
  rw [decode_eq_reservedValue_iff]
  constructor
  · exact fun ⟨hperm, hsel⟩ => (selectOp_eq_none_iff hperm).1 hsel
  · intro h
    have hperm : (regAt? (fieldA t)).any (·.access.permits (fieldW t)) = true := by
      rw [h.1.1]
      exact permits_write_of_commandCodes h.1.2
    exact ⟨hperm, (selectOp_eq_none_iff hperm).2 h⟩

/-- Settles O7: of the accesses the register map permits, only the command writes have DATA values without a row. -/
theorem reservedCommandRejected : Obligations.ReservedCommandRejected := fun t s =>
  ⟨by rw [decode_eq_reservedValue_iff_unlisted, and_assoc, unlistedCode_iff], fun h => hostAct_of_decode_error h s⟩

end Sys2Proof.Machine
end

section
/-! PROOFS. The rejection of an illegal LIVE value (30_encoding.md R82). -/

namespace Sys2Proof.Machine

theorem ifInRange_illegal {l : Bool} {a : RegAddr} {s t : State} (h : ¬ l = true) :
    ifInRange l a s t = hostError true a .range s := by
  simp [ifInRange, h]

/-- A write whose only check is its range rejects an illegal value. -/
theorem exec_illegal {i : Instr} {l : Bool} {a : RegAddr} {s t : State} (hexec : exec i s = .next (ifInRange l a s t))
    (h : ¬ l = true) : exec i s = .next (hostError true a .range s) := by
  rw [hexec, ifInRange_illegal h]

theorem flim_eq (s : State) : flim s = fdiv s.cfg.sampleRate (if s.cfg.mode = .pulse then fFour else fTwo) := by
  rw [flim]
  split <;> rfl

theorem legalFreq_iff {s : State} {d : F64} :
    legalFreq s d = true ↔ isFinite d = true ∧ fle fZero d = true ∧
      fle d (fdiv s.cfg.sampleRate (if s.cfg.mode = .pulse then fFour else fTwo)) = true := by
  rw [legalFreq, inRange_iff, flim_eq]

theorem legalTone_iff {s : State} {d : F64} :
    legalTone s d = true ↔ isFinite d = true ∧ fle fZero d = true ∧ fle d (fdiv s.cfg.sampleRate fTwo) = true :=
  inRange_iff

theorem legalBaud_iff {s : State} {d : F64} :
    legalBaud s d = true ↔ isFinite d = true ∧ fle fOne d = true ∧ fle d (fdiv s.cfg.sampleRate fTwo) = true :=
  inRange_iff

/-- Settles O26: each of the eleven writes has its range as its only check. -/
theorem liveWritesIllegal : Obligations.LiveWritesIllegal := by
  intro s d
  simp only [List.forall_mem_cons]
  rw [← legalFreq_iff, ← legalTone_iff, ← legalBaud_iff, ← legalUnit_iff, ← legalNonNeg_iff]
  exact ⟨fun h => exec_illegal rfl h,
    fun h => ⟨exec_illegal rfl h, exec_illegal rfl h, exec_illegal rfl h, List.forall_mem_nil _⟩,
    fun h => exec_illegal rfl h,
    fun h => ⟨exec_illegal rfl h, exec_illegal rfl h, exec_illegal rfl h, List.forall_mem_nil _⟩,
    fun h => ⟨exec_illegal rfl h, exec_illegal rfl h, exec_illegal rfl h, List.forall_mem_nil _⟩⟩

end Sys2Proof.Machine
end

section
/-! PROOFS. A cycle without a transaction (20_memory.md R69, 30_encoding.md R81). -/

namespace Sys2Proof.Machine

theorem nextInputs_nil {s : State} (h : s.inputs = []) : nextInputs s = ⟨false, none, false, s.devReady⟩ := by
  simp only [nextInputs, h]

theorem beginCycle_nil {s : State} (h : s.inputs = []) : beginCycle s = { s with out := Outputs.quiet } := by
  simp only [beginCycle, nextInputs_nil h, h, List.tail_nil]

theorem hostAct_none (s : State) : hostAct none s = .next s := rfl

/-- The cycle is then the consumer's action and the producer's. -/
theorem step_of_noTransaction {s : State} (hrst : (nextInputs s).rst = false) (hhost : (nextInputs s).host = none) :
    step s = andThen (consumerAct (nextInputs s).frameReq (beginCycle s)) producerAct := by
  rw [step_cycle hrst, cycle_of_hostAct (by rw [hhost, hostAct_none])]

/-- Without a frame request only the producer acts. -/
theorem step_of_idle {s : State} (hrst : (nextInputs s).rst = false) (hhost : (nextInputs s).host = none)
    (hreq : (nextInputs s).frameReq = false) : step s = producerAct (beginCycle s) := by
  rw [step_of_noTransaction hrst hhost, hreq, consumerAct_false, andThen_next]

/-- The consumer drives neither host output. -/
theorem consumerAct_hostOutputs {r : Bool} {s t : State} (h : consumerAct r s = .next t) :
    t.out.hostRdata = s.out.hostRdata ∧ t.out.hostErr = s.out.hostErr :=
  ⟨congrArg (·.out.hostRdata) (consumerAct_frame h), congrArg (·.out.hostErr) (consumerAct_frame h)⟩

/-- The producer drives no output. -/
theorem producerAct_out {s t : State} (h : producerAct s = .next t) : t.out = s.out := by
  obtain ⟨-, e⟩ | ⟨-, -, e⟩ | ⟨-, -, -, e⟩ | ⟨-, -, -, e⟩ := producerAct_cases s <;> rw [e] at h
  · cases h; rfl
  · obtain ⟨-, rfl⟩ := sampleStep_eq_next.1 h
    exact beforeSample_out s
  · cases h; rfl
  · cases h; rfl

/-- Nothing drives the host outputs in such a cycle, so they keep the 0 of its start. -/
theorem hostOutputs_of_noTransaction {s t : State} (hrst : (nextInputs s).rst = false)
    (hhost : (nextInputs s).host = none) (h : step s = .next t) : t.out.hostRdata = 0#64 ∧ t.out.hostErr = false := by
  rw [step_of_noTransaction hrst hhost] at h
  obtain ⟨v, hcons, hprod⟩ := andThen_eq_next.1 h
  rw [producerAct_out hprod]
  exact consumerAct_hostOutputs hcons

/-- Settles O10: the first and the second clause by whether inputs are listed, the third by the agents' frames. -/
theorem stepWithoutTransaction : Obligations.StepWithoutTransaction := by
  intro s b
  refine ⟨fun c rest hin => ?listed, fun hin => ?unlisted, fun hrst hhost t h => hostOutputs_of_noTransaction hrst hhost h⟩
  case listed =>
    refine ⟨nextInputs_cons hin, fun hb => ?_⟩
    obtain rfl : beginCycle s = b := (beginCycle_cons hin).trans hb.symm
    obtain rfl := nextInputs_cons hin
    exact ⟨rfl, fun hrst hhost => ⟨step_of_noTransaction hrst hhost, step_of_idle hrst hhost⟩⟩
  case unlisted =>
    have hnext := nextInputs_nil hin
    refine ⟨hnext, fun hb => ?_⟩
    obtain rfl : beginCycle s = b := (beginCycle_nil hin).trans hb.symm
    exact ⟨rfl, step_of_idle (by rw [hnext]) (by rw [hnext]) (by rw [hnext])⟩

end Sys2Proof.Machine
end

section
/-! PROOFS. The reads of the registers, the stream commands and the priority of the checks (40_control.md R100 to R108). -/

namespace Sys2Proof.Machine

/-! ### Reads of stored registers -/

/-- Within the FIFO's bound (44_framing.md R191) the free capacity is the true difference: neither subtraction wraps. -/
theorem symqFree_toNat {s : State} (hp : LegalParams s.params) (hfifo : FifoBounded s) :
    (symqFree s).toNat = s.params.symqDepth - s.symq.committed.length - s.symq.staged.length := by
  obtain ⟨-, -, ⟨-, hdepth⟩, -⟩ := hp
  unfold FifoBounded at hfifo
  unfold symqFree
  generalize s.params.symqDepth = depth at *
  generalize s.symq.committed.length = committed at *
  generalize s.symq.staged.length = staged at *
  bv_omega

/-- Settles O17: four of the reads answer a field, and SYMQ_FREE is computed. -/
theorem readsOfIdErrAndSizes : Obligations.ReadsOfIdErrAndSizes := fun s =>
  ⟨rfl, rfl, rfl, rfl, fun hp hfifo => ⟨symqFree s, exec_rdSymqFree s, symqFree_toNat hp hfifo⟩⟩

/-- An enumerated register is read as the code of the name it holds (log entry 12). -/
theorem exec_rdEnum (s : State) :
    exec .rdMode s = .next (acceptRead s.cfg.mode.code s) ∧
    exec .rdWaveform s = .next (acceptRead s.cfg.waveform.code s) ∧
    exec .rdDataBits s = .next (acceptRead s.live.dataBits.code s) ∧
    exec .rdParity s = .next (acceptRead s.live.parity.code s) ∧
    exec .rdStopBits s = .next (acceptRead s.live.stopBits.code s) := ⟨rfl, rfl, rfl, rfl, rfl⟩

/-- Settles O19, by the names that each register can hold. -/
theorem readsOfEnumRegisters : Obligations.ReadsOfEnumRegisters := by
  intro s
  obtain ⟨hmode, hwaveform, hdataBits, hparity, hstopBits⟩ := exec_rdEnum s
  rw [hmode, hwaveform, hdataBits, hparity, hstopBits]
  refine ⟨?mode, ?waveform, ?dataBits, ?parity, ?stopBits⟩
  case mode => cases s.cfg.mode <;> rfl
  case waveform => cases s.cfg.waveform <;> rfl
  case dataBits => cases s.live.dataBits <;> rfl
  case parity => cases s.live.parity <;> rfl
  case stopBits => cases s.live.stopBits <;> rfl

/-- Settles O20: an f64 register holds its 64 bits as they are read, so each read answers a field. -/
theorem readsOfF64Registers : Obligations.ReadsOfF64Registers := fun _ =>
  ⟨rfl, rfl, rfl, rfl, rfl, rfl, rfl, rfl, rfl, rfl, rfl, rfl⟩

/-! ### STOP and CLRERR -/

/-- Settles O32: neither command has a check. -/
theorem stopAndClear : Obligations.StopAndClear := fun _ => ⟨rfl, rfl⟩

/-! ### START (R106) -/

theorem exec_start (s : State) : exec .start s = .next (
    if s.running then accept s
    else if s.devReady then
      if startFits s then accept (streamInit s) else hostError true 0x02#8 .range s
    else hostError true 0x02#8 .device s) := rfl

theorem exec_start_running {s : State} (hrun : s.running = true) : exec .start s = .next (accept s) := by
  simp [exec_start, hrun]

theorem exec_start_notReady {s : State} (hrun : s.running = false) (hdev : s.devReady = false) :
    exec .start s = .next (hostError true 0x02#8 .device s) := by
  simp [exec_start, hrun, hdev]

theorem exec_start_ready {s : State} (hrun : s.running = false) (hdev : s.devReady = true) :
    exec .start s = .next (if startFits s then accept (streamInit s) else hostError true 0x02#8 .range s) := by
  simp [exec_start, hrun, hdev]

/-- START's check in the words of R106: FREQ against `flim`, and in MODEM mode the tones and BAUD against `fhalf`. -/
theorem startFits_iff {s : State} :
    startFits s = true ↔
      fle s.live.freq (fdiv s.cfg.sampleRate (if s.cfg.mode = .pulse then fFour else fTwo)) ∧
      (s.cfg.mode = .modem → ∀ v ∈ [s.live.markFreq, s.live.spaceFreq, s.live.idleFreq, s.live.baud],
        fle v (fdiv s.cfg.sampleRate fTwo)) := by
  rw [← flim_eq, ← fs, ← fhalf]
  by_cases hm : s.cfg.mode = .modem <;> simp [startFits, hm, and_assoc]

/-- Settles O30: the check passes, and `StreamInit()` is R107's assignments. -/
theorem startInitialises : Obligations.StartInitialises := by
  intro s hrun hdev hfreq hmodem
  rw [exec_start_ready hrun hdev, if_pos (startFits_iff.2 ⟨hfreq, hmodem⟩)]
  rfl

/-- Settles O31, in R106's order: running, then the device, then the frequencies. -/
theorem startOtherwise : Obligations.StartOtherwise := by
  refine fun s => ⟨fun hrun => exec_start_running hrun, fun hrun hdev => exec_start_notReady hrun hdev,
    fun hrun hdev hfit => ?_⟩
  rw [exec_start_ready hrun hdev, if_neg (mt startFits_iff.1 hfit)]
  rfl

/-! ### The stream operations (R100 steps 7 and 8) -/

theorem ifStreaming_otherMode {m : OpMode} {a : RegAddr} {s t : State} (hm : s.cfg.mode ≠ m) :
    ifStreaming m a s t = hostError true a .mode s := by
  simp [ifStreaming, hm]

theorem ifStreaming_stopped {m : OpMode} {a : RegAddr} {s t : State} (hm : s.cfg.mode = m) (hrun : s.running = false) :
    ifStreaming m a s t = hostError true a .notRunning s := by
  simp [ifStreaming, hm, hrun]

/-- The stream operations, each with the mode it belongs to. -/
def streamOps (d : Word64) : List (Instr × OpMode) :=
  [(.activate, .pulse), (.deactivate, .pulse), (.txByte d, .modem), (.txCommit, .modem), (.txAbort, .modem)]

/-- A stream operation checks its mode and the stream before anything else. -/
theorem exec_streamOps {d : Word64} {x : Instr × OpMode} (hx : x ∈ streamOps d) (s : State) :
    ∃ t, exec x.1 s = .next (ifStreaming x.2 x.1.addr s t) := by
  simp only [streamOps, List.mem_cons, List.not_mem_nil, or_false] at hx
  obtain rfl | rfl | rfl | rfl | rfl := hx <;> exact ⟨_, rfl⟩

/-- Settles O34: the two ways in which the shared check of the five operations fails. -/
theorem streamOperationPriority : Obligations.StreamOperationPriority := by
  intro s d x hx
  obtain ⟨t, ht⟩ := exec_streamOps hx s
  rw [ht]
  exact ⟨fun hm => congrArg Host.Outcome.next (ifStreaming_otherMode hm),
    fun hm hrun => congrArg Host.Outcome.next (ifStreaming_stopped hm hrun)⟩

end Sys2Proof.Machine
end

section
/-! PROOFS. The operands of the CFG writes while stopped (40_control.md R110, R112; 41_oscillator.md R144; 46_pipeline.md R241,
R243), and the operands that are never accepted (30_encoding.md R82 to R84). -/

namespace Sys2Proof.Machine

/-! ### The listed codes (30_encoding.md R84) and the legal ranges -/

theorem OpMode.ofCode?_eq_none_iff {d : Word64} : OpMode.ofCode? d = none ↔ 3 ≤ d.toNat := by
  unfold OpMode.ofCode?
  generalize d.toNat = n
  match n with
  | 0 | 1 | 2 => simp
  | n + 3 => simp

theorem Waveform.ofCode?_eq_none_iff {d : Word64} : Waveform.ofCode? d = none ↔ 5 ≤ d.toNat := by
  unfold Waveform.ofCode?
  generalize d.toNat = n
  match n with
  | 0 | 1 | 2 | 3 | 4 => simp
  | n + 5 => simp

theorem legalSampleRate_iff {p : Params} {v : F64} :
    legalSampleRate p v = true ↔ isFinite v = true ∧ fle fOne v = true ∧ fle v p.fsMax = true := inRange_iff

theorem legalBufSize_iff {p : Params} {n : Word64} :
    legalBufSize p n = true ↔ 1 ≤ n.toNat ∧ n.toNat ≤ p.bufszMax := decide_eq_true_iff

theorem legalBufCount_iff {p : Params} {n : Word64} :
    legalBufCount p n = true ↔ 2 ≤ n.toNat ∧ n.toNat ≤ p.nbufMax := decide_eq_true_iff

/-! ### CFG writes while stopped -/

/-- While stopped the BUSY check of a CFG write passes. -/
theorem exec_of_stopped {i : Instr} {a : RegAddr} {s t : State} (hexec : exec i s = .next (unlessBusy a s t))
    (hrun : s.running = false) : exec i s = .next t := by
  rw [hexec, unlessBusy_stopped hrun]

theorem exec_legal {i : Instr} {l : Bool} {a : RegAddr} {s t : State} (hexec : exec i s = .next (ifInRange l a s t))
    (h : l = true) : exec i s = .next t := by
  rw [hexec, ifInRange_legal h]

theorem exec_wrMode_listed {s : State} {d : Word64} {m : OpMode} (hrun : s.running = false)
    (h : OpMode.ofCode? d = some m) : exec (.wrMode d) s = .next (accept { s with cfg.mode := m }) := by
  rw [exec_of_stopped (i := .wrMode d) rfl hrun, ifListed_some h]

theorem exec_wrWaveform_listed {s : State} {d : Word64} {k : Waveform} (hrun : s.running = false)
    (h : Waveform.ofCode? d = some k) : exec (.wrWaveform d) s = .next (accept { s with cfg.waveform := k }) := by
  rw [exec_of_stopped (i := .wrWaveform d) rfl hrun, ifListed_some h]

theorem exec_unlisted {α : Type} {i : Instr} {c : Option α} {a : RegAddr} {s : State} {t : α → State}
    (hexec : exec i s = .next (ifListed c a s t)) (h : c = none) :
    exec i s = .next (hostError true a .reservedValue s) := by
  rw [hexec, ifListed_none h]

/-- Settles O22: the BUSY check passes, then the check of the operand. -/
theorem cfgWritesStopped : Obligations.CfgWritesStopped := by
  intro s hrun
  have hmode : ∀ x ∈ [(0#64, OpMode.continuous), (1#64, .pulse), (2#64, .modem)],
      OpMode.ofCode? x.1 = some x.2 := by decide
  have hwaveform : ∀ x ∈ [(0#64, Waveform.sine), (1#64, .sineSquaredAlt), (2#64, .sineCubed), (3#64, .triangle),
      (4#64, .square)], Waveform.ofCode? x.1 = some x.2 := by decide
  exact ⟨fun x hx => exec_wrMode_listed hrun (hmode x hx),
    fun x hx => exec_wrWaveform_listed hrun (hwaveform x hx),
    fun d hfin hlo hhi => exec_legal (exec_of_stopped rfl hrun) (legalSampleRate_iff.2 ⟨hfin, hlo, hhi⟩),
    fun d hlo hhi => exec_legal (exec_of_stopped rfl hrun) (legalBufSize_iff.2 ⟨hlo, hhi⟩),
    fun d hlo hhi => exec_legal (exec_of_stopped rfl hrun) (legalBufCount_iff.2 ⟨hlo, hhi⟩)⟩

/-- Settles O23: the BUSY check passes, then the check of the operand fails. -/
theorem cfgWritesIllegal : Obligations.CfgWritesIllegal := fun _ _ hrun =>
  ⟨fun h => exec_unlisted (exec_of_stopped rfl hrun) (OpMode.ofCode?_eq_none_iff.2 h),
    fun h => exec_unlisted (exec_of_stopped rfl hrun) (Waveform.ofCode?_eq_none_iff.2 h),
    fun h => exec_illegal (exec_of_stopped rfl hrun) (mt legalSampleRate_iff.1 h),
    fun h => exec_illegal (exec_of_stopped rfl hrun) (mt legalBufSize_iff.1 h),
    fun h => exec_illegal (exec_of_stopped rfl hrun) (mt legalBufCount_iff.1 h)⟩

/-! ### What a legal operand satisfies in every state and for all legal parameters -/

theorem inRange_mono {lo hi hi' v : F64} (hhi : fle hi hi' = true) (h : inRange lo hi v = true) :
    inRange lo hi' v = true := by
  obtain ⟨hfin, hlo, hv⟩ := inRange_iff.1 h
  exact inRange_iff.2 ⟨hfin, hlo, fle_trans hv hhi⟩

/-- A range from +0.0 up has no negative value, wherever it ends. -/
theorem legalNonNeg_of_inRange {hi v : F64} (h : inRange fZero hi v = true) : legalNonNeg v = true := by
  obtain ⟨hfin, hlo, -⟩ := inRange_iff.1 h
  exact legalNonNeg_iff.2 ⟨hfin, hlo⟩

theorem wellFormed_wrSampleRate {p : Params} (hp : LegalParams p) {d : Word64} (h : legalSampleRate p d = true) :
    (Instr.wrSampleRate d).wellFormed = true := by
  obtain ⟨-, -, -, hfsMax⟩ := hp
  obtain ⟨-, -, hmax⟩ := inRange_iff.1 hfsMax
  exact inRange_mono hmax h

theorem wellFormed_wrBufSize {p : Params} (hp : LegalParams p) {d : Word64} (h : legalBufSize p d = true) :
    (Instr.wrBufSize d).wellFormed = true := by
  obtain ⟨-, ⟨-, hmax⟩, -, -⟩ := hp
  obtain ⟨hlo, hhi⟩ := legalBufSize_iff.1 h
  exact decide_eq_true ⟨hlo, hhi.trans hmax⟩

theorem wellFormed_wrBufCount {p : Params} (hp : LegalParams p) {d : Word64} (h : legalBufCount p d = true) :
    (Instr.wrBufCount d).wellFormed = true := by
  obtain ⟨⟨-, hmax⟩, -, -, -⟩ := hp
  obtain ⟨hlo, hhi⟩ := legalBufCount_iff.1 h
  exact decide_eq_true ⟨hlo, hhi.trans hmax⟩

theorem wellFormed_wrBaud {s : State} {d : Word64} (h : legalBaud s d = true) :
    (Instr.wrBaud d).wellFormed = true := by
  obtain ⟨hfin, hlo, -⟩ := legalBaud_iff.1 h
  exact Bool.and_eq_true_iff.2 ⟨hfin, hlo⟩

/-! ### Ill-formed operands -/

/-- The answer `t` rejects a write of register `a`, with some error code. -/
def Rejects (a : RegAddr) (s t : State) : Prop := ∃ c : ErrCode, c ≠ .none ∧ t = hostError true a c s

theorem rejects_hostError {a : RegAddr} {c : ErrCode} {s : State} (hc : c ≠ .none) :
    Rejects a s (hostError true a c s) := ⟨c, hc, rfl⟩

/-- Whichever check comes first, BUSY or the operand's, the write is rejected. -/
theorem rejects_unlessBusy {a : RegAddr} {s t : State} (h : Rejects a s t) : Rejects a s (unlessBusy a s t) :=
  unlessBusy_induct (rejects_hostError (by decide)) fun _ => h

theorem rejects_ifStreaming {m : OpMode} {a : RegAddr} {s t : State} (h : Rejects a s t) :
    Rejects a s (ifStreaming m a s t) := by
  obtain ⟨-, e⟩ | ⟨-, -, e⟩ | ⟨-, -, e⟩ := ifStreaming_cases m a s t <;> rw [e]
  · exact rejects_hostError (by decide)
  · exact rejects_hostError (by decide)
  · exact h

/-- A range check rejects what fails a weaker check `wf`. -/
theorem rejects_ifInRange {l wf : Bool} {a : RegAddr} {s t : State} (hwf : wf = false) (hl : l = true → wf = true) :
    Rejects a s (ifInRange l a s t) := by
  rw [ifInRange_illegal fun h => by simp [hl h] at hwf]
  exact rejects_hostError (by decide)

theorem rejects_ifListed {α : Type} {c : Option α} {a : RegAddr} {s : State} {t : α → State} (h : c.isSome = false) :
    Rejects a s (ifListed c a s t) := by
  rw [ifListed_none (by simpa using h)]
  exact rejects_hostError (by decide)

/-- The last check of TXBYTE's operand (44_framing.md R195). -/
theorem rejects_byte {d : Word64} {a : RegAddr} {s t : State} (h : legalByte d = false) :
    Rejects a s (if legalByte d then t else hostError true a .reservedValue s) := by
  rw [if_neg (by rw [h]; decide)]
  exact rejects_hostError (by decide)

/-- An operation with an ill-formed operand is a write with a check that the operand fails in every state: the operand is
unlisted, or outside a range that contains every legal one. -/
theorem exec_rejects {i : Instr} {s : State} (hp : LegalParams s.params) (hwf : i.wellFormed = false) :
    ∃ t, exec i s = .next t ∧ Rejects i.addr s t := by
  match i, hwf with
  | .wrMode d, h | .wrWaveform d, h => exact ⟨_, rfl, rejects_unlessBusy (rejects_ifListed h)⟩
  | .wrDataBits d, h | .wrParity d, h | .wrStopBits d, h => exact ⟨_, rfl, rejects_ifListed h⟩
  | .wrSampleRate d, h => exact ⟨_, rfl, rejects_unlessBusy (rejects_ifInRange h (wellFormed_wrSampleRate hp))⟩
  | .wrBufSize d, h => exact ⟨_, rfl, rejects_unlessBusy (rejects_ifInRange h (wellFormed_wrBufSize hp))⟩
  | .wrBufCount d, h => exact ⟨_, rfl, rejects_unlessBusy (rejects_ifInRange h (wellFormed_wrBufCount hp))⟩
  | .wrFreq d, h | .wrMarkFreq d, h | .wrSpaceFreq d, h | .wrIdleFreq d, h =>
    exact ⟨_, rfl, rejects_ifInRange h legalNonNeg_of_inRange⟩
  | .wrBaud d, h => exact ⟨_, rfl, rejects_ifInRange h wellFormed_wrBaud⟩
  | .wrVolume d, h | .wrEnvK1 d, h | .wrEnvK2 d, h | .wrFreqRaiseRate d, h | .wrVolRaiseRate d, h
  | .wrHoldDuration d, h => exact ⟨_, rfl, rejects_ifInRange h id⟩
  | .txByte d, h => exact ⟨_, rfl, rejects_ifStreaming (rejects_byte h)⟩

/-- Settles O16, by the operations that have an operand. -/
theorem illFormedRejected : Obligations.IllFormedRejected := by
  intro i s hp hwf
  obtain ⟨t, ht, c, hc, rfl⟩ := exec_rejects hp hwf
  exact ⟨c, hc, ht⟩

end Sys2Proof.Machine
end

section
/-! PROOFS. What the host reads of the internal state and stores in the LIVE f64 registers (41_oscillator.md R146 to R148, and
the same rules of the other datapath units). -/

namespace Sys2Proof.Machine

/-- A read-only window answers the field it shows, a counter zero-extended (41_oscillator.md R147, R148). -/
theorem exec_rdWindow (s : State) :
    exec .rdCurFreq s = .next (acceptRead s.synth.curF s) ∧
    exec .rdPhase s = .next (acceptRead s.synth.phase s) ∧
    exec .rdCurVolume s = .next (acceptRead s.synth.curV s) ∧
    exec .rdTimeInCycle s = .next (acceptRead s.synth.tic s) ∧
    exec .rdVolumeFactor s = .next (acceptRead s.synth.vf s) ∧
    exec .rdCarriedErr s = .next (acceptRead s.synth.cerr s) ∧
    exec .rdWaitSamples s = .next (acceptRead (s.synth.ws.setWidth 64) s) ∧
    exec .rdUnderrunCount s = .next (acceptRead (s.pipe.underruns.setWidth 64) s) ∧
    exec .rdFillPos s = .next (acceptRead (s.pipe.fillPos.setWidth 64) s) :=
  ⟨rfl, rfl, rfl, rfl, rfl, rfl, rfl, rfl, rfl⟩

/-- Settles O21: each window answers its field, and an accepted read drives the two host outputs only. -/
theorem readsOfInternalState : Obligations.ReadsOfInternalState := exec_rdWindow

/-- Settles O25: each of the eight writes has its range as its only check, and a legal value passes it. -/
theorem liveWritesLegal : Obligations.LiveWritesLegal := by
  refine fun s d hfin => ⟨fun hlo hhi => ?freq, fun hlo hhi => ?tones, fun hlo hhi => ?baud, fun hlo hhi => ?envelope,
    fun hlo => ?hold⟩
  case freq => exact exec_legal rfl (legalFreq_iff.2 ⟨hfin, hlo, hhi⟩)
  case tones =>
    have htone : legalTone s d = true := legalTone_iff.2 ⟨hfin, hlo, hhi⟩
    exact ⟨exec_legal rfl htone, exec_legal rfl htone, exec_legal rfl htone⟩
  case baud => exact exec_legal rfl (legalBaud_iff.2 ⟨hfin, hlo, hhi⟩)
  case envelope =>
    have hunit : legalUnit d = true := legalUnit_iff.2 ⟨hfin, hlo, hhi⟩
    exact ⟨exec_legal rfl hunit, exec_legal rfl hunit⟩
  case hold => exact exec_legal rfl (legalNonNeg_iff.2 ⟨hfin, hlo⟩)

end Sys2Proof.Machine
end

section
/-! PROOFS. The range of the triangle over one cycle of phase (41_oscillator.md R136). -/

namespace Sys2Proof.Machine

theorem not_fle_iff {a b : F64} (ha : isNaN a = false) (hb : isNaN b = false) :
    ¬ fle a b = true ↔ scaled b < scaled a := by
  simp [fle_iff, ha, hb]

theorem magnitude_fofInt {k : Nat} (h0 : 0 < k) (hk : k < 2 ^ 53) : magnitude (fofInt k) = k * unitsPerOne := by
  obtain ⟨-, hscaled⟩ := fofInt_exact h0 hk
  rw [← scaled_natAbs, hscaled]
  exact_mod_cast Int.natAbs_natCast _

theorem fofInt_nonneg {k : Nat} (h0 : 0 < k) (hk : k < 2 ^ 53) : fle fZero (fofInt k) = true := by
  obtain ⟨hfin, hscaled⟩ := fofInt_exact h0 hk
  exact nonneg_iff.2 ⟨isNaN_of_finite hfin, hscaled ▸ mul_nonneg (Int.natCast_nonneg _) (Int.natCast_nonneg _)⟩

theorem scaled_fHalfPi_pos : 0 < scaled fHalfPi := by
  rw [scaled_fHalfPi]
  exact_mod_cast magnitude_fHalfPi_pos

/-! ### The quotient `p /. HALF_PI`: rounding does not carry it past a whole number -/

section Quotient

variable {p : F64} {k : Nat} (hfin : isFinite p = true) (h0 : 0 ≤ scaled p) (hk0 : 0 < k) (hk : k < 2 ^ 53)

include hfin h0 hk0 hk

theorem fdiv_fHalfPi_le (h : scaled p ≤ k * scaled fHalfPi) : fle (fdiv p fHalfPi) (fofInt k) = true := by
  refine fdiv_le hfin isFinite_fHalfPi h0 scaled_fHalfPi_pos (fofInt_nonneg hk0 hk) ?_
  rw [scaled_eq_magnitude h0, scaled_fHalfPi] at h
  calc magnitude p * unitsPerOne
      ≤ k * magnitude fHalfPi * unitsPerOne := Nat.mul_le_mul_right _ (by exact_mod_cast h)
    _ = magnitude (fofInt k) * magnitude fHalfPi := by rw [magnitude_fofInt hk0 hk, Nat.mul_right_comm]

theorem le_fdiv_fHalfPi (h : k * scaled fHalfPi ≤ scaled p) : fle (fofInt k) (fdiv p fHalfPi) = true := by
  refine le_fdiv hfin isFinite_fHalfPi h0 scaled_fHalfPi_pos (fofInt_nonneg hk0 hk) ?_
  rw [scaled_eq_magnitude h0, scaled_fHalfPi] at h
  calc magnitude (fofInt k) * magnitude fHalfPi
      = k * magnitude fHalfPi * unitsPerOne := by rw [magnitude_fofInt hk0 hk, Nat.mul_right_comm]
    _ ≤ magnitude p * unitsPerOne := Nat.mul_le_mul_right _ (by exact_mod_cast h)

end Quotient

/-- Between whole numbers of quarters of the cycle the quotient is finite and between those whole numbers. -/
theorem fdiv_fHalfPi_between {p : F64} {k l : Nat} (hfin : isFinite p = true) (hk0 : 0 < k) (hk : k < 2 ^ 53)
    (hl0 : 0 < l) (hl : l < 2 ^ 53) (hlo : k * scaled fHalfPi ≤ scaled p) (hhi : scaled p ≤ l * scaled fHalfPi) :
    isFinite (fdiv p fHalfPi) = true ∧ k * (unitsPerOne : Int) ≤ scaled (fdiv p fHalfPi) ∧
      scaled (fdiv p fHalfPi) ≤ l * (unitsPerOne : Int) := by
  have h0 : 0 ≤ scaled p := (mul_nonneg (Int.natCast_nonneg _) scaled_fHalfPi_pos.le).trans hlo
  obtain ⟨hkfin, hkval⟩ := fofInt_exact hk0 hk
  obtain ⟨hlfin, hlval⟩ := fofInt_exact hl0 hl
  have hge := le_fdiv_fHalfPi hfin h0 hk0 hk hlo
  have hle := fdiv_fHalfPi_le hfin h0 hl0 hl hhi
  refine ⟨isFinite_of_between hge hle hkfin hlfin, ?_, ?_⟩
  · rw [← hkval]; exact (fle_iff.1 hge).2.2
  · rw [← hlval]; exact (fle_iff.1 hle).2.2

/-! ### The three segments (R136) -/

/-- `x` is in [-1, 1]. -/
def InUnitInterval (x : F64) : Prop := fle fMinusOne x = true ∧ fle x fOne = true

/-- Rising from 0 to 1. -/
theorem triangle_first {p : F64} (hfin : isFinite p = true) (h0 : 0 ≤ scaled p) (h : scaled p ≤ scaled fHalfPi) :
    InUnitInterval (fdiv p fHalfPi) := by
  have hnonneg := fdiv_nonneg hfin isFinite_fHalfPi h0 scaled_fHalfPi_pos
  have hle := fdiv_fHalfPi_le (k := 1) hfin h0 (by norm_num) (by norm_num) (by simpa using h)
  have hone : fofInt (1 : Nat) = fOne := by decide +kernel
  exact ⟨fle_trans (by decide +kernel) hnonneg, hone ▸ hle⟩

/-- Falling from 1 to -1: the quotient is from 1 to 3. -/
theorem triangle_second {p : F64} (hfin : isFinite p = true) (hlo : scaled fHalfPi ≤ scaled p)
    (hhi : scaled p ≤ 3 * scaled fHalfPi) : InUnitInterval (fsub fTwo (fdiv p fHalfPi)) := by
  obtain ⟨hq, hq1, hq3⟩ := fdiv_fHalfPi_between (k := 1) (l := 3) hfin (by norm_num) (by norm_num) (by norm_num)
    (by norm_num) (by simpa using hlo) (by simpa using hhi)
  refine ⟨le_fsub isFinite_fTwo hq (isNaN_of_finite isFinite_fMinusOne) ?_,
    fsub_le isFinite_fTwo hq (isNaN_of_finite isFinite_fOne) ?_⟩
  · rw [scaled_fMinusOne, scaled_fTwo]; push_cast at hq3; omega
  · rw [scaled_fOne, scaled_fTwo]; push_cast at hq1; omega

/-- Rising from -1 to 0: the quotient is from 3 to 4. -/
theorem triangle_third {p : F64} (hfin : isFinite p = true) (hlo : 3 * scaled fHalfPi ≤ scaled p)
    (hhi : scaled p ≤ 4 * scaled fHalfPi) : InUnitInterval (fadd fMinusFour (fdiv p fHalfPi)) := by
  obtain ⟨hq, hq3, hq4⟩ := fdiv_fHalfPi_between (k := 3) (l := 4) hfin (by norm_num) (by norm_num) (by norm_num)
    (by norm_num) (by simpa using hlo) (by simpa using hhi)
  refine ⟨le_fadd isFinite_fMinusFour hq (isNaN_of_finite isFinite_fMinusOne) ?_,
    fadd_le isFinite_fMinusFour hq (isNaN_of_finite isFinite_fOne) ?_⟩
  · rw [scaled_fMinusOne, scaled_fMinusFour]; push_cast at hq3; omega
  · rw [scaled_fOne, scaled_fMinusFour]; push_cast at hq4; omega

/-- Settles O42, by the three segments of R136. -/
theorem triangleRange : Obligations.TriangleRange := by
  intro f p hlo hhi
  obtain ⟨hnan, h0⟩ := nonneg_iff.1 hlo
  obtain ⟨-, hnan', hlt⟩ := flt_iff.1 hhi
  have hfin : isFinite p = true := isFinite_of_le (fle_iff.2 ⟨hnan, hnan', hlt.le⟩) hlo isFinite_fTwoPi
  have hthree : scaled fThreeHalfPi = 3 * scaled fHalfPi := by rw [scaled_fThreeHalfPi, scaled_fHalfPi]
  have htwoPi : scaled fTwoPi = 4 * scaled fHalfPi := by rw [scaled_fTwoPi, scaled_fHalfPi]
  rw [wave_triangle, wTriangle]
  change InUnitInterval _
  split
  · next hfirst => exact triangle_first hfin h0 (fle_iff.1 hfirst).2.2
  · next hfirst =>
    have habove := (not_fle_iff hnan (isNaN_of_finite isFinite_fHalfPi)).1 hfirst
    split
    · next hsecond => exact triangle_second hfin habove.le (hthree ▸ (fle_iff.1 hsecond).2.2)
    · next hsecond =>
      have hlast := (not_fle_iff hnan (isNaN_of_finite isFinite_fThreeHalfPi)).1 hsecond
      exact triangle_third hfin (hthree ▸ hlast.le) (htwoPi ▸ hlt.le)

end Sys2Proof.Machine
end

section
/-! PROOFS. The legal parameters and registers, and their fit to a running stream (40_control.md R106, 10_state.md R23): every
host operation keeps them. -/

namespace Sys2Proof.Machine

/-! ### The checks of a write, with what an accepted write has passed -/

theorem ifInRange_induct_of_legal {P : State → Prop} {l : Bool} {a : RegAddr} {s t : State}
    (hreject : P (hostError true a .range s)) (ht : l = true → P t) : P (ifInRange l a s t) := by
  obtain ⟨hl, h⟩ | ⟨-, h⟩ := ifInRange_cases l a s t <;> rw [h]
  · exact ht hl
  · exact hreject

theorem ifStreaming_induct_of_run {P : State → Prop} {m : OpMode} {a : RegAddr} {s t : State}
    (hreject : ∀ c, P (hostError true a c s)) (ht : s.cfg.mode = m → s.running = true → P t) :
    P (ifStreaming m a s t) := by
  obtain ⟨-, h⟩ | ⟨-, -, h⟩ | ⟨hm, hrun, h⟩ := ifStreaming_cases m a s t <;> rw [h]
  · exact hreject .mode
  · exact hreject .notRunning
  · exact ht hm hrun

/-! ### What is kept -/

/-- The parameters and the registers are legal, and a running stream's frequencies fit it: the part of the machine's invariant
that speaks of the registers. -/
structure RegsLegal (s : State) : Prop where
  params : LegalParams s.params
  cfg : LegalCfg s.params s.cfg
  live : LegalLive s.live
  fits : StreamFits s

theorem MachineInv.regsLegal {s : State} (h : MachineInv s) : RegsLegal s := ⟨h.params, h.cfg, h.live, h.fits⟩

/-- The registers are kept, and no stream starts. -/
theorem RegsLegal.of_kept {s t : State} (h : RegsLegal s) (hparams : t.params = s.params) (hcfg : t.cfg = s.cfg)
    (hlive : t.live = s.live) (hrun : t.running = true → s.running = true) : RegsLegal t where
  params := hparams ▸ h.params
  cfg := by rw [hparams, hcfg]; exact h.cfg
  live := hlive ▸ h.live
  fits hr := by
    have hfits := h.fits (hrun hr)
    rw [startFits_iff] at hfits ⊢
    rwa [hcfg, hlive]

theorem RegsLegal.hostError {s : State} (h : RegsLegal s) (w : Bool) (a : RegAddr) (c : ErrCode) :
    RegsLegal (hostError w a c s) := h.of_kept rfl rfl rfl id

/-- A CFG write is accepted only while stopped, when no frequency has to fit. -/
theorem RegsLegal.of_cfg {s t : State} (h : RegsLegal s) (hstopped : s.running = false) (hparams : t.params = s.params)
    (hrun : t.running = s.running) (hlive : t.live = s.live) (hcfg : LegalCfg s.params t.cfg) : RegsLegal t where
  params := hparams ▸ h.params
  cfg := hparams ▸ hcfg
  live := hlive ▸ h.live
  fits hr := absurd hr (by rw [hrun, hstopped]; decide)

/-- The values that START compares with half the sample rate in MODEM mode (R106). -/
def modemValues (l : LiveRegs) : List F64 := [l.markFreq, l.spaceFreq, l.idleFreq, l.baud]

/-- A LIVE write may be accepted while running: each value that START compares is kept or has passed the same comparison. -/
theorem RegsLegal.of_live {s t : State} {l : LiveRegs} (h : RegsLegal s) (hparams : t.params = s.params)
    (hcfg : t.cfg = s.cfg) (hrun : t.running = s.running) (hlive : t.live = l) (hlegal : LegalLive l)
    (hfreq : l.freq = s.live.freq ∨ legalFreq s l.freq = true)
    (hmodem : ∀ v ∈ modemValues l, v ∈ modemValues s.live ∨ fle v (fdiv s.cfg.sampleRate fTwo) = true) :
    RegsLegal t where
  params := hparams ▸ h.params
  cfg := by rw [hparams, hcfg]; exact h.cfg
  live := hlive ▸ hlegal
  fits hr := by
    obtain ⟨hfreqFits, hmodemFits⟩ := startFits_iff.1 (h.fits (hrun ▸ hr))
    rw [startFits_iff, hcfg, hlive]
    constructor
    · rcases hfreq with hkept | hfits
      · rwa [hkept]
      · exact (legalFreq_iff.1 hfits).2.2
    · exact fun hm v hv => (hmodem v hv).elim (hmodemFits hm v) id

theorem RegsLegal.unlessBusy {a : RegAddr} {s t : State} (h : RegsLegal s) (ht : s.running = false → RegsLegal t) :
    RegsLegal (unlessBusy a s t) :=
  unlessBusy_induct (h.hostError ..) ht

theorem RegsLegal.ifInRange {l : Bool} {a : RegAddr} {s t : State} (h : RegsLegal s) (ht : l = true → RegsLegal t) :
    RegsLegal (ifInRange l a s t) :=
  ifInRange_induct_of_legal (h.hostError ..) ht

theorem RegsLegal.ifListed {α : Type} {c : Option α} {a : RegAddr} {s : State} {t : α → State} (h : RegsLegal s)
    (ht : ∀ x, RegsLegal (t x)) : RegsLegal (ifListed c a s t) :=
  ifListed_induct (h.hostError ..) ht

theorem RegsLegal.ifStreaming {m : OpMode} {a : RegAddr} {s t : State} (h : RegsLegal s) (ht : RegsLegal t) :
    RegsLegal (ifStreaming m a s t) :=
  ifStreaming_induct (fun _ => h.hostError ..) ht

/-! ### The operations -/

theorem RegsLegal.exec_cfgWrites {s : State} (h : RegsLegal s) {i : Instr} {d : Word64} (hi : (i, i.addr) ∈ cfgWrites d) :
    ∃ t, exec i s = .next t ∧ RegsLegal t := by
  obtain ⟨hrate, hsize, hcount⟩ := h.cfg
  simp only [cfgWrites, List.mem_cons, List.not_mem_nil, or_false, Prod.mk.injEq] at hi
  obtain ⟨rfl, -⟩ | ⟨rfl, -⟩ | ⟨rfl, -⟩ | ⟨rfl, -⟩ | ⟨rfl, -⟩ := hi
  case inl => exact ⟨_, rfl, h.unlessBusy fun hs => h.ifListed fun _ => h.of_cfg hs rfl rfl rfl h.cfg⟩
  case inr.inl =>
    exact ⟨_, rfl, h.unlessBusy fun hs => h.ifInRange fun hd => h.of_cfg hs rfl rfl rfl ⟨.inr hd, hsize, hcount⟩⟩
  case inr.inr.inl => exact ⟨_, rfl, h.unlessBusy fun hs => h.ifListed fun _ => h.of_cfg hs rfl rfl rfl h.cfg⟩
  case inr.inr.inr.inl =>
    exact ⟨_, rfl, h.unlessBusy fun hs => h.ifInRange fun hd => h.of_cfg hs rfl rfl rfl ⟨hrate, .inr hd, hcount⟩⟩
  case inr.inr.inr.inr =>
    exact ⟨_, rfl, h.unlessBusy fun hs => h.ifInRange fun hd => h.of_cfg hs rfl rfl rfl ⟨hrate, hsize, .inr hd⟩⟩

/-- A started stream's frequencies fit it, because START has checked them (R106). -/
theorem RegsLegal.exec_start {s : State} (h : RegsLegal s) : ∃ t, exec .start s = .next t ∧ RegsLegal t := by
  refine ⟨_, rfl, ?_⟩
  split
  · exact h.of_kept rfl rfl rfl id
  · split
    · split
      · next hfits => exact ⟨h.params, h.cfg, h.live, fun _ => hfits⟩
      · exact h.hostError ..
    · exact h.hostError ..

theorem RegsLegal.stageFrame {s : State} (h : RegsLegal s) (b : BitVec 8) : RegsLegal (stageFrame b s) := by
  unfold Machine.stageFrame
  split
  · exact h.of_kept rfl rfl rfl id
  · exact h.hostError ..

theorem RegsLegal.exec_txByte {s : State} (h : RegsLegal s) (d : Word64) :
    ∃ t, exec (.txByte d) s = .next t ∧ RegsLegal t := by
  refine ⟨_, rfl, h.ifStreaming ?_⟩
  split
  · exact h.stageFrame _
  · exact h.hostError ..

theorem storeVolume_live (d : F64) (s : State) : (storeVolume d s).live = { s.live with volume := d } := by
  unfold storeVolume; split <;> rfl

theorem storeFreqRaiseRate_live (d : F64) (s : State) :
    (storeFreqRaiseRate d s).live = { s.live with freqRaiseRate := d } := by
  unfold storeFreqRaiseRate; split <;> rfl

theorem storeVolRaiseRate_live (d : F64) (s : State) :
    (storeVolRaiseRate d s).live = { s.live with volRaiseRate := d } := by
  unfold storeVolRaiseRate; split <;> rfl

/-- Every write of an f64 LIVE register stores a legal value; a tone or BAUD is at most half the sample rate, so that it fits
a running stream too. -/
theorem RegsLegal.exec_liveWrites {s : State} (h : RegsLegal s) (d : Word64) :
    ∀ i ∈ [Instr.wrFreq d, .wrVolume d, .wrEnvK1 d, .wrEnvK2 d, .wrFreqRaiseRate d, .wrVolRaiseRate d, .wrHoldDuration d,
      .wrBaud d, .wrMarkFreq d, .wrSpaceFreq d, .wrIdleFreq d], ∃ t, exec i s = .next t ∧ RegsLegal t := by
  obtain ⟨hfreq, hvolume, hk1, hk2, hfreqRate, hvolRate, hhold, hbaud, hmark, hspace, hidle⟩ := h.live
  have hkept : ∀ v ∈ modemValues s.live, v ∈ modemValues s.live ∨ fle v (fdiv s.cfg.sampleRate fTwo) = true :=
    fun _ => .inl
  simp only [List.forall_mem_cons]
  refine ⟨⟨_, rfl, h.ifInRange fun hd => ?freq⟩, ⟨_, rfl, h.ifInRange fun hd => ?volume⟩,
    ⟨_, rfl, h.ifInRange fun hd => ?envK1⟩, ⟨_, rfl, h.ifInRange fun hd => ?envK2⟩,
    ⟨_, rfl, h.ifInRange fun hd => ?freqRaiseRate⟩, ⟨_, rfl, h.ifInRange fun hd => ?volRaiseRate⟩,
    ⟨_, rfl, h.ifInRange fun hd => ?hold⟩, ⟨_, rfl, h.ifInRange fun hd => ?baud⟩,
    ⟨_, rfl, h.ifInRange fun hd => ?mark⟩, ⟨_, rfl, h.ifInRange fun hd => ?space⟩,
    ⟨_, rfl, h.ifInRange fun hd => ?idle⟩, List.forall_mem_nil _⟩
  case freq =>
    exact h.of_live rfl rfl rfl rfl
      ⟨legalNonNeg_of_inRange hd, hvolume, hk1, hk2, hfreqRate, hvolRate, hhold, hbaud, hmark, hspace, hidle⟩
      (.inr hd) hkept
  case volume =>
    exact h.of_live (storeVolume_params d s) (storeVolume_cfg d s) (storeVolume_running d s) (storeVolume_live d s)
      ⟨hfreq, hd, hk1, hk2, hfreqRate, hvolRate, hhold, hbaud, hmark, hspace, hidle⟩ (.inl rfl) hkept
  case envK1 =>
    exact h.of_live rfl rfl rfl rfl
      ⟨hfreq, hvolume, hd, hk2, hfreqRate, hvolRate, hhold, hbaud, hmark, hspace, hidle⟩ (.inl rfl) hkept
  case envK2 =>
    exact h.of_live rfl rfl rfl rfl
      ⟨hfreq, hvolume, hk1, hd, hfreqRate, hvolRate, hhold, hbaud, hmark, hspace, hidle⟩ (.inl rfl) hkept
  case freqRaiseRate =>
    exact h.of_live (storeFreqRaiseRate_params d s) (storeFreqRaiseRate_cfg d s) (storeFreqRaiseRate_running d s)
      (storeFreqRaiseRate_live d s) ⟨hfreq, hvolume, hk1, hk2, hd, hvolRate, hhold, hbaud, hmark, hspace, hidle⟩
      (.inl rfl) hkept
  case volRaiseRate =>
    exact h.of_live (storeVolRaiseRate_params d s) (storeVolRaiseRate_cfg d s) (storeVolRaiseRate_running d s)
      (storeVolRaiseRate_live d s) ⟨hfreq, hvolume, hk1, hk2, hfreqRate, hd, hhold, hbaud, hmark, hspace, hidle⟩
      (.inl rfl) hkept
  case hold =>
    exact h.of_live rfl rfl rfl rfl
      ⟨hfreq, hvolume, hk1, hk2, hfreqRate, hvolRate, hd, hbaud, hmark, hspace, hidle⟩ (.inl rfl) hkept
  case baud =>
    obtain ⟨hfin, hlo, hhi⟩ := legalBaud_iff.1 hd
    exact h.of_live rfl rfl rfl rfl
      ⟨hfreq, hvolume, hk1, hk2, hfreqRate, hvolRate, hhold, ⟨hfin, hlo⟩, hmark, hspace, hidle⟩ (.inl rfl)
      (by simp [modemValues, hhi])
  case mark =>
    obtain ⟨-, -, hhi⟩ := legalTone_iff.1 hd
    exact h.of_live rfl rfl rfl rfl
      ⟨hfreq, hvolume, hk1, hk2, hfreqRate, hvolRate, hhold, hbaud, legalNonNeg_of_inRange hd, hspace, hidle⟩ (.inl rfl)
      (by simp [modemValues, hhi])
  case space =>
    obtain ⟨-, -, hhi⟩ := legalTone_iff.1 hd
    exact h.of_live rfl rfl rfl rfl
      ⟨hfreq, hvolume, hk1, hk2, hfreqRate, hvolRate, hhold, hbaud, hmark, legalNonNeg_of_inRange hd, hidle⟩ (.inl rfl)
      (by simp [modemValues, hhi])
  case idle =>
    obtain ⟨-, -, hhi⟩ := legalTone_iff.1 hd
    exact h.of_live rfl rfl rfl rfl
      ⟨hfreq, hvolume, hk1, hk2, hfreqRate, hvolRate, hhold, hbaud, hmark, hspace, legalNonNeg_of_inRange hd⟩ (.inl rfl)
      (by simp [modemValues, hhi])

/-- Every operation is answered and keeps the registers legal and fitting. -/
theorem RegsLegal.exec {s : State} (h : RegsLegal s) (i : Instr) : ∃ t, exec i s = .next t ∧ RegsLegal t := by
  cases hw : i.isWrite with
  | false =>
    obtain ⟨v, hv⟩ := exec_read hw s
    exact ⟨_, hv, h.of_kept rfl rfl rfl id⟩
  | true =>
    match i, hw with
    | .start, _ => exact h.exec_start
    | .stop, _ => exact ⟨_, rfl, h.of_kept rfl rfl rfl fun hr => by cases hr⟩
    | .clrErr, _ => exact ⟨_, rfl, h.of_kept rfl rfl rfl id⟩
    | .wrMode d, _ | .wrSampleRate d, _ | .wrWaveform d, _ | .wrBufSize d, _ | .wrBufCount d, _ =>
      exact h.exec_cfgWrites (d := d) (by simp [cfgWrites, Instr.addr])
    | .wrFreq d, _ | .wrVolume d, _ | .wrEnvK1 d, _ | .wrEnvK2 d, _ | .wrFreqRaiseRate d, _ | .wrVolRaiseRate d, _
    | .wrHoldDuration d, _ | .wrBaud d, _ | .wrMarkFreq d, _ | .wrSpaceFreq d, _ | .wrIdleFreq d, _ =>
      exact h.exec_liveWrites d _ (by simp)
    | .wrDataBits d, _ | .wrParity d, _ | .wrStopBits d, _ =>
      exact ⟨_, rfl, h.ifListed fun _ => h.of_live rfl rfl rfl rfl h.live (.inl rfl) fun _ => .inl⟩
    | .txByte d, _ => exact h.exec_txByte d
    | .txCommit, _ | .txAbort, _ | .deactivate, _ => exact ⟨_, rfl, h.ifStreaming (h.of_kept rfl rfl rfl id)⟩
    | .activate, _ =>
      exact ⟨_, rfl, h.ifStreaming (h.of_kept (enterRamping_params s) (enterRamping_cfg s) (enterRamping_live s)
        (enterRamping_running s ▸ id))⟩

end Sys2Proof.Machine
end

section
/-! PROOFS. The frequencies and the phase increment of a legal sample rate (40_control.md R101, 41_oscillator.md R138, R139,
43_period.md R167, R180). -/

namespace Sys2Proof.Machine

/-! ### The sample rate and its half and quarter (R101) -/

/-- A sample rate that some legal parameters accept. -/
def ValidRate (r : F64) : Prop := inRange fOne fsMaxMax r = true

theorem RegsLegal.validRate {s : State} (h : RegsLegal s) : ValidRate s.cfg.sampleRate := by
  obtain ⟨hreset | hlegal, -⟩ := h.cfg
  · rw [ValidRate, hreset]
    decide +kernel
  · exact wellFormed_wrSampleRate h.params hlegal

namespace ValidRate

variable {r : F64} (hr : ValidRate r)

include hr

theorem finite : isFinite r = true := (inRange_iff.1 hr).1

theorem pos : 0 < scaled r := by
  have hone : scaled fOne ≤ scaled r := (fle_iff.1 (inRange_iff.1 hr).2.1).2.2
  rw [scaled_fOne] at hone
  have := unitsPerOne_pos
  omega

/-- The exponent of a rate is far from both ends of the format. -/
theorem lowBits_bounds : 2 ^ 54 ≤ lowBits r ∧ lowBits r + 2 ^ 53 < infBits := by
  obtain ⟨-, hlo, hhi⟩ := inRange_iff.1 hr
  have h1 := lowBits_le_of_fle (by decide +kernel) hlo
  have h2 := lowBits_le_of_fle hr.pos.le hhi
  have hone : lowBits fOne = 0x3FF0000000000000 := by decide
  have hmax : lowBits fsMaxMax = 0x41DFFFFFFFC00000 := by decide
  unfold infBits
  omega

/-- Half the rate is exact. -/
theorem half : isFinite (fdiv r fTwo) = true ∧ scaled (fdiv r fTwo) * 2 = scaled r ∧
    lowBits (fdiv r fTwo) = lowBits r - 2 ^ 52 :=
  fdiv_fTwo hr.finite hr.pos (by have := hr.lowBits_bounds; omega)

/-- A quarter of the rate is half of the half. -/
theorem quarter : fle (fdiv r fFour) (fdiv (fdiv r fTwo) fTwo) = true ∧
    scaled (fdiv (fdiv r fTwo) fTwo) * 4 = scaled r := by
  obtain ⟨hhalf, hhalfVal, hhalfBits⟩ := hr.half
  have hpos := hr.pos
  obtain ⟨hquarter, hquarterVal, -⟩ := fdiv_fTwo (a := fdiv r fTwo) hhalf (by omega)
    (by have := hr.lowBits_bounds; omega)
  have hnonneg : 0 ≤ scaled (fdiv (fdiv r fTwo) fTwo) := by omega
  have hmag := scaled_eq_magnitude hnonneg
  have hmagR := scaled_eq_magnitude hpos.le
  refine ⟨fdiv_le hr.finite isFinite_fFour hpos.le ?_ (nonneg_iff.2 ⟨isNaN_of_finite hquarter, hnonneg⟩) ?_, by omega⟩
  · rw [scaled_fFour]
    have := unitsPerOne_pos
    omega
  · rw [magnitude_fFour, ← Nat.mul_assoc]
    exact Nat.mul_le_mul_right _ (by omega)

/-- A frequency that is at most a quarter of the rate: its double is at most half the rate (43_period.md R180). -/
theorem double_le_half {f : F64} (hfin : isFinite f = true) (h0 : 0 ≤ scaled f) (hf : fle f (fdiv r fFour) = true) :
    fle (fmul fTwo f) (fdiv r fTwo) = true := by
  obtain ⟨hhalf, hhalfVal, -⟩ := hr.half
  obtain ⟨hle, hquarterVal⟩ := hr.quarter
  have hf' := (fle_iff.1 (fle_trans hf hle)).2.2
  have hmagF := scaled_eq_magnitude h0
  have hpos := hr.pos
  have hhalf0 : 0 ≤ scaled (fdiv r fTwo) := by omega
  have hmagH := scaled_eq_magnitude hhalf0
  refine fmul_le isFinite_fTwo hfin (by decide +kernel) h0 (nonneg_iff.2 ⟨isNaN_of_finite hhalf, hhalf0⟩) ?_
  rw [magnitude_fTwo, Nat.mul_right_comm]
  exact Nat.mul_le_mul_right _ (by omega)

theorem quarter_le_half : fle (fdiv r fFour) (fdiv r fTwo) = true := by
  obtain ⟨hhalf, hhalfVal, -⟩ := hr.half
  obtain ⟨hle, hquarterVal⟩ := hr.quarter
  refine fle_trans hle (fle_iff.2 ⟨(fle_iff.1 hle).2.1, isNaN_of_finite hhalf, ?_⟩)
  have := hr.pos
  omega

/-- Four times the rate is a binary64 value. -/
theorem exists_fourfold : ∃ y : F64, isFinite y = true ∧ fle fZero y = true ∧ magnitude y = 4 * magnitude r := by
  obtain ⟨hlo, hhi⟩ := hr.lowBits_bounds
  have h1 := magOfBits_halve (b := lowBits r + 2 ^ 53) (by omega)
  have h2 := magOfBits_halve (b := lowBits r + 2 ^ 52) (by omega)
  rw [show lowBits r + 2 ^ 53 - 2 ^ 52 = lowBits r + 2 ^ 52 by omega] at h1
  rw [Nat.add_sub_cancel, ← magnitude_lowBits] at h2
  refine ⟨packF64 false (lowBits r + 2 ^ 53), ?_, nonneg_iff.2 ⟨isNaN_packF64 hhi.le, ?_⟩, ?_⟩
  · rw [isFinite_packF64 hhi.le]
    exact decide_eq_true hhi
  · rw [scaled_packF64_pos hhi.le]
    exact Int.natCast_nonneg _
  · rw [magnitude_packF64 hhi.le]
    omega

/-- The phase increment of a frequency up to half the rate is not negative, and at most 4: rounding twice does not carry it
from PI past 4 (41_oscillator.md R138, R142). -/
theorem phaseIncrement_bounds {f : F64} (hf : inRange fZero (fdiv r fTwo) f = true) :
    fle fZero (phaseIncrement f r) = true ∧ fle (phaseIncrement f r) fFour = true := by
  obtain ⟨hfin, hlo, hhi⟩ := inRange_iff.1 hf
  obtain ⟨y, hyfin, hy0, hymag⟩ := hr.exists_fourfold
  obtain ⟨-, hhalfVal, -⟩ := hr.half
  have hf0 := (nonneg_iff.1 hlo).2
  have hmagF := scaled_eq_magnitude hf0
  have hmagR := scaled_eq_magnitude hr.pos.le
  have hfle := (fle_iff.1 hhi).2.2
  have htwoPi : 0 ≤ scaled fTwoPi := by decide +kernel
  have hprod0 := fmul_nonneg isFinite_fTwoPi hfin htwoPi hf0
  have hprod : fle (fmul fTwoPi f) y = true := by
    refine fmul_le isFinite_fTwoPi hfin htwoPi hf0 hy0 ?_
    calc magnitude fTwoPi * magnitude f
        ≤ 8 * unitsPerOne * magnitude f := Nat.mul_le_mul_right _ (by decide +kernel)
      _ = 4 * (2 * magnitude f) * unitsPerOne := by ring
      _ ≤ magnitude y * unitsPerOne := Nat.mul_le_mul_right _ (by omega)
  have hprodFin := isFinite_of_le hprod hprod0 hyfin
  obtain ⟨-, hp0⟩ := nonneg_iff.1 hprod0
  refine ⟨fdiv_nonneg hprodFin hr.finite hp0 hr.pos, fdiv_le hprodFin hr.finite hp0 hr.pos (by decide +kernel) ?_⟩
  have hmagP := scaled_eq_magnitude hp0
  have hmagY := scaled_eq_magnitude (nonneg_iff.1 hy0).2
  have hple := (fle_iff.1 hprod).2.2
  calc magnitude (fmul fTwoPi f) * unitsPerOne
      ≤ 4 * magnitude r * unitsPerOne := Nat.mul_le_mul_right _ (by omega)
    _ = magnitude fFour * magnitude r := by rw [magnitude_fFour, Nat.mul_right_comm]

end ValidRate

/-! ### The wrap (R139) -/

/-- A sum that is not negative has a negative sign only if both operands have. -/
theorem signBit_fadd {a b : F64} (ha : isFinite a = true) (hb : isFinite b = true) (h : 0 ≤ scaled a + scaled b)
    (hsign : (signBit a && signBit b) = false) : signBit (fadd a b) = false := by
  unfold fadd
  simp only [isNaN_of_finite ha, isNaN_of_finite hb, isInf_of_finite ha, isInf_of_finite hb, Bool.or_self, Bool.false_and,
    Bool.false_eq_true, if_false]
  split
  · rw [signBit_packF64 (by norm_num [infBits]), hsign]
  · rw [signBit_packF64 (roundMag_le_infBits _ _), decide_eq_false (by omega)]

/-- The bounds of R142 on a phase. -/
def LegalPhase (p : F64) : Prop := isFinite p = true ∧ signBit p = false ∧ flt p fTwoPi = true

theorem scaled_fTwoPi_bounds : 6 * (unitsPerOne : Int) < scaled fTwoPi ∧ scaled fTwoPi < 7 * (unitsPerOne : Int) := by
  decide +kernel

/-- A value from +0.0 to 5, without a sign, is a legal phase. -/
theorem legalPhase_of_le_five {p : F64} (hsign : signBit p = false) (h0 : fle fZero p = true)
    (h : fle p (fofInt (5 : Nat)) = true) : LegalPhase p := by
  obtain ⟨hfive, hfiveVal⟩ := fofInt_exact (w := 5) (by norm_num) (by norm_num)
  obtain ⟨hnan, -, hle⟩ := fle_iff.1 h
  have hbound := scaled_fTwoPi_bounds.1
  have := unitsPerOne_pos
  refine ⟨isFinite_of_le h h0 hfive, hsign, flt_iff.2 ⟨hnan, isNaN_of_finite isFinite_fTwoPi, ?_⟩⟩
  rw [hfiveVal] at hle
  push_cast at hle
  omega

/-- One subtraction wraps the sum of a legal phase and an increment of at most 4. -/
theorem legalPhase_wrapPhase {p d : F64} (hp : LegalPhase p) (hd0 : fle fZero d = true) (hd : fle d fFour = true) :
    LegalPhase (wrapPhase (fadd p d)) := by
  obtain ⟨hfin, hsign, hlt⟩ := hp
  obtain ⟨hnan, -, hpval⟩ := flt_iff.1 hlt
  obtain ⟨-, -, hdval⟩ := fle_iff.1 hd
  obtain ⟨-, hd0val⟩ := nonneg_iff.1 hd0
  have hdfin := isFinite_of_le hd hd0 isFinite_fFour
  have hp0 : 0 ≤ scaled p := by rw [scaled_of_not_signBit hsign]; exact Int.natCast_nonneg _
  have hbounds := scaled_fTwoPi_bounds
  obtain ⟨heleven, helevenVal⟩ := fofInt_exact (w := 11) (by norm_num) (by norm_num)
  obtain ⟨hfive, hfiveVal⟩ := fofInt_exact (w := 5) (by norm_num) (by norm_num)
  push_cast at helevenVal hfiveVal
  rw [scaled_fFour] at hdval
  have hsum0 := fadd_nonneg (nonneg_iff.2 ⟨hnan, hp0⟩) hd0
  have hsumSign := signBit_fadd hfin hdfin (by omega) (by rw [hsign]; rfl)
  have hsum : fle (fadd p d) (fofInt (11 : Nat)) = true :=
    fadd_le hfin hdfin (isNaN_of_finite heleven) (by push_cast; omega)
  have hsumFin := isFinite_of_le hsum hsum0 heleven
  obtain ⟨hsumNaN, -, hsumVal⟩ := fle_iff.1 hsum
  push_cast at hsumVal
  unfold wrapPhase
  split
  · next hwrap =>
    obtain ⟨-, -, hge⟩ := fle_iff.1 hwrap
    refine legalPhase_of_le_five ?_ (le_fsub hsumFin isFinite_fTwoPi isNaN_fZero (by rw [scaled_fZero]; omega))
      (fsub_le hsumFin isFinite_fTwoPi (isNaN_of_finite hfive) (by push_cast; omega))
    rw [fsub_eq_fadd hsumFin isFinite_fTwoPi]
    exact signBit_fadd hsumFin (by rw [isFinite_fneg]; exact isFinite_fTwoPi) (by rw [scaled_fneg]; omega)
      (by rw [hsumSign]; rfl)
  · next hkeep =>
    have hbelow := (not_fle_iff (isNaN_of_finite isFinite_fTwoPi) hsumNaN).1 hkeep
    exact ⟨hsumFin, hsumSign, flt_iff.2 ⟨hsumNaN, isNaN_of_finite isFinite_fTwoPi, hbelow⟩⟩

end Sys2Proof.Machine
end

section
/-! PROOFS. The tones, the current frequency and the phase: every operation and every sample keeps them in range
(41_oscillator.md R142, 43_period.md R180). -/

namespace Sys2Proof.Machine

/-! ### What is kept -/

/-- The tones and the phase are in range: what the statement is about. -/
structure OscInRange (s : State) : Prop where
  tones : TonesBounded s
  phase : PhaseInRange s

/-- No stream starts and a running one keeps its configuration; no symbol is added, and the frequency, its ramp and the phase
are kept. -/
structure KeepsTones (s t : State) : Prop where
  run : t.running = true → s.running = true ∧ t.cfg = s.cfg
  queue : ∀ q ∈ t.symq.committed ++ t.symq.staged, q ∈ s.symq.committed ++ s.symq.staged
  curF : t.synth.curF = s.synth.curF
  frd : t.synth.frd = s.synth.frd
  phase : t.synth.phase = s.synth.phase

theorem phaseInRange_iff {s : State} : PhaseInRange s ↔ LegalPhase s.synth.phase := Iff.rfl

theorem legalTone_congr {s t : State} (h : t.cfg = s.cfg) (x : F64) : legalTone t x = legalTone s x := by
  simp only [legalTone, fhalf, fs, h]

theorem fhalf_congr {s t : State} (h : t.cfg = s.cfg) : fhalf t = fhalf s := by
  simp only [fhalf, fs, h]

theorem OscInRange.of_keepsTones {s t : State} (h : OscInRange s) (hk : KeepsTones s t) : OscInRange t where
  tones := {
    queued := fun hr q hq => by
      obtain ⟨hrun, hcfg⟩ := hk.run hr
      rw [legalTone_congr hcfg]
      exact h.tones.queued hrun q (hk.queue q hq)
    current := fun hr => by
      obtain ⟨hrun, hcfg⟩ := hk.run hr
      rw [fhalf_congr hcfg, hk.curF]
      exact h.tones.current hrun
    ramp := fun hr => by
      rw [hk.frd]
      exact h.tones.ramp (hk.run hr).1 }
  phase := phaseInRange_iff.2 (hk.phase ▸ phaseInRange_iff.1 h.phase)

/-- The shape of most updates: `running`, CFG, the FIFO and the oscillator are not written. -/
theorem KeepsTones.of_eq {s t : State} (hrun : t.running = s.running) (hcfg : t.cfg = s.cfg) (hsymq : t.symq = s.symq)
    (hcurF : t.synth.curF = s.synth.curF) (hfrd : t.synth.frd = s.synth.frd) (hphase : t.synth.phase = s.synth.phase) :
    KeepsTones s t :=
  ⟨fun hr => ⟨hrun ▸ hr, hcfg⟩, fun _ hq => hsymq ▸ hq, hcurF, hfrd, hphase⟩

theorem keepsTones_hostError (w : Bool) (a : RegAddr) (c : ErrCode) (s : State) : KeepsTones s (hostError w a c s) :=
  .of_eq rfl rfl rfl rfl rfl rfl

/-- A state in which no stream runs has no tone to bound. -/
theorem KeepsTones.of_stopped {s t : State} (hrun : t.running = false) (hsymq : t.symq = s.symq)
    (hsynth : t.synth = s.synth) : KeepsTones s t :=
  ⟨fun hr => absurd hr (by rw [hrun]; decide), fun _ hq => hsymq ▸ hq, congrArg (·.curF) hsynth,
    congrArg (·.frd) hsynth, congrArg (·.phase) hsynth⟩

/-! ### The frequencies of a running stream -/

/-- FREQ is a legal tone while a stream runs: at most half the sample rate, and in PULSE mode a quarter. -/
theorem RegsLegal.freq_inRange {s : State} (h : RegsLegal s) (hrun : s.running = true) :
    inRange fZero (fhalf s) s.live.freq = true := by
  obtain ⟨hfreq, -⟩ := h.live
  obtain ⟨hfin, h0⟩ := legalNonNeg_iff.1 hfreq
  obtain ⟨hfits, -⟩ := startFits_iff.1 (h.fits hrun)
  refine inRange_iff.2 ⟨hfin, h0, ?_⟩
  split at hfits
  · exact fle_trans hfits h.validRate.quarter_le_half
  · exact hfits

/-- In MODEM mode so are the three tones. -/
theorem RegsLegal.tones_inRange {s : State} (h : RegsLegal s) (hrun : s.running = true) (hm : s.cfg.mode = .modem) :
    legalTone s s.live.markFreq = true ∧ legalTone s s.live.spaceFreq = true ∧ legalTone s s.live.idleFreq = true := by
  obtain ⟨-, -, -, -, -, -, -, -, hmark, hspace, hidle⟩ := h.live
  obtain ⟨-, hmodem⟩ := startFits_iff.1 (h.fits hrun)
  have htone : ∀ v ∈ modemValues s.live, legalNonNeg v = true → legalTone s v = true := fun v hv hlegal =>
    legalTone_iff.2 ⟨(legalNonNeg_iff.1 hlegal).1, (legalNonNeg_iff.1 hlegal).2, hmodem hm v hv⟩
  exact ⟨htone _ (by simp [modemValues]) hmark, htone _ (by simp [modemValues]) hspace,
    htone _ (by simp [modemValues]) hidle⟩

/-! ### The host's operations -/

/-- An accepted START plays a legal frequency from phase +0.0 with an empty FIFO (40_control.md R107). -/
theorem oscInRange_streamInit {s : State} (h : RegsLegal (streamInit s)) : OscInRange (streamInit s) where
  tones := {
    queued := fun _ q hq => by cases hq
    current := fun _ => by
      have hfreq := h.freq_inRange rfl
      have hmodem := h.tones_inRange rfl
      change inRange fZero (fhalf (streamInit s)) (if s.cfg.mode = .modem then s.live.idleFreq else s.live.freq) = true
      split
      · next hm => exact (hmodem hm).2.2
      · exact hfreq
    ramp := fun _ => by
      obtain ⟨-, -, -, -, hrate, -⟩ := h.live
      obtain ⟨hfin, h0⟩ := legalNonNeg_iff.1 hrate
      exact fdiv_nonneg hfin h.validRate.finite (nonneg_iff.1 h0).2 h.validRate.pos }
  phase := phaseInRange_iff.2 (by
    change LegalPhase fZero
    unfold LegalPhase
    decide +kernel)

theorem exec_start_oscInRange {s : State} (hregs : RegsLegal s) (h : OscInRange s) :
    ∃ t, exec .start s = .next t ∧ OscInRange t := by
  refine ⟨_, rfl, ?_⟩
  split
  · exact h.of_keepsTones (.of_eq rfl rfl rfl rfl rfl rfl)
  · split
    · split
      · next hfits =>
        have hinit : OscInRange (streamInit s) :=
          oscInRange_streamInit ⟨hregs.params, hregs.cfg, hregs.live, fun _ => hfits⟩
        exact hinit.of_keepsTones (.of_eq rfl rfl rfl rfl rfl rfl)
      · exact h.of_keepsTones (keepsTones_hostError ..)
    · exact h.of_keepsTones (keepsTones_hostError ..)

/-- Every symbol of a frame has the mark or the space tone (44_framing.md R192, R193). -/
theorem frame_tone {l : LiveRegs} {b : BitVec 8} {q : SymbolT} (hq : q ∈ frame l b) :
    q.tone = l.markFreq ∨ q.tone = l.spaceFreq := by
  have hbit : ∀ x, (bitSymbol l x).tone = l.markFreq ∨ (bitSymbol l x).tone = l.spaceFreq := fun x => by
    cases x
    · exact .inr rfl
    · exact .inl rfl
  have hparity : ∀ r, ∀ q ∈ paritySymbols l r, ∃ x, q = bitSymbol l x := fun r q hq => by
    unfold paritySymbols at hq
    split at hq
    · cases hq
    · exact ⟨r, List.mem_singleton.1 hq⟩
    · exact ⟨!r, List.mem_singleton.1 hq⟩
  simp only [frame, List.mem_cons, List.mem_append, List.mem_map, List.not_mem_nil, or_false] at hq
  obtain rfl | (⟨x, -, rfl⟩ | hpar) | rfl := hq
  · exact hbit false
  · exact hbit x
  · obtain ⟨x, rfl⟩ := hparity _ q hpar
    exact hbit x
  · exact .inl rfl

/-- Staging a frame adds the two stored tones to the queue. -/
theorem oscInRange_stageFrame {s : State} (hregs : RegsLegal s) (h : OscInRange s) (hm : s.cfg.mode = .modem)
    (b : BitVec 8) : OscInRange (stageFrame b s) := by
  unfold stageFrame
  split
  · refine ⟨⟨fun hr q hq => ?_, h.tones.current, h.tones.ramp⟩, h.phase⟩
    obtain ⟨hmark, hspace, -⟩ := hregs.tones_inRange hr hm
    change q ∈ s.symq.committed ++ (s.symq.staged ++ frame s.live b) at hq
    rw [← List.append_assoc] at hq
    rcases List.mem_append.1 hq with hold | hnew
    · exact h.tones.queued hr q hold
    · change legalTone s q.tone = true
      obtain e | e := frame_tone hnew <;> rw [e]
      · exact hmark
      · exact hspace
  · exact h.of_keepsTones (keepsTones_hostError ..)

theorem exec_txByte_oscInRange {s : State} (hregs : RegsLegal s) (h : OscInRange s) (d : Word64) :
    ∃ t, exec (.txByte d) s = .next t ∧ OscInRange t := by
  refine ⟨_, rfl, ifStreaming_induct_of_run (fun _ => h.of_keepsTones (keepsTones_hostError ..)) fun hm _ => ?_⟩
  split
  · exact oscInRange_stageFrame hregs h hm _
  · exact h.of_keepsTones (keepsTones_hostError ..)

/-- ACTIVATE plays FREQ (43_period.md R170). -/
theorem exec_activate_oscInRange {s : State} (hregs : RegsLegal s) (h : OscInRange s) :
    ∃ t, exec .activate s = .next t ∧ OscInRange t := by
  refine ⟨_, rfl, ifStreaming_induct (fun _ => h.of_keepsTones (keepsTones_hostError ..)) ?_⟩
  unfold enterRamping
  split
  · exact ⟨⟨h.tones.queued, hregs.freq_inRange, h.tones.ramp⟩, h.phase⟩
  · exact h.of_keepsTones (.of_eq rfl rfl rfl rfl rfl rfl)

/-- A legal rate over the sample rate is a ramp that is not negative (43_period.md R173). -/
theorem exec_wrFreqRaiseRate_oscInRange {s : State} (hregs : RegsLegal s) (h : OscInRange s) (d : Word64) :
    ∃ t, exec (.wrFreqRaiseRate d) s = .next t ∧ OscInRange t := by
  refine ⟨_, rfl, ifInRange_induct_of_legal (h.of_keepsTones (keepsTones_hostError ..)) fun hd => ?_⟩
  obtain ⟨hfin, h0⟩ := legalNonNeg_iff.1 hd
  unfold storeFreqRaiseRate
  split
  · refine ⟨⟨h.tones.queued, h.tones.current, fun _ => ?_⟩, h.phase⟩
    exact fdiv_nonneg hfin hregs.validRate.finite (nonneg_iff.1 h0).2 hregs.validRate.pos
  · exact h.of_keepsTones (.of_eq rfl rfl rfl rfl rfl rfl)

theorem storeVolume_keepsTones (d : F64) (s : State) : KeepsTones s (accept (storeVolume d s)) := by
  unfold storeVolume; split <;> exact .of_eq rfl rfl rfl rfl rfl rfl

theorem storeVolRaiseRate_keepsTones (d : F64) (s : State) : KeepsTones s (accept (storeVolRaiseRate d s)) := by
  unfold storeVolRaiseRate; split <;> exact .of_eq rfl rfl rfl rfl rfl rfl

/-- The operations that may play another frequency, change its ramp or queue a tone. -/
def writesTones : Instr → Bool
  | .start | .txByte _ | .activate | .wrFreqRaiseRate _ => true
  | _ => false

/-- Every other operation keeps them; a CFG write is accepted only while stopped. -/
theorem exec_keepsTones {i : Instr} (hi : writesTones i = false) (s : State) :
    ∃ t, exec i s = .next t ∧ KeepsTones s t := by
  have hrej : ∀ a c, KeepsTones s (hostError true a c s) := fun a c => keepsTones_hostError true a c s
  cases hw : i.isWrite with
  | false =>
    obtain ⟨v, hv⟩ := exec_read hw s
    exact ⟨_, hv, .of_eq rfl rfl rfl rfl rfl rfl⟩
  | true =>
    match i, hw with
    | .start, _ | .txByte _, _ | .activate, _ | .wrFreqRaiseRate _, _ => cases hi
    | .clrErr, _ => exact ⟨_, rfl, .of_eq rfl rfl rfl rfl rfl rfl⟩
    | .stop, _ => exact ⟨_, rfl, .of_stopped rfl rfl rfl⟩
    | .wrMode d, _ | .wrWaveform d, _ =>
      exact ⟨_, rfl, unlessBusy_induct (hrej ..) fun hs =>
        ifListed_induct (hrej ..) fun _ => .of_stopped hs rfl rfl⟩
    | .wrSampleRate d, _ | .wrBufSize d, _ | .wrBufCount d, _ =>
      exact ⟨_, rfl, unlessBusy_induct (hrej ..) fun hs => ifInRange_induct (hrej ..) (.of_stopped hs rfl rfl)⟩
    | .wrDataBits d, _ | .wrParity d, _ | .wrStopBits d, _ =>
      exact ⟨_, rfl, ifListed_induct (hrej ..) fun _ => .of_eq rfl rfl rfl rfl rfl rfl⟩
    | .wrFreq d, _ | .wrEnvK1 d, _ | .wrEnvK2 d, _ | .wrHoldDuration d, _ | .wrMarkFreq d, _ | .wrSpaceFreq d, _
    | .wrBaud d, _ | .wrIdleFreq d, _ =>
      exact ⟨_, rfl, ifInRange_induct (hrej ..) (.of_eq rfl rfl rfl rfl rfl rfl)⟩
    | .wrVolume d, _ => exact ⟨_, rfl, ifInRange_induct (hrej ..) (storeVolume_keepsTones d s)⟩
    | .wrVolRaiseRate d, _ => exact ⟨_, rfl, ifInRange_induct (hrej ..) (storeVolRaiseRate_keepsTones d s)⟩
    | .deactivate, _ => exact ⟨_, rfl, ifStreaming_induct (fun _ => hrej ..) (.of_eq rfl rfl rfl rfl rfl rfl)⟩
    | .txCommit, _ =>
      exact ⟨_, rfl, ifStreaming_induct (fun _ => hrej ..)
        ⟨fun hr => ⟨hr, rfl⟩, fun q hq => by simpa using hq, rfl, rfl, rfl⟩⟩
    | .txAbort, _ =>
      exact ⟨_, rfl, ifStreaming_induct (fun _ => hrej ..)
        ⟨fun hr => ⟨hr, rfl⟩, fun q hq => List.mem_append_left _ (by simpa using hq), rfl, rfl, rfl⟩⟩

theorem exec_oscInRange {s : State} (hregs : RegsLegal s) (h : OscInRange s) (i : Instr) :
    ∃ t, exec i s = .next t ∧ OscInRange t := by
  cases hi : writesTones i with
  | false =>
    obtain ⟨t, ht, hk⟩ := exec_keepsTones hi s
    exact ⟨t, ht, h.of_keepsTones hk⟩
  | true =>
    match i, hi with
    | .start, _ => exact exec_start_oscInRange hregs h
    | .txByte d, _ => exact exec_txByte_oscInRange hregs h d
    | .activate, _ => exact exec_activate_oscInRange hregs h
    | .wrFreqRaiseRate d, _ => exact exec_wrFreqRaiseRate_oscInRange hregs h d

/-- The host's action keeps the registers legal and the oscillator in range, whatever word it presents. -/
theorem hostAct_oscInRange {s u : State} {w : Option Bus73} (hregs : RegsLegal s) (h : OscInRange s)
    (hu : hostAct w s = .next u) : RegsLegal u ∧ OscInRange u := by
  cases w with
  | none =>
    cases hu
    exact ⟨hregs, h⟩
  | some w =>
    cases hd : decode w with
    | error v =>
      rw [hostAct_of_decode_error hd] at hu
      cases hu
      exact ⟨hregs.hostError .., h.of_keepsTones (keepsTones_hostError ..)⟩
    | ok i =>
      rw [hostAct_of_decode_ok hd] at hu
      obtain ⟨t, ht, hregs'⟩ := hregs.exec i
      obtain ⟨t', ht', hosc⟩ := exec_oscInRange hregs h i
      rw [hu] at ht ht'
      cases ht
      cases ht'
      exact ⟨hregs', hosc⟩

end Sys2Proof.Machine
end

section
/-! PROOFS. The sample step keeps the tones, the current frequency and the phase in range (41_oscillator.md R138 to R142,
43_period.md R166 to R168, R180, 45_scheduler.md R216), and with it the whole cycle. -/

namespace Sys2Proof.Machine

/-! ### The period state machine (43_period.md) -/

theorem rampingStep_curF (base : F64) (y : Synth) : (rampingStep base y).curF =
    if flt (fmul fTwo base) (fadd y.curF y.frd) then base else fadd y.curF y.frd := by
  unfold rampingStep; dsimp only; split <;> rfl

theorem holdingStep_curF (base hold : F64) (y : Synth) :
    (holdingStep base hold y).curF = base ∨ (holdingStep base hold y).curF = y.curF := by
  unfold holdingStep
  dsimp only
  split
  · exact .inl rfl
  · exact .inr rfl

@[simp] theorem rampingStep_frd (base : F64) (y : Synth) : (rampingStep base y).frd = y.frd := by
  unfold rampingStep; dsimp only; split <;> rfl

@[simp] theorem rampingStep_phase (base : F64) (y : Synth) : (rampingStep base y).phase = y.phase := by
  unfold rampingStep; dsimp only; split <;> rfl

@[simp] theorem holdingStep_frd (base hold : F64) (y : Synth) : (holdingStep base hold y).frd = y.frd := by
  unfold holdingStep; dsimp only; split <;> rfl

@[simp] theorem holdingStep_phase (base hold : F64) (y : Synth) : (holdingStep base hold y).phase = y.phase := by
  unfold holdingStep; dsimp only; split <;> rfl

@[simp] theorem periodModeStep_frd (s : State) : (periodModeStep s).frd = s.synth.frd := by
  unfold periodModeStep; split <;> simp [restingStep]

@[simp] theorem periodModeStep_phase (s : State) : (periodModeStep s).phase = s.synth.phase := by
  unfold periodModeStep; split <;> simp [restingStep]

/-- The ramp's ceiling: a frequency strictly above twice the base falls back to it, so that none is above half the rate
(R167, R180). -/
theorem rampingStep_curF_inRange {r base : F64} {y : Synth} (hr : ValidRate r)
    (hbase : inRange fZero (fdiv r fTwo) base = true) (hquarter : fle base (fdiv r fFour) = true)
    (hcurF : fle fZero y.curF = true) (hfrd : fle fZero y.frd = true) :
    inRange fZero (fdiv r fTwo) (rampingStep base y).curF = true := by
  rw [rampingStep_curF]
  split
  · exact hbase
  · next hceiling =>
    obtain ⟨hfin, h0, -⟩ := inRange_iff.1 hbase
    have hbase0 := (nonneg_iff.1 h0).2
    have hsum0 := fadd_nonneg hcurF hfrd
    have hdouble := hr.double_le_half hfin hbase0 hquarter
    have hle : fle (fadd y.curF y.frd) (fmul fTwo base) = true := by
      obtain ⟨hnan, -⟩ := nonneg_iff.1 hsum0
      obtain ⟨hnan', -, -⟩ := fle_iff.1 hdouble
      rw [flt_iff] at hceiling
      exact fle_iff.2 ⟨hnan, hnan', not_lt.1 fun hlt => hceiling ⟨hnan', hnan, hlt⟩⟩
    have hhalf := fle_trans hle hdouble
    exact inRange_iff.2 ⟨isFinite_of_le hhalf hsum0 hr.half.1, hsum0, hhalf⟩

/-- The period step's frequency: FREQ, the ramp below its ceiling, or the frequency that is held. -/
theorem periodModeStep_curF_inRange {s : State} (hregs : RegsLegal s) (htones : TonesBounded s) (hrun : s.running = true)
    (hm : s.cfg.mode = .pulse) : inRange fZero (fhalf s) (periodModeStep s).curF = true := by
  have hfreq := hregs.freq_inRange hrun
  unfold periodModeStep
  split
  · exact hfreq
  · obtain ⟨hquarter, -⟩ := startFits_iff.1 (hregs.fits hrun)
    rw [if_pos hm] at hquarter
    obtain ⟨-, hcurF, -⟩ := inRange_iff.1 (htones.current hrun)
    exact rampingStep_curF_inRange hregs.validRate hfreq hquarter hcurF (htones.ramp hrun)
  · obtain e | e := holdingStep_curF s.live.freq s.live.holdDuration s.synth <;> rw [e]
    · exact hfreq
    · exact htones.current hrun

/-! ### The symbol scheduler (45_scheduler.md) -/

/-- A scheduler step plays the tone of a queued symbol, the idle tone, or the frequency it played before (R216). -/
theorem schedulerFetch_cases (s : State) :
    (∃ q rest, s.symq.committed = q :: rest ∧
        schedulerFetch s = { s with synth := popSymbol q s, symq.committed := rest }) ∨
      schedulerFetch s = { s with synth.curF := s.live.idleFreq } ∨ schedulerFetch s = s := by
  unfold schedulerFetch
  split
  · split
    · next q rest hq => exact .inl ⟨q, rest, hq, rfl⟩
    · exact .inr (.inl rfl)
  · exact .inr (.inr rfl)

/-- The count writes `ws` only. -/
theorem schedulerCount_keepsTones (s : State) : KeepsTones s (schedulerCount s) := by
  unfold schedulerCount; split <;> exact .of_eq rfl rfl rfl rfl rfl rfl

theorem schedulerStep_oscInRange {s : State} (hregs : RegsLegal s) (h : OscInRange s) (hrun : s.running = true)
    (hm : s.cfg.mode = .modem) : OscInRange (schedulerStep s) := by
  refine OscInRange.of_keepsTones ?_ (schedulerCount_keepsTones _)
  obtain ⟨q, rest, hq, e⟩ | e | e := schedulerFetch_cases s <;> rw [e]
  · have hqueued : ∀ p ∈ q :: (rest ++ s.symq.staged), legalTone s p.tone = true := by
      have := h.tones.queued hrun
      rwa [hq] at this
    exact ⟨⟨fun _ p hp => hqueued p (List.mem_cons_of_mem _ hp), fun _ => hqueued q List.mem_cons_self, h.tones.ramp⟩,
      h.phase⟩
  · exact ⟨⟨h.tones.queued, fun _ => (hregs.tones_inRange hrun hm).2.2, h.tones.ramp⟩, h.phase⟩
  · exact h

/-! ### The sample step (46_pipeline.md R232) -/

theorem controlStep_oscInRange {s : State} (hregs : RegsLegal s) (h : OscInRange s) (hrun : s.running = true) :
    OscInRange (controlStep s) := by
  unfold controlStep
  split
  · exact ⟨⟨h.tones.queued, fun _ => hregs.freq_inRange hrun, h.tones.ramp⟩, h.phase⟩
  · next hm =>
    refine ⟨⟨h.tones.queued, fun _ => periodModeStep_curF_inRange hregs h.tones hrun hm, fun _ => ?_⟩, ?_⟩
    · change fle fZero (periodModeStep s).frd = true
      rw [periodModeStep_frd]
      exact h.tones.ramp hrun
    · change LegalPhase (periodModeStep s).phase
      rw [periodModeStep_phase]
      exact phaseInRange_iff.1 h.phase
  · next hm => exact schedulerStep_oscInRange hregs h hrun hm

theorem envelopeStep_keepsTones (s : State) : KeepsTones s (envelopeStep s) := by
  unfold envelopeStep; split <;> exact .of_eq rfl rfl rfl rfl rfl rfl

@[simp] theorem envelopeStep_dphi (s : State) : (envelopeStep s).synth.dphi = s.synth.dphi := by
  unfold envelopeStep; split <;> rfl

@[simp] theorem beforeSample_dphi (s : State) :
    (beforeSample s).synth.dphi = phaseIncrement (controlStep s).synth.curF s.cfg.sampleRate := by
  rw [beforeSample, envelopeStep_dphi, ← controlStep_cfg s]
  rfl

/-- The increment and the envelope follow the control step and leave the tones. -/
theorem beforeSample_oscInRange {s : State} (hregs : RegsLegal s) (h : OscInRange s) (hrun : s.running = true) :
    OscInRange (beforeSample s) := by
  have hdelta : KeepsTones (controlStep s) (phaseDelta (controlStep s)) := .of_eq rfl rfl rfl rfl rfl rfl
  exact ((controlStep_oscInRange hregs h hrun).of_keepsTones hdelta).of_keepsTones (envelopeStep_keepsTones _)

/-- The phase increment of a sample is from 0 to 4, because the control step plays at most half the rate. -/
theorem beforeSample_dphi_bounds {s : State} (hregs : RegsLegal s) (h : OscInRange s) (hrun : s.running = true) :
    fle fZero (beforeSample s).synth.dphi = true ∧ fle (beforeSample s).synth.dphi fFour = true := by
  have hcurF := (controlStep_oscInRange hregs h hrun).tones.current (by rw [controlStep_running, hrun])
  rw [fhalf_congr (controlStep_cfg s)] at hcurF
  rw [beforeSample_dphi]
  exact hregs.validRate.phaseIncrement_bounds hcurF

theorem producerAct_oscInRange {s t : State} (hregs : RegsLegal s) (h : OscInRange s) (ht : producerAct s = .next t) :
    OscInRange t := by
  obtain ⟨-, e⟩ | ⟨hrun, -, e⟩ | ⟨-, -, -, e⟩ | ⟨-, -, -, e⟩ := producerAct_cases s <;> rw [e] at ht
  · cases ht; exact h
  · obtain ⟨-, rfl⟩ := sampleStep_eq_next.1 ht
    have hbefore := beforeSample_oscInRange hregs h hrun
    obtain ⟨hd0, hd⟩ := beforeSample_dphi_bounds hregs h hrun
    exact ⟨⟨hbefore.tones.queued, hbefore.tones.current, hbefore.tones.ramp⟩,
      phaseInRange_iff.2 (legalPhase_wrapPhase (phaseInRange_iff.1 hbefore.phase) hd0 hd)⟩
  · cases ht
    exact h.of_keepsTones (.of_eq rfl rfl rfl rfl rfl rfl)
  · cases ht; exact h

/-! ### The consumer and the cycle -/

/-- The consumer writes neither the registers nor the oscillator (20_memory.md R74). -/
theorem consumerAct_oscInRange {r : Bool} {s t : State} (hregs : RegsLegal s) (h : OscInRange s)
    (ht : consumerAct r s = .next t) : RegsLegal t ∧ OscInRange t := by
  rw [consumerAct_frame ht]
  exact ⟨hregs.of_kept rfl rfl rfl id, h.of_keepsTones (.of_eq rfl rfl rfl rfl rfl rfl)⟩

/-- The reset state plays nothing, at phase +0.0. -/
theorem resetCycle_oscInRange (s : State) : OscInRange (resetCycle s) where
  tones := ⟨(fun hr => by cases hr), (fun hr => by cases hr), (fun hr => by cases hr)⟩
  phase := phaseInRange_iff.2 (by
    change LegalPhase 0#64
    unfold LegalPhase
    decide +kernel)

/-- Settles O57: the three actions of a cycle keep the registers legal and the oscillator in range, one after the other. -/
theorem phaseKept : Obligations.PhaseKept := by
  intro s t hinv htones hphase hstep
  suffices h : OscInRange t from ⟨h.tones, h.phase⟩
  cases hrst : (nextInputs s).rst with
  | true =>
    rw [step_reset hrst] at hstep
    cases hstep
    exact resetCycle_oscInRange s
  | false =>
    rw [step_cycle hrst] at hstep
    obtain ⟨u, v, hhost, hcons, hprod⟩ := cycle_eq_next.1 hstep
    have hosc : OscInRange s := ⟨htones, hphase⟩
    have hregs : RegsLegal (beginCycle s) := hinv.regsLegal.of_kept rfl rfl rfl id
    have hbegin : OscInRange (beginCycle s) := hosc.of_keepsTones (.of_eq rfl rfl rfl rfl rfl rfl)
    obtain ⟨hregsU, hoscU⟩ := hostAct_oscInRange hregs hbegin hhost
    obtain ⟨hregsV, hoscV⟩ := consumerAct_oscInRange hregsU hoscU hcons
    exact producerAct_oscInRange hregsV hoscV hprod

end Sys2Proof.Machine
end

section
/-! PROOFS. The envelope filter and the write of VOLUME (42_envelope.md R151, R154). -/

namespace Sys2Proof.Machine

theorem envelopeStep_idle {s : State} (h : s.synth.tgtValid = false) : envelopeStep s = s := by
  simp [envelopeStep, h]

theorem envelopeStep_pending {s : State} (h : s.synth.tgtValid = true) : envelopeStep s = { s with
    synth.curV := envelopeNext s, synth.tgtValid := !feq (envelopeNext s) s.synth.curV } := by
  rw [envelopeStep, if_pos h]

/-- Settles O43: `n` is `envelopeNext`. -/
theorem envelopeFilter : Obligations.EnvelopeFilter := fun _ => ⟨envelopeStep_idle, envelopeStep_pending⟩

theorem storeVolume_retargets {d : F64} {s : State} (h : s.running = true ∧ s.cfg.mode ≠ .pulse) :
    storeVolume d s = { s with live.volume := d, synth.tgt := d, synth.tgtValid := true } := by
  simp [storeVolume, h]

theorem storeVolume_stores {d : F64} {s : State} (h : ¬ (s.running = true ∧ s.cfg.mode ≠ .pulse)) :
    storeVolume d s = { s with live.volume := d } := by
  rw [storeVolume, if_neg (by simpa using h)]

/-- Settles O27: the value passes the write's range check, and is then stored in one of the two ways of R154. -/
theorem volumeWrite : Obligations.VolumeWrite := by
  intro s d hfin hlo hhi
  have hexec : exec (.wrVolume d) s = .next (accept (storeVolume d s)) :=
    exec_legal rfl (legalUnit_iff.2 ⟨hfin, hlo, hhi⟩)
  refine ⟨fun hactive => ?_, fun hinactive => ?_⟩
  · rw [hexec, storeVolume_retargets hactive]
    rfl
  · rw [hexec, storeVolume_stores hinactive]
    rfl

end Sys2Proof.Machine
end

section
/-! PROOFS. An invariant of the oscillator, envelope, period and scheduler state: what its proof for a whole cycle comes down to
(20_memory.md R69, R74). -/

namespace Sys2Proof.Machine

/-- What holds of the state, of every rejection and of every operation's answer holds of the answer to any presented word. -/
theorem hostAct_induct {P : State → Prop} {w : Option Bus73} {s u : State} (hnone : P s)
    (hreject : ∀ w a c, P (hostError w a c s)) (hexec : ∀ i, ∃ t, exec i s = .next t ∧ P t)
    (hu : hostAct w s = .next u) : P u := by
  cases w with
  | none =>
    cases hu
    exact hnone
  | some w =>
    cases hd : decode w with
    | error v =>
      rw [hostAct_of_decode_error hd] at hu
      cases hu
      exact hreject ..
    | ok i =>
      rw [hostAct_of_decode_ok hd] at hu
      obtain ⟨t, ht, hP⟩ := hexec i
      obtain rfl : t = u := by rw [hu] at ht; injection ht with ht; exact ht.symm
      exact hP

theorem hostAct_regsLegal {w : Option Bus73} {s u : State} (h : RegsLegal s) (hu : hostAct w s = .next u) :
    RegsLegal u :=
  hostAct_induct h h.hostError h.exec hu

theorem consumerAct_regsLegal {r : Bool} {s t : State} (h : RegsLegal s) (ht : consumerAct r s = .next t) :
    RegsLegal t := by
  rw [consumerAct_frame ht]
  exact h.of_kept rfl rfl rfl id

theorem consumerAct_synth {r : Bool} {s t : State} (ht : consumerAct r s = .next t) : t.synth = s.synth :=
  congrArg (·.synth) (consumerAct_frame ht)

/-- A property of the oscillator, envelope, period and scheduler state is kept by every step if START, the five operations of
`writesSynth`, the producer and the reset keep it: nothing else writes that state (20_memory.md R74). -/
theorem step_keeps_synthProperty {P : State → Prop} (hcongr : ∀ {s t : State}, P s → t.synth = s.synth → P t)
    (hstart : ∀ {s : State}, RegsLegal s → P s → ∃ t, exec .start s = .next t ∧ P t)
    (hwrite : ∀ {s : State} {i : Instr}, writesSynth i = true → RegsLegal s → P s → ∃ t, exec i s = .next t ∧ P t)
    (hproducer : ∀ {s t : State}, RegsLegal s → P s → producerAct s = .next t → P t) (hreset : ∀ s, P (resetCycle s))
    {s t : State} (hregs : RegsLegal s) (h : P s) (hstep : step s = .next t) : P t := by
  have hexec : ∀ {s : State}, RegsLegal s → P s → ∀ i, ∃ t, exec i s = .next t ∧ P t := by
    intro s hregs h i
    by_cases hi : i = .start
    · subst hi
      exact hstart hregs h
    · cases hw : writesSynth i with
      | true => exact hwrite hw hregs h
      | false =>
        obtain ⟨t, ht, hkept⟩ := exec_keepsProducer hi hw s
        exact ⟨t, ht, hcongr h hkept.synth⟩
  cases hrst : (nextInputs s).rst with
  | true =>
    rw [step_reset hrst] at hstep
    cases hstep
    exact hreset s
  | false =>
    rw [step_cycle hrst] at hstep
    obtain ⟨u, v, hhost, hcons, hprod⟩ := cycle_eq_next.1 hstep
    have hregsBegin : RegsLegal (beginCycle s) := hregs.of_kept rfl rfl rfl id
    have hbegin : P (beginCycle s) := hcongr h rfl
    have hhostP : P u := hostAct_induct hbegin (fun _ _ _ => hcongr hbegin rfl) (hexec hregsBegin hbegin) hhost
    have hregsU := hostAct_regsLegal hregsBegin hhost
    exact hproducer (consumerAct_regsLegal hregsU hcons) (hcongr hhostP (consumerAct_synth hcons)) hprod

end Sys2Proof.Machine
end

section
/-! PROOFS. The smoothed volume, its target and the volume factor: every operation and every sample keeps them in range
(42_envelope.md R151, R152, R154; 43_period.md R166 to R171, R175, R180). -/

namespace Sys2Proof.Machine

theorem legalUnit_fZero : legalUnit fZero = true := by decide +kernel

theorem legalNonNeg_fZero : legalNonNeg fZero = true := by decide +kernel

/-- The bounds speak of the envelope and period state only. -/
theorem VolumeBounded.of_synth {s t : State} (h : VolumeBounded s) (hsynth : t.synth = s.synth) : VolumeBounded t where
  current := hsynth ▸ h.current
  target := hsynth ▸ h.target
  factor := hsynth ▸ h.factor
  ramp := hsynth ▸ h.ramp

/-- A legal rate over the sample rate is a per-sample delta that is not negative (40_control.md R107, 43_period.md R175). -/
theorem RegsLegal.delta_nonneg {s : State} (h : RegsLegal s) {v : F64} (hv : legalNonNeg v = true) :
    fle fZero (fdiv v s.cfg.sampleRate) = true := by
  obtain ⟨hfin, h0⟩ := legalNonNeg_iff.1 hv
  exact fdiv_nonneg hfin h.validRate.finite (nonneg_iff.1 h0).2 h.validRate.pos

/-! ### The host's operations -/

/-- An accepted START begins in silence, with the stored VOLUME or, in PULSE mode, 0 as the target (40_control.md R107). -/
theorem volumeBounded_streamInit {s : State} (hregs : RegsLegal s) : VolumeBounded (streamInit s) := by
  obtain ⟨-, hvolume, -, -, -, hvolRate, -⟩ := hregs.live
  refine ⟨legalNonNeg_fZero, ?target, legalUnit_fZero, hregs.delta_nonneg hvolRate⟩
  change legalUnit (if s.cfg.mode = .pulse then fZero else s.live.volume) = true
  split
  · exact legalUnit_fZero
  · exact hvolume

theorem exec_start_volumeBounded {s : State} (hregs : RegsLegal s) (h : VolumeBounded s) :
    ∃ t, exec .start s = .next t ∧ VolumeBounded t := by
  refine ⟨_, exec_start s, ?_⟩
  split
  · exact h.of_synth rfl
  · split
    · split
      · exact (volumeBounded_streamInit hregs).of_synth rfl
      · exact h.of_synth rfl
    · exact h.of_synth rfl

theorem storeVolume_volumeBounded {s : State} {d : F64} (h : VolumeBounded s) (hd : legalUnit d = true) :
    VolumeBounded (storeVolume d s) := by
  unfold storeVolume
  split
  · exact ⟨h.current, hd, h.factor, h.ramp⟩
  · exact h.of_synth rfl

theorem storeFreqRaiseRate_volumeBounded {s : State} (h : VolumeBounded s) (d : F64) :
    VolumeBounded (storeFreqRaiseRate d s) := by
  unfold storeFreqRaiseRate
  split <;> exact ⟨h.current, h.target, h.factor, h.ramp⟩

theorem storeVolRaiseRate_volumeBounded {s : State} {d : F64} (hregs : RegsLegal s) (h : VolumeBounded s)
    (hd : legalNonNeg d = true) : VolumeBounded (storeVolRaiseRate d s) := by
  unfold storeVolRaiseRate
  split
  · exact ⟨h.current, h.target, h.factor, hregs.delta_nonneg hd⟩
  · exact h.of_synth rfl

theorem enterRamping_volumeBounded {s : State} (h : VolumeBounded s) : VolumeBounded (enterRamping s) := by
  unfold enterRamping
  split
  · exact ⟨h.current, h.target, legalUnit_fZero, h.ramp⟩
  · exact h

theorem enterResting_volumeBounded {s : State} (h : VolumeBounded s) : VolumeBounded (enterResting s) :=
  ⟨h.current, legalUnit_fZero, legalUnit_fZero, h.ramp⟩

/-- The five operations that write the envelope and period state: a rejection keeps it, and an accepted operand is legal. -/
theorem exec_writesSynth_volumeBounded {s : State} {i : Instr} (hi : writesSynth i = true) (hregs : RegsLegal s)
    (h : VolumeBounded s) : ∃ t, exec i s = .next t ∧ VolumeBounded t := by
  have hreject : ∀ a c, VolumeBounded (hostError true a c s) := fun _ _ => h.of_synth rfl
  match i, hi with
  | .wrVolume d, _ =>
    exact ⟨_, rfl, ifInRange_induct_of_legal (hreject ..) fun hd => (storeVolume_volumeBounded h hd).of_synth rfl⟩
  | .wrFreqRaiseRate d, _ =>
    exact ⟨_, rfl, ifInRange_induct (hreject ..) ((storeFreqRaiseRate_volumeBounded h d).of_synth rfl)⟩
  | .wrVolRaiseRate d, _ =>
    exact ⟨_, rfl, ifInRange_induct_of_legal (hreject ..) fun hd =>
      (storeVolRaiseRate_volumeBounded hregs h hd).of_synth rfl⟩
  | .activate, _ =>
    exact ⟨_, rfl, ifStreaming_induct (fun _ => hreject ..) ((enterRamping_volumeBounded h).of_synth rfl)⟩
  | .deactivate, _ =>
    exact ⟨_, rfl, ifStreaming_induct (fun _ => hreject ..) ((enterResting_volumeBounded h).of_synth rfl)⟩

/-! ### The sample step (46_pipeline.md R232) -/

/-- A period step leaves the smoothed volume and the ramp's delta; the factor is kept or ramped towards 1 (R166 to R168). -/
theorem periodModeStep_volume (s : State) :
    (periodModeStep s).curV = s.synth.curV ∧ (periodModeStep s).vrd = s.synth.vrd ∧
      ((periodModeStep s).vf = s.synth.vf ∨ (periodModeStep s).vf = fmin fOne (fadd s.synth.vf s.synth.vrd)) := by
  unfold periodModeStep
  split
  · exact ⟨rfl, rfl, .inl rfl⟩
  · unfold rampingStep
    dsimp only
    split <;> exact ⟨rfl, rfl, .inr rfl⟩
  · unfold holdingStep
    dsimp only
    split <;> exact ⟨rfl, rfl, .inr rfl⟩

/-- The target of PULSE mode is a product of two values in [0, 1] (R169, R180). -/
theorem periodStep_volumeBounded {s : State} (hregs : RegsLegal s) (h : VolumeBounded s) : VolumeBounded (periodStep s) := by
  obtain ⟨hcurV, hvrd, hvf⟩ := periodModeStep_volume s
  obtain ⟨-, hvolume, -⟩ := hregs.live
  have hfactor : legalUnit (periodModeStep s).vf = true := by
    obtain e | e := hvf <;> rw [e]
    · exact h.factor
    · exact (fmin_fOne_fadd h.factor h.ramp).1
  exact ⟨hcurV ▸ h.current, unit_mul_unit hvolume hfactor, hfactor, hvrd ▸ h.ramp⟩

/-- The scheduler writes none of it (45_scheduler.md R216). -/
theorem schedulerStep_volumeBounded {s : State} (h : VolumeBounded s) : VolumeBounded (schedulerStep s) := by
  have hfetch : VolumeBounded (schedulerFetch s) := by
    obtain ⟨q, rest, -, e⟩ | e | e := schedulerFetch_cases s <;> rw [e]
    · exact ⟨h.current, h.target, h.factor, h.ramp⟩
    · exact ⟨h.current, h.target, h.factor, h.ramp⟩
    · exact h
  unfold schedulerStep schedulerCount
  split
  · exact hfetch
  · exact ⟨hfetch.current, hfetch.target, hfetch.factor, hfetch.ramp⟩

theorem controlStep_volumeBounded {s : State} (hregs : RegsLegal s) (h : VolumeBounded s) :
    VolumeBounded (controlStep s) := by
  unfold controlStep
  split
  · exact ⟨h.current, h.target, h.factor, h.ramp⟩
  · exact periodStep_volumeBounded hregs h
  · exact schedulerStep_volumeBounded h

/-- The filter's next value neither overflows nor turns negative (42_envelope.md R151, R152). -/
theorem envelopeStep_volumeBounded {s : State} (hlive : LegalLive s.live) (h : VolumeBounded s) :
    VolumeBounded (envelopeStep s) := by
  cases hv : s.synth.tgtValid with
  | false => rwa [envelopeStep_idle hv]
  | true =>
    rw [envelopeStep_pending hv]
    exact ⟨envelopeNext_legalNonNeg h hlive, h.target, h.factor, h.ramp⟩

theorem beforeSample_volumeBounded {s : State} (hregs : RegsLegal s) (h : VolumeBounded s) :
    VolumeBounded (beforeSample s) := by
  obtain ⟨hcurrent, htarget, hfactor, hramp⟩ := controlStep_volumeBounded hregs h
  have hlive : LegalLive (phaseDelta (controlStep s)).live := by
    rw [phaseDelta_live, controlStep_live]
    exact hregs.live
  exact envelopeStep_volumeBounded hlive ⟨hcurrent, htarget, hfactor, hramp⟩

theorem producerAct_volumeBounded {s t : State} (hregs : RegsLegal s) (h : VolumeBounded s)
    (ht : producerAct s = .next t) : VolumeBounded t := by
  obtain ⟨-, e⟩ | ⟨-, -, e⟩ | ⟨-, -, -, e⟩ | ⟨-, -, -, e⟩ := producerAct_cases s <;> rw [e] at ht
  · cases ht; exact h
  · obtain ⟨-, rfl⟩ := sampleStep_eq_next.1 ht
    obtain ⟨hcurrent, htarget, hfactor, hramp⟩ := beforeSample_volumeBounded hregs h
    exact ⟨hcurrent, htarget, hfactor, hramp⟩
  · cases ht; exact h.of_synth rfl
  · cases ht; exact h

/-! ### The whole step -/

/-- The reset state is silent. -/
theorem resetCycle_volumeBounded (s : State) : VolumeBounded (resetCycle s) :=
  ⟨legalNonNeg_fZero, legalUnit_fZero, legalUnit_fZero, (legalUnit_iff.1 legalUnit_fZero).2.1⟩

/-- Settles O58: each writer of the envelope and period state keeps the bounds, and nothing else writes that state. -/
theorem volumeKept : Obligations.VolumeKept := fun _ _ hinv hvolume hstep =>
  step_keeps_synthProperty .of_synth exec_start_volumeBounded exec_writesSynth_volumeBounded producerAct_volumeBounded
    resetCycle_volumeBounded hinv.regsLegal hvolume hstep

end Sys2Proof.Machine
end

section
/-! PROOFS. The period state machine (43_period.md): the outcomes of a ramping and of a holding step (R166 to R169), the
ramp's ceiling (R180), and the host operations on the period state (R170, R171, R173, R175). -/

namespace Sys2Proof.Machine

/-! ### The outcomes of a period step (R166 to R169) -/

/-- Strictly above twice the base the ramp ends. -/
theorem rampingStep_ends {base : F64} {y : Synth} (h : flt (fmul fTwo base) (fadd y.curF y.frd) = true) :
    rampingStep base y = { periodAdvance y with curF := base, tic := fZero, pmode := .holding } := if_pos h

theorem rampingStep_continues {base : F64} {y : Synth} (h : ¬ flt (fmul fTwo base) (fadd y.curF y.frd) = true) :
    rampingStep base y = { periodAdvance y with curF := fadd y.curF y.frd } := if_neg h

/-- Strictly above HOLD_DURATION the hold ends. -/
theorem holdingStep_ends {base hold : F64} {y : Synth} (h : flt hold (fadd y.tic y.invFs) = true) :
    holdingStep base hold y = { periodAdvance y with pmode := .ramping, curF := base, tic := fZero } := if_pos h

theorem holdingStep_continues {base hold : F64} {y : Synth} (h : ¬ flt hold (fadd y.tic y.invFs) = true) :
    holdingStep base hold y = periodAdvance y := if_neg h

/-- The volume factor advances whether or not the ramp ends. -/
@[simp] theorem rampingStep_vf (base : F64) (y : Synth) : (rampingStep base y).vf = fmin fOne (fadd y.vf y.vrd) := by
  by_cases h : flt (fmul fTwo base) (fadd y.curF y.frd) = true
  · rw [rampingStep_ends h]; rfl
  · rw [rampingStep_continues h]; rfl

/-- The volume factor advances whether or not the hold ends. -/
@[simp] theorem holdingStep_vf (base hold : F64) (y : Synth) :
    (holdingStep base hold y).vf = fmin fOne (fadd y.vf y.vrd) := by
  by_cases h : flt hold (fadd y.tic y.invFs) = true
  · rw [holdingStep_ends h]; rfl
  · rw [holdingStep_continues h]; rfl

theorem periodModeStep_resting {s : State} (h : s.synth.pmode = .resting) :
    periodModeStep s = restingStep s.live.freq s.synth := by
  simp [periodModeStep, h]

theorem periodModeStep_ramping {s : State} (h : s.synth.pmode = .ramping) :
    periodModeStep s = rampingStep s.live.freq s.synth := by
  simp [periodModeStep, h]

theorem periodModeStep_holding {s : State} (h : s.synth.pmode = .holding) :
    periodModeStep s = holdingStep s.live.freq s.live.holdDuration s.synth := by
  simp [periodModeStep, h]

/-- Outside RESTING the volume factor advances. -/
theorem periodModeStep_vf {s : State} (h : s.synth.pmode ≠ .resting) :
    (periodModeStep s).vf = fmin fOne (fadd s.synth.vf s.synth.vrd) := by
  cases hmode : s.synth.pmode with
  | resting => exact absurd hmode h
  | ramping => rw [periodModeStep_ramping hmode, rampingStep_vf]
  | holding => rw [periodModeStep_holding hmode, holdingStep_vf]

/-! `PulseTarget()` writes the target only. -/

@[simp] theorem pulseTarget_pmode (volume : F64) (y : Synth) : (pulseTarget volume y).pmode = y.pmode := rfl

@[simp] theorem pulseTarget_curF (volume : F64) (y : Synth) : (pulseTarget volume y).curF = y.curF := rfl

@[simp] theorem pulseTarget_tic (volume : F64) (y : Synth) : (pulseTarget volume y).tic = y.tic := rfl

@[simp] theorem pulseTarget_vf (volume : F64) (y : Synth) : (pulseTarget volume y).vf = y.vf := rfl

@[simp] theorem pulseTarget_tgt (volume : F64) (y : Synth) : (pulseTarget volume y).tgt = fmul volume y.vf := rfl

@[simp] theorem pulseTarget_tgtValid (volume : F64) (y : Synth) : (pulseTarget volume y).tgtValid = true := rfl

theorem periodStep_resting {s : State} (h : s.synth.pmode = .resting) : periodStep s = { s with
    synth.curF := s.live.freq, synth.tgt := fmul s.live.volume s.synth.vf, synth.tgtValid := true } := by
  rw [periodStep, periodModeStep_resting h]
  rfl

/-- Settles O45, by the mode at the start of the step and by whether the ramp or the hold ends. -/
theorem periodTransitions : Obligations.PeriodTransitions := by
  refine fun s => ⟨periodStep_resting, fun hmode => ?factor, fun hmode hend => ?rampEnds, fun hmode hend => ?rampGoesOn,
    fun hmode hend => ?holdEnds, fun hmode hend => ?holdGoesOn⟩
  case factor => simp [periodModeStep_vf hmode]
  case rampEnds => simp [periodModeStep_ramping hmode, rampingStep_ends hend, fZero]
  case rampGoesOn => simp [periodModeStep_ramping hmode, rampingStep_continues hend, periodAdvance, hmode]
  case holdEnds => simp [periodModeStep_holding hmode, holdingStep_ends hend, fZero]
  case holdGoesOn => simp [periodModeStep_holding hmode, holdingStep_continues hend, periodAdvance, hmode]

/-! ### The ramp's ceiling (R180) -/

theorem fle_of_not_flt {a b : F64} (ha : isNaN a = false) (hb : isNaN b = false) (h : ¬ flt b a = true) :
    fle a b = true :=
  fle_iff.2 ⟨ha, hb, not_lt.1 fun hlt => h (flt_iff.2 ⟨hb, ha, hlt⟩)⟩

/-- Doubling a legal value does not lower it, even where the product overflows. -/
theorem fle_double {x : F64} (h : legalNonNeg x = true) : fle x (fmul fTwo x) = true := by
  obtain ⟨hfin, h0⟩ := legalNonNeg_iff.1 h
  refine le_fmul isFinite_fTwo hfin (by decide +kernel) (nonneg_iff.1 h0).2 h0 ?_
  rw [magnitude_fTwo, Nat.mul_comm (magnitude x)]
  exact Nat.mul_le_mul_right _ (Nat.le_mul_of_pos_left _ two_pos)

/-- A ramp that ends falls back to the base, and one that does not is still below the ceiling. -/
theorem rampingStep_curF_le_double {base : F64} {y : Synth} (hbase : legalNonNeg base = true)
    (hcurF : fle fZero y.curF = true) (hfrd : fle fZero y.frd = true) :
    fle (rampingStep base y).curF (fmul fTwo base) = true := by
  have hdouble := fle_double hbase
  rw [rampingStep_curF]
  split
  · exact hdouble
  · next hbelow =>
    exact fle_of_not_flt (nonneg_iff.1 (fadd_nonneg hcurF hfrd)).1 (fle_iff.1 hdouble).2.1 hbelow

/-- Settles O44: the ceiling is the ramp's end test, and the factor's step is a minimum with 1. -/
theorem rampCeiling : Obligations.RampCeiling := by
  intro base y hbase hcurF hfrd hvf hvrd
  obtain ⟨-, hcurF0⟩ := legalNonNeg_iff.1 hcurF
  obtain ⟨hunit, hrises⟩ := fmin_fOne_fadd hvf hvrd
  obtain ⟨-, -, hone⟩ := legalUnit_iff.1 hunit
  rw [rampingStep_vf]
  exact ⟨rampingStep_curF_le_double hbase hcurF0 hfrd, hrises, hone⟩

/-! ### The raise rates (R173, R175) -/

theorem storeFreqRaiseRate_running_eq {d : F64} {s : State} (h : s.running = true) :
    storeFreqRaiseRate d s = { s with live.freqRaiseRate := d, synth.frd := fdiv d s.cfg.sampleRate } := if_pos h

theorem storeFreqRaiseRate_stopped_eq {d : F64} {s : State} (h : s.running = false) :
    storeFreqRaiseRate d s = { s with live.freqRaiseRate := d } := if_neg (ne_true_of_eq_false h)

theorem storeVolRaiseRate_running_eq {d : F64} {s : State} (h : s.running = true) :
    storeVolRaiseRate d s = { s with live.volRaiseRate := d, synth.vrd := fdiv d s.cfg.sampleRate } := if_pos h

theorem storeVolRaiseRate_stopped_eq {d : F64} {s : State} (h : s.running = false) :
    storeVolRaiseRate d s = { s with live.volRaiseRate := d } := if_neg (ne_true_of_eq_false h)

/-- Settles O28: a legal rate passes the range check, and the stored rate sets its delta only while running. -/
theorem raiseRateWrites : Obligations.RaiseRateWrites := by
  intro s d hfin h0
  have hlegal : legalNonNeg d = true := legalNonNeg_iff.2 ⟨hfin, h0⟩
  have hfreq : exec (.wrFreqRaiseRate d) s = .next (accept (storeFreqRaiseRate d s)) := exec_legal rfl hlegal
  have hvol : exec (.wrVolRaiseRate d) s = .next (accept (storeVolRaiseRate d s)) := exec_legal rfl hlegal
  refine ⟨fun hrun => ?running, fun hrun => ?stopped⟩
  case running =>
    rw [hfreq, hvol, storeFreqRaiseRate_running_eq hrun, storeVolRaiseRate_running_eq hrun]
    exact ⟨rfl, rfl⟩
  case stopped =>
    rw [hfreq, hvol, storeFreqRaiseRate_stopped_eq hrun, storeVolRaiseRate_stopped_eq hrun]
    exact ⟨rfl, rfl⟩

/-! ### ACTIVATE and DEACTIVATE (R170, R171) -/

theorem enterRamping_resting {s : State} (h : s.synth.pmode = .resting) : enterRamping s =
    { s with synth.pmode := .ramping, synth.curF := s.live.freq, synth.vf := fZero, synth.tic := fZero } := if_pos h

theorem enterRamping_active {s : State} (h : s.synth.pmode ≠ .resting) : enterRamping s = s := if_neg h

/-- In its own mode and while running, a stream operation passes the shared check. -/
theorem exec_streaming {i : Instr} {m : OpMode} {a : RegAddr} {s t : State}
    (hexec : exec i s = .next (ifStreaming m a s t)) (hm : s.cfg.mode = m) (hrun : s.running = true) :
    exec i s = .next t := by
  rw [hexec, ifStreaming_run hm hrun]

/-- Settles O33: the shared check passes, and ACTIVATE acts by the period mode it finds. -/
theorem activateAndDeactivate : Obligations.ActivateAndDeactivate := by
  intro s hm hrun
  have hactivate : exec .activate s = .next (accept (enterRamping s)) := exec_streaming rfl hm hrun
  have hdeactivate : exec .deactivate s = .next (accept (enterResting s)) := exec_streaming rfl hm hrun
  refine ⟨fun hresting => ?leaves, fun hactive => ?stays, hdeactivate⟩
  case leaves =>
    rw [hactivate, enterRamping_resting hresting]
    rfl
  case stays =>
    rw [hactivate, enterRamping_active hactive]
    rfl

end Sys2Proof.Machine
end

section
/-! PROOFS. The serial framing (44_framing.md): the layout, the length and the parity of a frame (R192 to R194), its staging and
the two operations on the staged symbols (R195 to R197), and the writes of the frame parameters (R200, R202, R204). -/

namespace Sys2Proof.Machine

/-! ### The bits of a frame between the start and the stop symbol (R192, R193) -/

/-- The parity bit, if parity is enabled, from the running parity `r` of the data bits. -/
def parityBits (l : LiveRegs) (r : Bool) : List Bool :=
  if l.parity = .none then [] else [r ^^ decide (l.parity = .odd)]

/-- The data bits and the parity bit of a frame, in the order they are sent. -/
def lineBits (l : LiveRegs) (b : BitVec 8) : List Bool := dataBitsOf l b ++ parityBits l (xorAll (dataBitsOf l b))

theorem paritySymbols_eq_map (l : LiveRegs) (r : Bool) : paritySymbols l r = (parityBits l r).map (bitSymbol l) := by
  unfold paritySymbols parityBits
  cases l.parity <;> simp

/-- A frame sends its line bits between the start symbol and the stop symbol. -/
theorem frame_eq_lineBits (l : LiveRegs) (b : BitVec 8) :
    frame l b = bitSymbol l false :: ((lineBits l b).map (bitSymbol l) ++ [⟨l.markFreq, l.stopBits⟩]) := by
  rw [frame, paritySymbols_eq_map, ← List.map_append, lineBits]

@[simp] theorem length_dataBitsOf (l : LiveRegs) (b : BitVec 8) : (dataBitsOf l b).length = l.dataBits.count := by
  simp [dataBitsOf]

@[simp] theorem length_parityBits (l : LiveRegs) (r : Bool) :
    (parityBits l r).length = if l.parity = .none then 0 else 1 := by
  unfold parityBits
  split <;> rfl

@[simp] theorem length_lineBits (l : LiveRegs) (b : BitVec 8) :
    (lineBits l b).length = l.dataBits.count + if l.parity = .none then 0 else 1 := by
  simp [lineBits]

/-! ### Length and duration (R194) -/

theorem length_frame (l : LiveRegs) (b : BitVec 8) : (frame l b).length = (lineBits l b).length + 2 := by
  simp [frame_eq_lineBits]

/-- A symbol of one bit lasts two half-bits (R190). -/
@[simp] theorem bitSymbol_dur (l : LiveRegs) (x : Bool) : (bitSymbol l x).dur = .two := rfl

theorem sum_dur_frame (l : LiveRegs) (b : BitVec 8) :
    ((frame l b).map (fun q => q.dur.count)).sum = 2 * (1 + (lineBits l b).length) + l.stopBits.count := by
  simp only [frame_eq_lineBits, List.map_cons, List.map_append, List.map_map, Function.comp_def, bitSymbol_dur,
    List.map_const', List.map_nil, List.sum_cons, List.sum_append, List.sum_replicate, List.sum_nil, HalfBits.count,
    smul_eq_mul]
  omega

theorem DataBits.count_eq_or (n : DataBits) : n.count = 7 ∨ n.count = 8 := by
  cases n
  · exact .inl rfl
  · exact .inr rfl

/-- Settles O38: start and stop symbol are one each, and every symbol but the last is a bit of two half-bits. -/
theorem frameLength : Obligations.FrameLength := by
  intro l b
  rw [length_frame, sum_dur_frame, length_lineBits]
  have hcount := l.dataBits.count_eq_or
  split <;> omega

/-! ### The place of each bit (R192) -/

theorem frame_getElem?_of_lineBits {l : LiveRegs} {b : BitVec 8} {i : Nat} {x : Bool}
    (h : (lineBits l b)[i]? = some x) : (frame l b)[1 + i]? = some (bitSymbol l x) := by
  obtain ⟨hi, -⟩ := List.getElem?_eq_some_iff.1 h
  rw [frame_eq_lineBits, Nat.add_comm, List.getElem?_cons_succ, List.getElem?_append_left (by rwa [List.length_map]),
    List.getElem?_map, h, Option.map_some]

theorem lineBits_getElem?_data (l : LiveRegs) (b : BitVec 8) {i : Nat} (h : i < l.dataBits.count) :
    (lineBits l b)[i]? = some (b.getLsbD i) := by
  rw [lineBits, List.getElem?_append_left (by simpa using h)]
  simp [dataBitsOf, h]

theorem lineBits_getElem?_parity {l : LiveRegs} (b : BitVec 8) (h : l.parity ≠ .none) :
    (lineBits l b)[l.dataBits.count]? = some (xorAll (dataBitsOf l b) ^^ decide (l.parity = .odd)) := by
  rw [lineBits, List.getElem?_append_right (length_dataBitsOf l b).le, length_dataBitsOf, Nat.sub_self, parityBits, if_neg h]
  rfl

/-- Settles O39: the ends of the frame by its form, and the data bits as the first line bits. -/
theorem frameLayout : Obligations.FrameLayout := by
  refine fun l b => ⟨rfl, fun i hi => frame_getElem?_of_lineBits (lineBits_getElem?_data l b hi), ?_⟩
  rw [frame_eq_lineBits, ← List.cons_append, List.getLast?_concat]

/-! ### Parity (R193) -/

/-- XOR adds two bits modulo 2. -/
theorem toNat_xor (x y : Bool) : (x ^^ y).toNat = (x.toNat + y.toNat) % 2 := by
  cases x <;> cases y <;> rfl

theorem count_true_cons (x : Bool) (bits : List Bool) : (x :: bits).count true = x.toNat + bits.count true := by
  cases x
  · simp
  · simp [Nat.add_comm]

/-- The running parity counts the ones modulo 2, from any start value. -/
theorem toNat_foldl_xor (bits : List Bool) (r : Bool) :
    (bits.foldl xor r).toNat = (bits.count true + r.toNat) % 2 := by
  induction bits generalizing r with
  | nil => cases r <;> rfl
  | cons x bits ih =>
    rw [List.foldl_cons, ih, toNat_xor, count_true_cons]
    omega

theorem toNat_xorAll (bits : List Bool) : (xorAll bits).toNat = bits.count true % 2 := toNat_foldl_xor bits false

/-- The ones among the data bits, counted by their places in the byte. -/
theorem count_dataBitsOf (l : LiveRegs) (b : BitVec 8) :
    (dataBitsOf l b).count true = ((List.range l.dataBits.count).filter (fun i => b.getLsbD i)).length := by
  rw [dataBitsOf, List.count, List.countP_map, List.countP_eq_length_filter]
  simp [Function.comp_def]

/-- Sending the parity of `n` makes the count of ones even, and sending its complement makes it odd. -/
theorem add_parityBit_mod_two {n : Nat} {r : Bool} (h : r.toNat = n % 2) (odd : Bool) :
    (n + (r ^^ odd).toNat) % 2 = odd.toNat := by
  have hodd := odd.toNat_le
  rw [toNat_xor]
  omega

/-- Settles O40: the line bit behind the data bits is their parity, or with ODD its complement. -/
theorem frameParity : Obligations.FrameParity := by
  intro l b hparity
  refine ⟨_, frame_getElem?_of_lineBits (lineBits_getElem?_parity b hparity), ?_⟩
  rw [← count_dataBitsOf, add_parityBit_mod_two (toNat_xorAll _)]
  exact Bool.cond_decide _ _ _

/-! ### Staging a frame (R195) -/

@[simp] theorem byteOf_setWidth (b : BitVec 8) : byteOf (b.setWidth 64) = b := by
  simp only [byteOf, BitVec.extractLsb'_setWidth_of_le, Nat.reduceLeDiff, BitVec.extractLsb'_eq_self]

theorem legalByte_setWidth (b : BitVec 8) : legalByte (b.setWidth 64) = true := by
  have hlt := b.isLt
  exact decide_eq_true (by simp; omega)

theorem stageFrame_of_fits {b : BitVec 8} {s : State}
    (h : s.symq.committed.length + s.symq.staged.length + (frame s.live b).length ≤ s.params.symqDepth) :
    stageFrame b s = accept { s with symq.staged := s.symq.staged ++ frame s.live b } :=
  if_pos (decide_eq_true h)

theorem stageFrame_of_full {b : BitVec 8} {s : State}
    (h : s.params.symqDepth < s.symq.committed.length + s.symq.staged.length + (frame s.live b).length) :
    stageFrame b s = hostError true 0x27#8 .symqFull s :=
  if_neg fun hfits => absurd (of_decide_eq_true hfits) (Nat.not_le.2 h)

/-- In a running MODEM stream an operand of one byte passes the checks, up to the room for its frame. -/
theorem exec_txByte_byte {s : State} (hm : s.cfg.mode = .modem) (hrun : s.running = true) (b : BitVec 8) :
    exec (.txByte (b.setWidth 64)) s = .next (stageFrame b s) := by
  rw [exec_streaming (i := .txByte (b.setWidth 64)) rfl hm hrun, if_pos (legalByte_setWidth b), byteOf_setWidth]

theorem legalByte_wide {d : Word64} (h : 256 ≤ d.toNat) : ¬ legalByte d = true := fun hlegal =>
  absurd (of_decide_eq_true hlegal) (Nat.not_lt.2 h)

theorem exec_txByte_wide {s : State} (hm : s.cfg.mode = .modem) (hrun : s.running = true) {d : Word64}
    (h : 256 ≤ d.toNat) : exec (.txByte d) s = .next (hostError true 0x27#8 .reservedValue s) := by
  rw [exec_streaming (i := .txByte d) rfl hm hrun, if_neg (legalByte_wide h)]

/-- Settles O35: the operand is a byte, and its frame fits. -/
theorem txByteStages : Obligations.TxByteStages := by
  intro s b hm hrun hfits
  rw [exec_txByte_byte hm hrun, stageFrame_of_fits hfits]
  rfl

/-- Settles O36: the operand is no byte, or its frame does not fit. -/
theorem txByteRefused : Obligations.TxByteRefused := by
  refine fun s hm hrun => ⟨fun d hwide => exec_txByte_wide hm hrun hwide, fun b hfull => ?_⟩
  rw [exec_txByte_byte hm hrun, stageFrame_of_full hfull]
  rfl

/-- Settles O37: neither operation has a check behind the shared one. -/
theorem txCommitAndAbort : Obligations.TxCommitAndAbort := fun _ hm hrun =>
  ⟨exec_streaming (i := .txCommit) rfl hm hrun, exec_streaming (i := .txAbort) rfl hm hrun⟩

/-! ### The frame parameters (R200, R202, R204) -/

theorem exec_wrDataBits_listed {d : Word64} {x : DataBits} (h : DataBits.ofCode? d = some x) (s : State) :
    exec (.wrDataBits d) s = .next (accept { s with live.dataBits := x }) :=
  congrArg Host.Outcome.next (ifListed_some h)

theorem exec_wrParity_listed {d : Word64} {x : Parity} (h : Parity.ofCode? d = some x) (s : State) :
    exec (.wrParity d) s = .next (accept { s with live.parity := x }) :=
  congrArg Host.Outcome.next (ifListed_some h)

theorem exec_wrStopBits_listed {d : Word64} {x : HalfBits} (h : HalfBits.ofCode? d = some x) (s : State) :
    exec (.wrStopBits d) s = .next (accept { s with live.stopBits := x }) :=
  congrArg Host.Outcome.next (ifListed_some h)

theorem DataBits.code_of_ofCode? {d : Word64} {x : DataBits} (h : DataBits.ofCode? d = some x) : x.code = d := by
  unfold DataBits.ofCode? at h
  split at h <;> cases h <;> exact BitVec.eq_of_toNat_eq (Eq.symm ‹_›)

theorem Parity.code_of_ofCode? {d : Word64} {x : Parity} (h : Parity.ofCode? d = some x) : x.code = d := by
  unfold Parity.ofCode? at h
  split at h <;> cases h <;> exact BitVec.eq_of_toNat_eq (Eq.symm ‹_›)

theorem HalfBits.code_of_ofCode? {d : Word64} {x : HalfBits} (h : HalfBits.ofCode? d = some x) : x.code = d := by
  unfold HalfBits.ofCode? at h
  split at h <;> cases h <;> exact BitVec.eq_of_toNat_eq (Eq.symm ‹_›)

/-- An operand outside the codes names no value, where every named value has its code among them. -/
theorem eq_none_of_not_mem_codes {α : Type} {c : Option α} {code : α → Word64} {d : Word64} {codes : List Word64}
    (hcode : ∀ {x}, c = some x → code x = d) (hcodes : ∀ x, code x ∈ codes) (hd : d ∉ codes) : c = none :=
  Option.eq_none_iff_forall_ne_some.2 fun x hx => hd (hcode hx ▸ hcodes x)

theorem DataBits.code_mem (x : DataBits) : x.code ∈ [7#64, 8#64] := by
  cases x <;> decide

theorem Parity.code_mem (x : Parity) : x.code ∈ [0#64, 1#64, 2#64] := by
  cases x <;> decide

theorem HalfBits.code_mem (x : HalfBits) : x.code ∈ [2#64, 3#64, 4#64] := by
  cases x <;> decide

/-- Settles O29: the listed codes by the tables, and any other value is no value's code. -/
theorem frameParameterWrites : Obligations.FrameParameterWrites := by
  have hdata : ∀ x ∈ [(7#64, DataBits.seven), (8#64, .eight)], DataBits.ofCode? x.1 = some x.2 := by decide
  have hparity : ∀ x ∈ [(0#64, Parity.none), (1#64, .even), (2#64, .odd)], Parity.ofCode? x.1 = some x.2 := by decide
  have hstop : ∀ x ∈ [(2#64, HalfBits.two), (3#64, .three), (4#64, .four)], HalfBits.ofCode? x.1 = some x.2 := by decide
  exact fun s => ⟨fun x hx => exec_wrDataBits_listed (hdata x hx) s,
    fun x hx => exec_wrParity_listed (hparity x hx) s,
    fun x hx => exec_wrStopBits_listed (hstop x hx) s,
    fun d => ⟨
      fun hd => exec_unlisted rfl (eq_none_of_not_mem_codes DataBits.code_of_ofCode? DataBits.code_mem hd),
      fun hd => exec_unlisted rfl (eq_none_of_not_mem_codes Parity.code_of_ofCode? Parity.code_mem hd),
      fun hd => exec_unlisted rfl (eq_none_of_not_mem_codes HalfBits.code_of_ofCode? HalfBits.code_mem hd)⟩⟩

end Sys2Proof.Machine
end

section
/-! PROOFS. The length of a popped symbol and the error it carries (45_scheduler.md R216, R218): a legal rate and baud give an
ideal count from 2 to 2^32 - 2 samples, and rounding the compensated count leaves at most half a sample. -/

namespace Sys2Proof.Machine

/-! ### Constants -/

/-- The largest carried error, half a sample (R218). -/
def fHalf : F64 := 0x3FE0000000000000#64

/-- The least carried error (R218). -/
def fMinusHalf : F64 := 0xBFE0000000000000#64

/-- The least compensated count, 2 - 0.5 (R216). -/
def fOneAndHalf : F64 := 0x3FF8000000000000#64

/-- The largest ideal count, 2^32 - 2: two bits at one baud and the largest rate, 2^31 - 1 (R218). -/
def fMaxIdeal : F64 := 0x41EFFFFFFFC00000#64

/-- The largest value of the 32-bit counter, 2^32 - 1. -/
def fMaxCount : F64 := 0x41EFFFFFFFE00000#64

theorem isFinite_fHalf : isFinite fHalf = true := by decide
theorem isFinite_fMinusHalf : isFinite fMinusHalf = true := by decide
theorem isFinite_fOneAndHalf : isFinite fOneAndHalf = true := by decide
theorem isFinite_fMaxIdeal : isFinite fMaxIdeal = true := by decide
theorem isFinite_fMaxCount : isFinite fMaxCount = true := by decide
theorem scaled_fHalf : 2 * scaled fHalf = unitsPerOne := by decide +kernel
theorem scaled_fMinusHalf : 2 * scaled fMinusHalf = -(unitsPerOne : Int) := by decide +kernel
theorem scaled_fOneAndHalf : 2 * scaled fOneAndHalf = 3 * (unitsPerOne : Int) := by decide +kernel
theorem scaled_fMaxIdeal : scaled fMaxIdeal = (2 ^ 32 - 2) * (unitsPerOne : Int) := by decide +kernel
theorem scaled_fMaxCount : scaled fMaxCount = (2 ^ 32 - 1) * (unitsPerOne : Int) := by decide +kernel
theorem magnitude_fMaxIdeal : magnitude fMaxIdeal = 2 * magnitude fsMaxMax := by decide +kernel

/-! ### Values in a range, by value -/

/-- A value between the finite ends of a range is finite, as `inRange` asks. -/
theorem inRange_of_between {lo hi x : F64} (hlo : isFinite lo = true) (hhi : isFinite hi = true)
    (h1 : fle lo x = true) (h2 : fle x hi = true) : inRange lo hi x = true :=
  inRange_iff.2 ⟨isFinite_of_between h1 h2 hlo hhi, h1, h2⟩

theorem scaled_bounds_of_inRange {lo hi x : F64} (h : inRange lo hi x = true) :
    scaled lo ≤ scaled x ∧ scaled x ≤ scaled hi := by
  obtain ⟨-, h1, h2⟩ := inRange_iff.1 h
  exact ⟨(fle_iff.1 h1).2.2, (fle_iff.1 h2).2.2⟩

/-- The bounds of a value in a range of positive values, by magnitude. -/
theorem magnitude_bounds_of_inRange {lo hi x : F64} (hlo : 0 < scaled lo) (h : inRange lo hi x = true) :
    0 < scaled x ∧ magnitude lo ≤ magnitude x ∧ magnitude x ≤ magnitude hi := by
  obtain ⟨h1, h2⟩ := scaled_bounds_of_inRange h
  have hmagLo := scaled_eq_magnitude hlo.le
  have hmagX := scaled_eq_magnitude (x := x) (by omega)
  have hmagHi := scaled_eq_magnitude (x := hi) (by omega)
  omega

/-! ### The ideal count (R216) -/

/-- A symbol lasts one, one and a half or two bits. -/
theorem symbolBits_inRange (h : HalfBits) : inRange fOne fTwo (fdiv (fofInt h.count) fTwo) = true := by
  cases h <;> decide +kernel

theorem scaled_fOne_pos : 0 < scaled fOne := by decide +kernel

/-- One to two bits of a rate: from the rate to the double of the largest rate. -/
theorem bitsTimesRate_inRange {bits rate : F64} (hbits : inRange fOne fTwo bits = true) (hrate : ValidRate rate) :
    inRange rate fMaxIdeal (fmul bits rate) = true := by
  obtain ⟨hbitsPos, hbitsLo, hbitsHi⟩ := magnitude_bounds_of_inRange scaled_fOne_pos hbits
  obtain ⟨-, -, hrateHi⟩ := magnitude_bounds_of_inRange scaled_fOne_pos hrate
  obtain ⟨hbitsFin, -⟩ := inRange_iff.1 hbits
  have hrate0 : fle fZero rate = true := nonneg_iff.2 ⟨isNaN_of_finite hrate.finite, hrate.pos.le⟩
  refine inRange_of_between hrate.finite isFinite_fMaxIdeal
    (le_fmul hbitsFin hrate.finite hbitsPos.le hrate.pos.le hrate0 ?_)
    (fmul_le hbitsFin hrate.finite hbitsPos.le hrate.pos.le (by decide +kernel) ?_)
  · rw [Nat.mul_comm, ← magnitude_fOne]
    exact Nat.mul_le_mul_right _ hbitsLo
  · calc magnitude bits * magnitude rate
        ≤ magnitude fTwo * magnitude fsMaxMax := Nat.mul_le_mul hbitsHi hrateHi
      _ = magnitude fMaxIdeal * unitsPerOne := by rw [magnitude_fTwo, magnitude_fMaxIdeal, Nat.mul_right_comm]

/-- BAUD is at most half the rate, so a symbol lasts two samples or more; it is at least 1, so the count keeps the product's
bound. -/
theorem idealCount_inRange (h : HalfBits) {rate baud : F64} (hrate : ValidRate rate)
    (hbaud : inRange fOne (fdiv rate fTwo) baud = true) : inRange fTwo fMaxIdeal (idealCount h rate baud) = true := by
  have hprod := bitsTimesRate_inRange (symbolBits_inRange h) hrate
  obtain ⟨hprodPos, hprodLo, hprodHi⟩ := magnitude_bounds_of_inRange hrate.pos hprod
  obtain ⟨hprodFin, -⟩ := inRange_iff.1 hprod
  obtain ⟨hbaudPos, hbaudLo, hbaudHi⟩ := magnitude_bounds_of_inRange scaled_fOne_pos hbaud
  obtain ⟨hbaudFin, -⟩ := inRange_iff.1 hbaud
  obtain ⟨-, hhalf, -⟩ := hrate.half
  have hhalfMag : magnitude (fdiv rate fTwo) * 2 = magnitude rate := by
    rw [← scaled_natAbs, ← scaled_natAbs]
    omega
  refine inRange_of_between isFinite_fTwo isFinite_fMaxIdeal
    (le_fdiv hprodFin hbaudFin hprodPos.le hbaudPos (by decide +kernel) ?_)
    (fdiv_le hprodFin hbaudFin hprodPos.le hbaudPos (by decide +kernel) ?_)
  · rw [magnitude_fTwo, Nat.mul_right_comm]
    exact Nat.mul_le_mul_right _ (by omega)
  · exact Nat.mul_le_mul hprodHi (magnitude_fOne ▸ hbaudLo)

/-! ### The compensated count and its rounding (R216, R217) -/

/-- Taking off an error of at most half a sample leaves one and a half samples or more. -/
theorem fsub_err_inRange {ideal cerr : F64} (hideal : inRange fTwo fMaxIdeal ideal = true)
    (hcerr : inRange fMinusHalf fHalf cerr = true) : inRange fOneAndHalf fMaxCount (fsub ideal cerr) = true := by
  obtain ⟨hidealLo, hidealHi⟩ := scaled_bounds_of_inRange hideal
  obtain ⟨hcerrLo, hcerrHi⟩ := scaled_bounds_of_inRange hcerr
  obtain ⟨hidealFin, -⟩ := inRange_iff.1 hideal
  obtain ⟨hcerrFin, -⟩ := inRange_iff.1 hcerr
  have hhalf := scaled_fHalf
  have hminusHalf := scaled_fMinusHalf
  have honeAndHalf := scaled_fOneAndHalf
  rw [scaled_fTwo] at hidealLo
  rw [scaled_fMaxIdeal] at hidealHi
  refine inRange_of_between isFinite_fOneAndHalf isFinite_fMaxCount
    (le_fsub hidealFin hcerrFin (isNaN_of_finite isFinite_fOneAndHalf) (by omega))
    (fsub_le hidealFin hcerrFin (isNaN_of_finite isFinite_fMaxCount) ?_)
  rw [scaled_fMaxCount]
  omega

/-- From one and a half on, the nearest integer is 2 or more: the tie at one and a half goes to the even 2. -/
theorem two_le_rneDiv {n d : Nat} (hd : 0 < d) (h : 3 * d ≤ 2 * n) : 2 ≤ rneDiv n d := by
  have hq : 1 ≤ n / d := (Nat.le_div_iff_mul_le hd).2 (by omega)
  have hdiv := Nat.div_add_mod n d
  unfold rneDiv
  dsimp only
  rcases Nat.eq_or_lt_of_le hq with hone | hmore
  · rw [← hone] at hdiv ⊢
    split
    · omega
    · split <;> omega
  · split
    · exact hmore
    · split <;> omega

/-- Rounding a compensated count: a whole number of at least 2 samples that fits 32 bits and is within half a sample. -/
theorem roundHalfEven_count {t : F64} (ht : inRange fOneAndHalf fMaxCount t = true) :
    ∃ k : Nat, roundHalfEven t = k ∧ 2 ≤ k ∧ k ≤ 2 ^ 32 - 1 ∧
      2 * scaled t ≤ 2 * (k * (unitsPerOne : Int)) + unitsPerOne ∧
      2 * (k * (unitsPerOne : Int)) ≤ 2 * scaled t + unitsPerOne := by
  obtain ⟨hfin, -⟩ := inRange_iff.1 ht
  obtain ⟨hlo, hhi⟩ := scaled_bounds_of_inRange ht
  have honeAndHalf := scaled_fOneAndHalf
  have hunit := unitsPerOne_pos
  have hpos : 0 < scaled t := by omega
  have hmag := scaled_eq_magnitude hpos.le
  rw [scaled_fMaxCount] at hhi
  obtain ⟨herrLo, herrHi⟩ := rneDiv_error (n := magnitude t) hunit
  refine ⟨_, roundHalfEven_nonneg hfin hpos, two_le_rneDiv hunit (by omega), rneDiv_le hunit ?_, ?_, ?_⟩
  · omega
  · rw [hmag]
    exact_mod_cast herrLo
  · rw [hmag]
    exact_mod_cast herrHi

/-- The difference to a whole number within half a sample is at most half a sample, because rounding does not pass one half. -/
theorem fsub_count_inRange {t : F64} {k : Nat} (ht : isFinite t = true) (h0 : 0 < k) (hk : k < 2 ^ 53)
    (hlo : 2 * scaled t ≤ 2 * (k * (unitsPerOne : Int)) + unitsPerOne)
    (hhi : 2 * (k * (unitsPerOne : Int)) ≤ 2 * scaled t + unitsPerOne) :
    inRange fMinusHalf fHalf (fsub (fofInt k) t) = true := by
  obtain ⟨hfin, hval⟩ := fofInt_exact h0 hk
  have hhalf := scaled_fHalf
  have hminusHalf := scaled_fMinusHalf
  rw [← hval] at hlo hhi
  exact inRange_of_between isFinite_fMinusHalf isFinite_fHalf
    (le_fsub hfin ht (isNaN_of_finite isFinite_fMinusHalf) (by omega))
    (fsub_le hfin ht (isNaN_of_finite isFinite_fHalf) (by omega))

/-- Settles O47: the ideal count is at least 2, compensation takes off at most one half, and rounding leaves at most one
half. -/
theorem symbolBounds : Obligations.SymbolBounds := by
  intro h rate baud cerr hrate hfin hlo hhi hcerr
  have htime := fsub_err_inRange (idealCount_inRange h hrate (inRange_iff.2 ⟨hfin, hlo, hhi⟩)) hcerr
  obtain ⟨htimeFin, -⟩ := inRange_iff.1 htime
  obtain ⟨k, hround, htwo, hmax, herrLo, herrHi⟩ := roundHalfEven_count htime
  rw [hround]
  exact ⟨by omega, by omega, fsub_count_inRange htimeFin (by omega) (by omega) herrLo herrHi⟩

end Sys2Proof.Machine
end

section
/-! PROOFS. The scheduler step (45_scheduler.md R216, R219), and the carried error over a whole cycle (R218, R225). -/

namespace Sys2Proof.Machine

/-! ### The halves of a scheduler step (R216) -/

theorem schedulerFetch_pop {s : State} {q : SymbolT} {rest : List SymbolT} (hws : s.synth.ws = 0#32)
    (hq : s.symq.committed = q :: rest) :
    schedulerFetch s = { s with synth := popSymbol q s, symq.committed := rest } := by
  simp [schedulerFetch, hws, hq]

theorem schedulerFetch_idle {s : State} (hws : s.synth.ws = 0#32) (hq : s.symq.committed = []) :
    schedulerFetch s = { s with synth.curF := s.live.idleFreq } := by
  simp [schedulerFetch, hws, hq]

theorem schedulerFetch_sounding {s : State} (hws : s.synth.ws ≠ 0#32) : schedulerFetch s = s := if_neg hws

theorem schedulerCount_silent {s : State} (hws : s.synth.ws = 0#32) : schedulerCount s = s := if_pos hws

theorem schedulerCount_sounding {s : State} (hws : s.synth.ws ≠ 0#32) :
    schedulerCount s = { s with synth.ws := s.synth.ws - 1#32 } := if_neg hws

/-- A counter that is not 0 counts down without a wrap. -/
theorem toNat_sub_one_add_one {n : BitVec 32} (h : n ≠ 0#32) : (n - 1#32).toNat + 1 = n.toNat := by
  bv_omega

/-- A positive count below 2^32 is stored exactly. -/
theorem toNat_ofInt_count {w : Int} (h1 : 1 ≤ w) (h : w < 2 ^ 32) : ((BitVec.ofInt 32 w).toNat : Int) = w := by
  rw [BitVec.toNat_ofInt]
  omega

/-- The count of a popped symbol, before and after its pop sample is counted (90_conflicts.md C7). -/
theorem popSymbol_ws {q : SymbolT} {s : State} {w : Int}
    (hw : w = roundHalfEven (fsub (idealCount q.dur s.cfg.sampleRate s.live.baud) s.synth.cerr)) (h1 : 1 ≤ w)
    (h : w < 2 ^ 32) : (popSymbol q s).ws ≠ 0#32 ∧ (((popSymbol q s).ws - 1#32).toNat : Int) = w - 1 := by
  have hstored : ((popSymbol q s).ws.toNat : Int) = w := by
    subst hw
    exact toNat_ofInt_count h1 h
  have hcount : (popSymbol q s).ws ≠ 0#32 := fun h0 => by
    rw [h0, BitVec.toNat_ofNat] at hstored
    omega
  have hdown := toNat_sub_one_add_one hcount
  exact ⟨hcount, by omega⟩

theorem schedulerStep_pop {s : State} {q : SymbolT} {rest : List SymbolT} (hws : s.synth.ws = 0#32)
    (hq : s.symq.committed = q :: rest) (hcount : (popSymbol q s).ws ≠ 0#32) :
    schedulerStep s =
      { s with synth := { popSymbol q s with ws := (popSymbol q s).ws - 1#32 }, symq.committed := rest } := by
  rw [schedulerStep, schedulerFetch_pop hws hq, schedulerCount_sounding hcount]

theorem schedulerStep_idle {s : State} (hws : s.synth.ws = 0#32) (hq : s.symq.committed = []) :
    schedulerStep s = { s with synth.curF := s.live.idleFreq } := by
  rw [schedulerStep, schedulerFetch_idle hws hq]
  exact schedulerCount_silent hws

theorem schedulerStep_sounding {s : State} (hws : s.synth.ws ≠ 0#32) :
    schedulerStep s = { s with synth.ws := s.synth.ws - 1#32 } := by
  rw [schedulerStep, schedulerFetch_sounding hws, schedulerCount_sounding hws]

/-- Settles O46, by whether a symbol sounds and, if none does, whether one is committed. -/
theorem schedulerStep_spec : Obligations.SchedulerStep := by
  refine fun s => ⟨?pops, schedulerStep_idle, fun hws => ⟨_, schedulerStep_sounding hws, toNat_sub_one_add_one hws⟩⟩
  case pops =>
    rintro q rest _ w hws hq rfl hw hlo hhi
    obtain ⟨hcount, hdown⟩ := popSymbol_ws hw hlo hhi
    subst hw
    exact ⟨_, schedulerStep_pop hws hq hcount, hdown, rfl⟩

/-! ### The carried error: what keeps it -/

theorem CarriedErrBounded.of_cerr {s t : State} (h : CarriedErrBounded s) (hcerr : t.synth.cerr = s.synth.cerr) :
    CarriedErrBounded t := by
  unfold CarriedErrBounded
  rwa [hcerr]

theorem CarriedErrBounded.of_synth {s t : State} (h : CarriedErrBounded s) (hsynth : t.synth = s.synth) :
    CarriedErrBounded t := h.of_cerr (congrArg (·.cerr) hsynth)

/-- No error is carried into a stream or out of a reset. -/
theorem carriedErrBounded_of_zero {s : State} (h : s.synth.cerr = fZero) : CarriedErrBounded s := by
  unfold CarriedErrBounded
  rw [h]
  decide +kernel

theorem exec_start_carriedErrBounded {s : State} (h : CarriedErrBounded s) :
    ∃ t, exec .start s = .next t ∧ CarriedErrBounded t := by
  refine ⟨_, exec_start s, ?_⟩
  split
  · exact h.of_synth rfl
  · split
    · split
      · exact carriedErrBounded_of_zero rfl
      · exact h.of_synth rfl
    · exact h.of_synth rfl

@[simp] theorem storeVolume_cerr (d : F64) (s : State) : (storeVolume d s).synth.cerr = s.synth.cerr := by
  unfold storeVolume; split <;> rfl

@[simp] theorem storeFreqRaiseRate_cerr (d : F64) (s : State) : (storeFreqRaiseRate d s).synth.cerr = s.synth.cerr := by
  unfold storeFreqRaiseRate; split <;> rfl

@[simp] theorem storeVolRaiseRate_cerr (d : F64) (s : State) : (storeVolRaiseRate d s).synth.cerr = s.synth.cerr := by
  unfold storeVolRaiseRate; split <;> rfl

@[simp] theorem enterRamping_cerr (s : State) : (enterRamping s).synth.cerr = s.synth.cerr := by
  unfold enterRamping; split <;> rfl

/-- The five operations that write the oscillator, envelope and period state leave the scheduler's. -/
theorem exec_writesSynth_cerr {i : Instr} (hi : writesSynth i = true) (s : State) :
    ∃ t, exec i s = .next t ∧ t.synth.cerr = s.synth.cerr := by
  match i, hi with
  | .wrVolume d, _ =>
    exact ⟨_, rfl, ifInRange_induct (P := (·.synth.cerr = s.synth.cerr)) rfl (storeVolume_cerr d s)⟩
  | .wrFreqRaiseRate d, _ =>
    exact ⟨_, rfl, ifInRange_induct (P := (·.synth.cerr = s.synth.cerr)) rfl (storeFreqRaiseRate_cerr d s)⟩
  | .wrVolRaiseRate d, _ =>
    exact ⟨_, rfl, ifInRange_induct (P := (·.synth.cerr = s.synth.cerr)) rfl (storeVolRaiseRate_cerr d s)⟩
  | .activate, _ =>
    exact ⟨_, rfl, ifStreaming_induct (P := (·.synth.cerr = s.synth.cerr)) (fun _ => rfl) (enterRamping_cerr s)⟩
  | .deactivate, _ =>
    exact ⟨_, rfl, ifStreaming_induct (P := (·.synth.cerr = s.synth.cerr)) (fun _ => rfl) rfl⟩

/-! ### The sample step (46_pipeline.md R232) -/

@[simp] theorem rampingStep_cerr (base : F64) (y : Synth) : (rampingStep base y).cerr = y.cerr := by
  unfold rampingStep; dsimp only; split <;> rfl

@[simp] theorem holdingStep_cerr (base hold : F64) (y : Synth) : (holdingStep base hold y).cerr = y.cerr := by
  unfold holdingStep; dsimp only; split <;> rfl

@[simp] theorem periodModeStep_cerr (s : State) : (periodModeStep s).cerr = s.synth.cerr := by
  unfold periodModeStep; split <;> simp [restingStep]

@[simp] theorem schedulerCount_cerr (s : State) : (schedulerCount s).synth.cerr = s.synth.cerr := by
  unfold schedulerCount; split <;> rfl

@[simp] theorem envelopeStep_cerr (s : State) : (envelopeStep s).synth.cerr = s.synth.cerr := by
  unfold envelopeStep; split <;> rfl

/-- In a running MODEM stream BAUD is from 1 to half the rate: its write and START have checked it (R221, 40_control.md
R106). -/
theorem RegsLegal.baud_inRange {s : State} (h : RegsLegal s) (hrun : s.running = true) (hm : s.cfg.mode = .modem) :
    inRange fOne (fdiv s.cfg.sampleRate fTwo) s.live.baud = true := by
  obtain ⟨-, -, -, -, -, -, -, ⟨hfin, hlo⟩, -⟩ := h.live
  obtain ⟨-, hmodem⟩ := startFits_iff.1 (h.fits hrun)
  exact inRange_iff.2 ⟨hfin, hlo, hmodem hm _ (by simp)⟩

/-- A pop carries at most half a sample, and nothing else in the step writes the carried error. -/
theorem schedulerStep_carriedErrBounded {s : State} (hregs : RegsLegal s) (h : CarriedErrBounded s)
    (hrun : s.running = true) (hm : s.cfg.mode = .modem) : CarriedErrBounded (schedulerStep s) := by
  refine CarriedErrBounded.of_cerr ?_ (schedulerCount_cerr _)
  obtain ⟨q, rest, -, e⟩ | e | e := schedulerFetch_cases s <;> rw [e]
  · obtain ⟨hfin, hlo, hhi⟩ := inRange_iff.1 (hregs.baud_inRange hrun hm)
    obtain ⟨-, -, herr⟩ := symbolBounds q.dur _ _ _ hregs.validRate hfin hlo hhi h
    exact herr
  · exact h.of_cerr rfl
  · exact h

theorem controlStep_carriedErrBounded {s : State} (hregs : RegsLegal s) (h : CarriedErrBounded s)
    (hrun : s.running = true) : CarriedErrBounded (controlStep s) := by
  unfold controlStep
  split
  · exact h.of_cerr rfl
  · exact h.of_cerr (periodModeStep_cerr s)
  · next hm => exact schedulerStep_carriedErrBounded hregs h hrun hm

theorem producerAct_carriedErrBounded {s t : State} (hregs : RegsLegal s) (h : CarriedErrBounded s)
    (ht : producerAct s = .next t) : CarriedErrBounded t := by
  obtain ⟨-, e⟩ | ⟨hrun, -, e⟩ | ⟨-, -, -, e⟩ | ⟨-, -, -, e⟩ := producerAct_cases s <;> rw [e] at ht
  · cases ht; exact h
  · obtain ⟨-, rfl⟩ := sampleStep_eq_next.1 ht
    exact (controlStep_carriedErrBounded hregs h hrun).of_cerr (envelopeStep_cerr (phaseDelta (controlStep s)))
  · cases ht; exact h.of_synth rfl
  · cases ht; exact h

/-- Settles O59: of the writers of the oscillator, envelope, period and scheduler state, START and the reset clear the carried
error, a pop bounds it, and the rest leave it. -/
theorem carriedErrKept : Obligations.CarriedErrKept := by
  intro s t hinv herr hstep
  refine step_keeps_synthProperty .of_synth (fun _ => exec_start_carriedErrBounded) (fun hi _ h => ?write)
    producerAct_carriedErrBounded (fun _ => carriedErrBounded_of_zero rfl) hinv.regsLegal herr hstep
  case write =>
    obtain ⟨t, ht, hcerr⟩ := exec_writesSynth_cerr hi _
    exact ⟨t, ht, h.of_cerr hcerr⟩

end Sys2Proof.Machine
end

section
/-! PROOFS. What a host operation leaves to the other agents (20_memory.md R74): the consumer's outputs, a stopped stream, and the
bound of the symbol FIFO (44_framing.md R191). -/

namespace Sys2Proof.Machine

/-! ### START (40_control.md R106) -/

/-- The three answers of START: none of its effects, a new stream, or a rejection. -/
theorem exec_start_induct {P : State → Prop} {s : State} (hnoEffect : P (accept s))
    (hstream : s.running = false → startFits s = true → P (accept (streamInit s)))
    (hreject : ∀ c, P (hostError true 0x02#8 c s)) : ∃ t, exec .start s = .next t ∧ P t := by
  refine ⟨_, exec_start s, ?_⟩
  split
  · exact hnoEffect
  · next hstopped =>
    split
    · split
      · next hfits => exact hstream (Bool.eq_false_iff.2 hstopped) hfits
      · exact hreject .range
    · exact hreject .device

/-! ### The other operations -/

/-- The consumer's outputs are kept, no stream starts, and the symbol FIFO stays within its capacity. -/
structure HostFrame (s t : State) : Prop where
  outputs : t.out = { s.out with hostRdata := t.out.hostRdata, hostErr := t.out.hostErr }
  running : t.running = true → s.running = true
  fifo : FifoBounded s → FifoBounded t

theorem FifoBounded.of_le {s t : State} (h : FifoBounded s) (hparams : t.params = s.params)
    (hle : t.symq.committed.length + t.symq.staged.length ≤ s.symq.committed.length + s.symq.staged.length) :
    FifoBounded t := by
  unfold FifoBounded at h ⊢
  rw [hparams]
  exact hle.trans h

/-- The shape of most operations: neither `running` nor the FIFO is written. -/
theorem HostFrame.of_eq {s t : State} (hout : t.out = { s.out with hostRdata := t.out.hostRdata, hostErr := t.out.hostErr })
    (hrun : t.running = s.running) (hparams : t.params = s.params) (hsymq : t.symq = s.symq) : HostFrame s t :=
  ⟨hout, fun hr => hrun ▸ hr, fun h => h.of_le hparams (by rw [hsymq])⟩

theorem hostFrame_hostError (w : Bool) (a : RegAddr) (c : ErrCode) (s : State) : HostFrame s (hostError w a c s) :=
  .of_eq rfl rfl rfl rfl

theorem hostFrame_storeVolume (d : F64) (s : State) : HostFrame s (accept (storeVolume d s)) := by
  unfold storeVolume
  split <;> exact .of_eq rfl rfl rfl rfl

theorem hostFrame_storeFreqRaiseRate (d : F64) (s : State) : HostFrame s (accept (storeFreqRaiseRate d s)) := by
  unfold storeFreqRaiseRate
  split <;> exact .of_eq rfl rfl rfl rfl

theorem hostFrame_storeVolRaiseRate (d : F64) (s : State) : HostFrame s (accept (storeVolRaiseRate d s)) := by
  unfold storeVolRaiseRate
  split <;> exact .of_eq rfl rfl rfl rfl

theorem hostFrame_enterRamping (s : State) : HostFrame s (accept (enterRamping s)) := by
  unfold enterRamping
  split <;> exact .of_eq rfl rfl rfl rfl

/-- A frame is staged only where it fits (44_framing.md R195). -/
theorem hostFrame_stageFrame (b : BitVec 8) (s : State) : HostFrame s (stageFrame b s) := by
  unfold stageFrame
  split
  · next hfits =>
    refine ⟨rfl, id, fun _ => ?_⟩
    have hle := of_decide_eq_true hfits
    rwa [Nat.add_assoc, ← List.length_append] at hle
  · exact hostFrame_hostError ..

theorem exec_txByte_hostFrame (d : Word64) (s : State) : ∃ t, exec (.txByte d) s = .next t ∧ HostFrame s t := by
  refine ⟨_, rfl, ifStreaming_induct (fun _ => hostFrame_hostError ..) ?_⟩
  split
  · exact hostFrame_stageFrame ..
  · exact hostFrame_hostError ..

/-- TXCOMMIT moves the staged symbols within the FIFO (44_framing.md R196). -/
theorem exec_txCommit_hostFrame (s : State) : ∃ t, exec .txCommit s = .next t ∧ HostFrame s t :=
  ⟨_, rfl, ifStreaming_induct (fun _ => hostFrame_hostError ..)
    ⟨rfl, id, fun h => h.of_le rfl (List.length_append (as := s.symq.committed)).le⟩⟩

/-- TXABORT drops the staged symbols (44_framing.md R197). -/
theorem exec_txAbort_hostFrame (s : State) : ∃ t, exec .txAbort s = .next t ∧ HostFrame s t :=
  ⟨_, rfl, ifStreaming_induct (fun _ => hostFrame_hostError ..)
    ⟨rfl, id, fun h => h.of_le rfl (Nat.le_add_right s.symq.committed.length s.symq.staged.length)⟩⟩

/-- Every operation but START is answered within the frame, whichever of its checks rejects it. -/
theorem exec_hostFrame {i : Instr} (hstart : i ≠ .start) (s : State) : ∃ t, exec i s = .next t ∧ HostFrame s t := by
  have hreject : ∀ a c, HostFrame s (hostError true a c s) := fun a c => hostFrame_hostError true a c s
  cases hw : i.isWrite with
  | false =>
    obtain ⟨v, hv⟩ := exec_read hw s
    exact ⟨_, hv, .of_eq rfl rfl rfl rfl⟩
  | true =>
    match i, hw with
    | .start, _ => exact absurd rfl hstart
    | .clrErr, _ => exact ⟨_, rfl, .of_eq rfl rfl rfl rfl⟩
    | .stop, _ => exact ⟨_, rfl, rfl, (fun hr => by cases hr), id⟩
    | .wrMode d, _ | .wrWaveform d, _ =>
      exact ⟨_, rfl, unlessBusy_induct (hreject ..) fun _ =>
        ifListed_induct (hreject ..) fun _ => .of_eq rfl rfl rfl rfl⟩
    | .wrSampleRate d, _ | .wrBufSize d, _ | .wrBufCount d, _ =>
      exact ⟨_, rfl, unlessBusy_induct (hreject ..) fun _ =>
        ifInRange_induct (hreject ..) (.of_eq rfl rfl rfl rfl)⟩
    | .wrDataBits d, _ | .wrParity d, _ | .wrStopBits d, _ =>
      exact ⟨_, rfl, ifListed_induct (hreject ..) fun _ => .of_eq rfl rfl rfl rfl⟩
    | .wrFreq d, _ | .wrEnvK1 d, _ | .wrEnvK2 d, _ | .wrHoldDuration d, _ | .wrMarkFreq d, _ | .wrSpaceFreq d, _
    | .wrBaud d, _ | .wrIdleFreq d, _ =>
      exact ⟨_, rfl, ifInRange_induct (hreject ..) (.of_eq rfl rfl rfl rfl)⟩
    | .wrVolume d, _ => exact ⟨_, rfl, ifInRange_induct (hreject ..) (hostFrame_storeVolume d s)⟩
    | .wrFreqRaiseRate d, _ => exact ⟨_, rfl, ifInRange_induct (hreject ..) (hostFrame_storeFreqRaiseRate d s)⟩
    | .wrVolRaiseRate d, _ => exact ⟨_, rfl, ifInRange_induct (hreject ..) (hostFrame_storeVolRaiseRate d s)⟩
    | .activate, _ => exact ⟨_, rfl, ifStreaming_induct (fun _ => hreject ..) (hostFrame_enterRamping s)⟩
    | .deactivate, _ => exact ⟨_, rfl, ifStreaming_induct (fun _ => hreject ..) (.of_eq rfl rfl rfl rfl)⟩
    | .txByte d, _ => exact exec_txByte_hostFrame d s
    | .txCommit, _ => exact exec_txCommit_hostFrame s
    | .txAbort, _ => exact exec_txAbort_hostFrame s

/-! ### The consumer's outputs -/

/-- Neither of the consumer's outputs is driven. -/
def PortQuiet (s : State) : Prop := s.out.frameValid = false ∧ s.out.underrun = false

theorem PortQuiet.of_outputs {s t : State} (h : PortQuiet s)
    (hout : t.out = { s.out with hostRdata := t.out.hostRdata, hostErr := t.out.hostErr }) : PortQuiet t := by
  unfold PortQuiet
  rw [hout]
  exact h

theorem PortQuiet.exec {s : State} (h : PortQuiet s) (i : Instr) : ∃ t, exec i s = .next t ∧ PortQuiet t := by
  by_cases hi : i = .start
  · subst hi
    exact exec_start_induct h (fun _ _ => h) fun _ => h
  · obtain ⟨t, ht, hframe⟩ := exec_hostFrame hi s
    exact ⟨t, ht, h.of_outputs hframe.outputs⟩

theorem PortQuiet.hostAct {w : Option Bus73} {s u : State} (h : PortQuiet s) (hu : hostAct w s = .next u) :
    PortQuiet u :=
  hostAct_induct h (fun _ _ _ => h) h.exec hu

end Sys2Proof.Machine
end

section
/-! PROOFS. The buffer pipeline (46_pipeline.md): a sample, a publish or a stall, a POP, an underrun, and the cycle of a stopped
stream (R231 to R237). -/

namespace Sys2Proof.Machine

/-! ### The sample step writes the producer's own state (R232) -/

/-- The control step writes the oscillator, envelope, period and scheduler state and the symbol FIFO only. -/
theorem controlStep_frame (s : State) :
    controlStep s = { s with synth := (controlStep s).synth, symq := (controlStep s).symq } := by
  unfold controlStep
  split
  · rfl
  · rfl
  · have hfetch : schedulerFetch s = { s with synth := (schedulerFetch s).synth, symq := (schedulerFetch s).symq } := by
      obtain ⟨q, rest, -, e⟩ | e | e := schedulerFetch_cases s <;> rw [e]
    unfold schedulerStep schedulerCount
    split
    · exact hfetch
    · rw [hfetch]

/-- The envelope writes the volume and whether its target is reached. -/
theorem envelopeStep_frame (s : State) : envelopeStep s =
    { s with synth.curV := (envelopeStep s).synth.curV, synth.tgtValid := (envelopeStep s).synth.tgtValid } := by
  unfold envelopeStep
  split <;> rfl

/-- The steps before the output write the producer's oscillator state and the symbol FIFO only. -/
theorem beforeSample_frame (s : State) :
    beforeSample s = { s with synth := (beforeSample s).synth, symq := (controlStep s).symq } := by
  rw [beforeSample, envelopeStep_frame, phaseDelta, controlStep_frame s]

@[simp] theorem schedulerFetch_phase (s : State) : (schedulerFetch s).synth.phase = s.synth.phase := by
  obtain ⟨q, rest, -, e⟩ | e | e := schedulerFetch_cases s <;> rw [e]
  rfl

@[simp] theorem controlStep_phase (s : State) : (controlStep s).synth.phase = s.synth.phase := by
  unfold controlStep
  split
  · rfl
  · exact periodModeStep_phase s
  · exact (schedulerCount_keepsTones _).phase.trans (schedulerFetch_phase s)

@[simp] theorem beforeSample_phase (s : State) : (beforeSample s).synth.phase = s.synth.phase := by
  rw [beforeSample, (envelopeStep_keepsTones _).phase]
  exact controlStep_phase s

/-- The output is the wave at the phase before the sample, times the new volume (41_oscillator.md R140). -/
theorem oscOut_beforeSample (s : State) : oscOut (beforeSample s) =
    fmul (wave s.params.sin s.cfg.waveform s.synth.phase) (beforeSample s).synth.curV := by
  rw [oscOut, beforeSample_params, beforeSample_cfg, beforeSample_phase]

/-- The phase advances by the increment of the frequency that the control step gave (41_oscillator.md R138, R139). -/
theorem phaseAdvance_beforeSample (s : State) : (phaseAdvance (beforeSample s)).synth =
    { (beforeSample s).synth with
      phase := wrapPhase (fadd s.synth.phase (phaseIncrement (controlStep s).synth.curF s.cfg.sampleRate)) } := by
  rw [phaseAdvance, beforeSample_phase, beforeSample_dphi]

/-- A sample step with its place in the pool, R232 written out. -/
theorem sampleStep_eq {s : State} (hidx : s.pipe.fillIdx.toNat < s.cfg.bufCount.toNat)
    (hpos : s.pipe.fillPos.toNat < s.cfg.bufSize.toNat) : sampleStep s = .next { s with
      synth := (phaseAdvance (beforeSample s)).synth,
      symq := (controlStep s).symq,
      pipe.pool := s.pipe.pool.write (poolAddr s s.pipe.fillIdx.toNat s.pipe.fillPos.toNat)
        (fmul (wave s.params.sin s.cfg.waveform s.synth.phase) (beforeSample s).synth.curV),
      pipe.fillPos := s.pipe.fillPos + 1#32 } := by
  rw [sampleStep_eq_next, beforeSample_pipe, oscOut_beforeSample]
  refine ⟨⟨hidx, hpos⟩, ?_⟩
  conv_rhs => rw [beforeSample_frame s]
  rfl

theorem producerAct_sample {s : State} (hrun : s.running = true) (hpos : s.pipe.fillPos.toNat < s.cfg.bufSize.toNat) :
    producerAct s = sampleStep s := by
  rw [producerAct, if_pos hrun, if_pos hpos]

/-- Settles O48: the sample step's result, the increment and the envelope being those of `beforeSample`, and the read of the
word that it wrote. -/
theorem sampleStored : Obligations.SampleStored := by
  intro s k e d p hrun hidx hpos hwf hk hd he hp
  have hcontrol : controlStep s = k := by
    rw [hk]
    unfold controlStep
    cases s.cfg.mode <;> rfl
  have hinc : d = phaseIncrement (controlStep s).synth.curF s.cfg.sampleRate := by rw [hcontrol]; exact hd
  have hbefore : e = beforeSample s := by
    rw [he, hinc, ← hcontrol, ← controlStep_cfg s]
    rfl
  refine ⟨hcontrol, _, (producerAct_sample hrun hpos).trans (sampleStep_eq hidx hpos), ?written, ?others, ?frame⟩
  case written =>
    rw [hbefore]
    exact Memory.read_write_same hwf
  case others => exact fun a ha => Memory.read_write_ne _ ha
  case frame =>
    rw [phaseAdvance_beforeSample, ← hinc, ← hp, hbefore, ← hcontrol]
    rfl

/-! ### A full buffer: publish or stall (R233, R234) -/

/-- The index of the next buffer fits its four bits, where the pool has at most 16 buffers. -/
theorem toNat_nextIdx {i n : Nat} (h0 : 0 < n) (h : n ≤ 16) : (BitVec.ofNat 4 ((i + 1) % n)).toNat = (i + 1) % n := by
  have hlt := Nat.mod_lt (i + 1) h0
  rw [BitVec.toNat_ofNat]
  exact Nat.mod_eq_of_lt (by omega)

theorem producerAct_publish {s : State} (hrun : s.running = true) (hfull : s.cfg.bufSize.toNat ≤ s.pipe.fillPos.toNat)
    (hslot : s.pipe.ready.length + 1 < s.cfg.bufCount.toNat) : producerAct s = .next (publish s) := by
  rw [producerAct, if_pos hrun, if_neg (by omega), if_pos hslot]

theorem producerAct_stall {s : State} (hrun : s.running = true) (hfull : s.cfg.bufSize.toNat ≤ s.pipe.fillPos.toNat)
    (hslot : s.cfg.bufCount.toNat ≤ s.pipe.ready.length + 1) : producerAct s = .next s := by
  rw [producerAct, if_pos hrun, if_neg (by omega), if_neg (by omega)]

/-- Settles O49, by whether the ready queue has a free slot. -/
theorem publishOrStall : Obligations.PublishOrStall := by
  refine fun s hrun hfull hcount => ⟨fun hfree => ?publish, fun hnone => producerAct_stall hrun hfull (by omega)⟩
  case publish =>
    exact ⟨_, toNat_nextIdx (by omega) hcount, producerAct_publish hrun hfull (by omega)⟩

/-! ### A POP and an underrun (R235, R236) -/

/-- A buffer of the pool can be read as a whole. -/
theorem bufRead_of_lt {i : Nat} {s : State} (h : i < s.cfg.bufCount.toNat) : ∃ b, bufRead i s = some b :=
  ⟨_, bufRead_eq_some.2 ⟨h, rfl⟩⟩

theorem consumerPop_ready {s : State} {i : BitVec 4} {rest : List (BitVec 4)} {b : SampleBuf} (hrun : s.running = true)
    (hready : s.pipe.ready = i :: rest) (hb : bufRead i.toNat s = some b) : consumerPop s = .next { s with
      pipe.ready := rest, pipe.outBuf := b, out.frameValid := true, out.underrun := false } := by
  simp only [consumerPop, hrun, hready, hb, if_true]

theorem consumerPop_empty {s : State} (hrun : s.running = true) (hready : s.pipe.ready = []) :
    consumerPop s = .next (underrunPop s) := by
  simp only [consumerPop, hrun, hready, if_true]

/-- Settles O50: the popped buffer is the pool's words at its place. -/
theorem popReturnsOldest : Obligations.PopReturnsOldest := by
  intro s i rest hrun hready hi
  obtain ⟨b, hb⟩ := bufRead_of_lt hi
  obtain ⟨-, hlen⟩ := bufRead_eq_some.1 hb
  exact ⟨b, congrArg SampleBuf.len hlen, fun j hj => bufRead_sample hb hj, consumerPop_ready hrun hready hb⟩

/-- Counting saturates at the largest 32-bit number (00_scope.md R10). -/
theorem toNat_satInc32 (n : BitVec 32) : (satInc32 n).toNat = min (n.toNat + 1) (2 ^ 32 - 1) := by
  unfold satInc32
  split <;> bv_omega

/-- Settles O51: `underrunPop` delivers silence and counts by a saturating increment. -/
theorem underrunSilence : Obligations.UnderrunSilence := fun s hrun hready =>
  ⟨silence s.cfg.bufSize.toNat, satInc32 s.pipe.underruns, silence_len _, silence_sample _,
    toNat_satInc32 _, consumerPop_empty hrun hready⟩

/-! ### A stopped stream (R237) -/

theorem consumerAct_stopped {s : State} (h : s.running = false) (req : Bool) : consumerAct req s = .next s := by
  cases req with
  | false => rfl
  | true => simp [consumerAct, consumerPop, h]

theorem producerAct_stopped {s : State} (h : s.running = false) : producerAct s = .next s := by
  simp [producerAct, h]

/-- The cycle ends with the host's action. -/
theorem cycle_stopped {c : CycleInputs} {s u : State} (hu : hostAct c.host s = .next u) (h : u.running = false) :
    cycle c s = .next u := by
  rw [cycle_of_hostAct hu, consumerAct_stopped h, andThen_next, producerAct_stopped h]

/-- Settles O14: only the host acts, and it does not drive the outputs that the cycle's start has cleared. -/
theorem stoppedCycle : Obligations.StoppedCycle := by
  intro s u hrst hu hstopped
  have hbegin : PortQuiet (beginCycle s) := ⟨rfl, rfl⟩
  exact ⟨(step_cycle hrst).trans (cycle_stopped hu hstopped), hbegin.hostAct hu⟩

end Sys2Proof.Machine
end

section
/-! PROOFS. The period state in RESTING (43_period.md R180): every operation and every sample keeps the volume factor and the
time in the cycle at +0.0 there. -/

namespace Sys2Proof.Machine

/-! ### What keeps it -/

theorem RestingQuiet.of_kept {s t : State} (h : RestingQuiet s) (hmode : t.synth.pmode = s.synth.pmode)
    (hvf : t.synth.vf = s.synth.vf) (htic : t.synth.tic = s.synth.tic) : RestingQuiet t := fun hresting => by
  rw [hvf, htic]
  exact h (hmode ▸ hresting)

theorem RestingQuiet.of_synth {s t : State} (h : RestingQuiet s) (hsynth : t.synth = s.synth) : RestingQuiet t :=
  h.of_kept (congrArg (·.pmode) hsynth) (congrArg (·.vf) hsynth) (congrArg (·.tic) hsynth)

/-- Where the period is not in RESTING nothing is asked. -/
theorem restingQuiet_of_active {s : State} (h : s.synth.pmode ≠ .resting) : RestingQuiet s :=
  fun hresting => absurd hresting h

/-! ### The host's operations -/

/-- A new stream rests with both at +0.0 (40_control.md R107). -/
theorem exec_start_restingQuiet {s : State} (h : RestingQuiet s) : ∃ t, exec .start s = .next t ∧ RestingQuiet t :=
  exec_start_induct (h.of_synth rfl) (fun _ _ _ => ⟨rfl, rfl⟩) fun _ => h.of_synth rfl

theorem storeVolume_restingQuiet {s : State} (h : RestingQuiet s) (d : F64) : RestingQuiet (storeVolume d s) := by
  unfold storeVolume
  split <;> exact h.of_kept rfl rfl rfl

theorem storeFreqRaiseRate_restingQuiet {s : State} (h : RestingQuiet s) (d : F64) :
    RestingQuiet (storeFreqRaiseRate d s) := by
  unfold storeFreqRaiseRate
  split <;> exact h.of_kept rfl rfl rfl

theorem storeVolRaiseRate_restingQuiet {s : State} (h : RestingQuiet s) (d : F64) :
    RestingQuiet (storeVolRaiseRate d s) := by
  unfold storeVolRaiseRate
  split <;> exact h.of_kept rfl rfl rfl

/-- ACTIVATE leaves RESTING, or has no effect (R170). -/
theorem enterRamping_restingQuiet {s : State} (h : RestingQuiet s) : RestingQuiet (enterRamping s) := by
  by_cases hmode : s.synth.pmode = .resting
  · rw [enterRamping_resting hmode]
    exact restingQuiet_of_active nofun
  · rwa [enterRamping_active hmode]

/-- DEACTIVATE enters RESTING with both at +0.0 (R171). -/
theorem enterResting_restingQuiet (s : State) : RestingQuiet (enterResting s) := fun _ => ⟨rfl, rfl⟩

theorem exec_writesSynth_restingQuiet {s : State} {i : Instr} (hi : writesSynth i = true) (h : RestingQuiet s) :
    ∃ t, exec i s = .next t ∧ RestingQuiet t := by
  have hreject : ∀ a c, RestingQuiet (hostError true a c s) := fun _ _ => h.of_synth rfl
  match i, hi with
  | .wrVolume d, _ =>
    exact ⟨_, rfl, ifInRange_induct (hreject _ _) ((storeVolume_restingQuiet h d).of_synth rfl)⟩
  | .wrFreqRaiseRate d, _ =>
    exact ⟨_, rfl, ifInRange_induct (hreject _ _) ((storeFreqRaiseRate_restingQuiet h d).of_synth rfl)⟩
  | .wrVolRaiseRate d, _ =>
    exact ⟨_, rfl, ifInRange_induct (hreject _ _) ((storeVolRaiseRate_restingQuiet h d).of_synth rfl)⟩
  | .activate, _ =>
    exact ⟨_, rfl, ifStreaming_induct (fun _ => hreject _ _) ((enterRamping_restingQuiet h).of_synth rfl)⟩
  | .deactivate, _ =>
    exact ⟨_, rfl, ifStreaming_induct (fun _ => hreject _ _) ((enterResting_restingQuiet s).of_synth rfl)⟩

/-! ### The sample step -/

/-- A ramp ends in a hold (R167). -/
theorem rampingStep_active {base : F64} {y : Synth} (h : y.pmode ≠ .resting) :
    (rampingStep base y).pmode ≠ .resting := by
  by_cases hend : flt (fmul fTwo base) (fadd y.curF y.frd) = true
  · rw [rampingStep_ends hend]
    exact nofun
  · rw [rampingStep_continues hend]
    exact h

/-- A hold ends in a ramp (R168). -/
theorem holdingStep_active {base hold : F64} {y : Synth} (h : y.pmode ≠ .resting) :
    (holdingStep base hold y).pmode ≠ .resting := by
  by_cases hend : flt hold (fadd y.tic y.invFs) = true
  · rw [holdingStep_ends hend]
    exact nofun
  · rw [holdingStep_continues hend]
    exact h

/-- A period step neither enters nor leaves RESTING, and in RESTING it plays FREQ only (R166). -/
theorem periodStep_restingQuiet {s : State} (h : RestingQuiet s) : RestingQuiet (periodStep s) := by
  cases hmode : s.synth.pmode with
  | resting =>
    rw [periodStep_resting hmode]
    exact h.of_kept rfl rfl rfl
  | ramping =>
    refine restingQuiet_of_active (s := periodStep s) ?_
    rw [periodStep_synth, pulseTarget_pmode, periodModeStep_ramping hmode]
    exact rampingStep_active (by rw [hmode]; exact nofun)
  | holding =>
    refine restingQuiet_of_active (s := periodStep s) ?_
    rw [periodStep_synth, pulseTarget_pmode, periodModeStep_holding hmode]
    exact holdingStep_active (by rw [hmode]; exact nofun)

/-- The scheduler does not write the period state (45_scheduler.md R216). -/
theorem schedulerStep_restingQuiet {s : State} (h : RestingQuiet s) : RestingQuiet (schedulerStep s) := by
  have hfetch : RestingQuiet (schedulerFetch s) := by
    obtain ⟨q, rest, -, e⟩ | e | e := schedulerFetch_cases s <;> rw [e]
    · exact h.of_kept rfl rfl rfl
    · exact h.of_kept rfl rfl rfl
    · exact h
  unfold schedulerStep schedulerCount
  split
  · exact hfetch
  · exact hfetch.of_kept rfl rfl rfl

theorem controlStep_restingQuiet {s : State} (h : RestingQuiet s) : RestingQuiet (controlStep s) := by
  unfold controlStep
  split
  · exact h.of_kept rfl rfl rfl
  · exact periodStep_restingQuiet h
  · exact schedulerStep_restingQuiet h

theorem beforeSample_restingQuiet {s : State} (h : RestingQuiet s) : RestingQuiet (beforeSample s) := by
  rw [beforeSample, envelopeStep_frame]
  exact (controlStep_restingQuiet h).of_kept rfl rfl rfl

theorem producerAct_restingQuiet {s t : State} (h : RestingQuiet s) (ht : producerAct s = .next t) : RestingQuiet t := by
  obtain ⟨-, e⟩ | ⟨-, -, e⟩ | ⟨-, -, -, e⟩ | ⟨-, -, -, e⟩ := producerAct_cases s <;> rw [e] at ht
  · cases ht; exact h
  · obtain ⟨-, rfl⟩ := sampleStep_eq_next.1 ht
    exact (beforeSample_restingQuiet h).of_kept rfl rfl rfl
  · cases ht; exact h.of_synth rfl
  · cases ht; exact h

theorem step_restingQuiet {s t : State} (hregs : RegsLegal s) (h : RestingQuiet s) (hstep : step s = .next t) :
    RestingQuiet t :=
  step_keeps_synthProperty .of_synth (fun _ => exec_start_restingQuiet)
    (fun hi _ => exec_writesSynth_restingQuiet hi) (fun _ => producerAct_restingQuiet) (fun _ _ => ⟨rfl, rfl⟩)
    hregs h hstep

end Sys2Proof.Machine
end

section
/-! PROOFS. The machine's invariant (46_pipeline.md R238, 44_framing.md R191): the three agents of a cycle keep the order of
the ready queue, the bounds of the buffers and of the symbol FIFO, and the form of the pool; with the registers and the period
state that is the whole invariant. -/

namespace Sys2Proof.Machine

/-! ### The ready queue (46_pipeline.md R238) -/

/-- The queue holds the indices of the buffers right before the one at `f`, in the cyclic order of the `n` buffers of the pool:
the last clause of `PoolOwned`. -/
def ReadyInOrder (n f : Nat) (ready : List (BitVec 4)) : Prop :=
  ∀ j, ∀ h : j < ready.length, (ready[j]).toNat = (f + n - ready.length + j) % n

/-- Taking the oldest index leaves the order of the others. -/
theorem ReadyInOrder.pop {n f : Nat} {i : BitVec 4} {rest : List (BitVec 4)} (h : ReadyInOrder n f (i :: rest))
    (hlen : rest.length + 1 ≤ n) : ReadyInOrder n f rest := by
  intro j hj
  have hj' := h (j + 1) (Nat.succ_lt_succ hj)
  rw [List.getElem_cons_succ, List.length_cons] at hj'
  rw [hj', show f + n - (rest.length + 1) + (j + 1) = f + n - rest.length + j by omega]

/-- The index after the last one wraps to 0. -/
theorem succ_mod_cases {n f : Nat} (hf : f < n) :
    (f + 1 < n ∧ (f + 1) % n = f + 1) ∨ (f + 1 = n ∧ (f + 1) % n = 0) := by
  obtain hlt | heq := Nat.lt_or_eq_of_le (Nat.succ_le_of_lt hf)
  · exact .inl ⟨hlt, Nat.mod_eq_of_lt hlt⟩
  · exact .inr ⟨heq, by rw [show f + 1 = n from heq, Nat.mod_self]⟩

/-- A position of the queue counted from the next buffer, which is one further on, modulo the number of buffers. -/
theorem mod_from_next {n f l j : Nat} (hf : f < n) (hl : l + 1 < n) :
    ((f + 1) % n + n - (l + 1) + j) % n = (f + n - l + j) % n := by
  obtain ⟨-, e⟩ | ⟨hlast, e⟩ := succ_mod_cases hf <;> rw [e]
  · rw [show f + 1 + n - (l + 1) + j = f + n - l + j by omega]
  · rw [show f + n - l + j = 0 + n - (l + 1) + j + n by omega, Nat.add_mod_right]

/-- A publish appends the index of the filled buffer and moves on to the next one (R233). -/
theorem ReadyInOrder.publish {n : Nat} {f : BitVec 4} {ready : List (BitVec 4)} (h : ReadyInOrder n f.toNat ready)
    (hf : f.toNat < n) (hlen : ready.length + 1 < n) : ReadyInOrder n ((f.toNat + 1) % n) (ready ++ [f]) := by
  intro j hj
  rw [List.length_append, List.length_singleton] at hj ⊢
  rw [mod_from_next hf hlen]
  obtain hold | hnew := Nat.lt_or_eq_of_le (Nat.lt_succ_iff.1 hj)
  · rw [List.getElem_append_left hold]
    exact h j hold
  · subst hnew
    rw [List.getElem_concat_length rfl, Nat.sub_add_cancel (by omega), Nat.add_mod_right, Nat.mod_eq_of_lt hf]

/-! ### The invariant of the queues and the buffers -/

/-- The registers are legal, the pool is owned and in canonical form, and the symbol FIFO is within its capacity: the machine's
invariant but for the period state. -/
structure StorageInv (s : State) : Prop where
  regs : RegsLegal s
  owned : PoolOwned s
  fifo : FifoBounded s
  canonical : CanonicalPool s

theorem MachineInv.storage {s : State} (h : MachineInv s) : StorageInv s := ⟨h.regsLegal, h.owned, h.fifo, h.canonical⟩

theorem StorageInv.machineInv {s : State} (h : StorageInv s) (hquiet : RestingQuiet s) : MachineInv s :=
  ⟨h.regs.params, h.regs.cfg, h.regs.live, h.regs.fits, h.owned, h.fifo, hquiet, h.canonical⟩

/-- The ownership speaks of the pipeline and the configuration of a running stream. -/
theorem PoolOwned.of_kept {s t : State} (h : PoolOwned s) (hrun : t.running = true → s.running = true)
    (hcfg : s.running = true → t.cfg = s.cfg) (hpipe : t.pipe = s.pipe) : PoolOwned t := fun hr => by
  have hrunning := hrun hr
  rw [hcfg hrunning, hpipe]
  exact h hrunning

theorem CanonicalPool.of_pipe {s t : State} (h : CanonicalPool s) (hpipe : t.pipe = s.pipe) : CanonicalPool t := by
  unfold CanonicalPool
  rw [hpipe]
  exact h

/-- Neither the registers nor the FIFO nor the pipeline is written. -/
theorem StorageInv.of_kept {s t : State} (h : StorageInv s) (hregs : RegsLegal t) (hrun : t.running = s.running)
    (hparams : t.params = s.params) (hcfg : t.cfg = s.cfg) (hsymq : t.symq = s.symq) (hpipe : t.pipe = s.pipe) :
    StorageInv t where
  regs := hregs
  owned := h.owned.of_kept (fun hr => hrun ▸ hr) (fun _ => hcfg) hpipe
  fifo := h.fifo.of_le hparams (by rw [hsymq])
  canonical := h.canonical.of_pipe hpipe

/-- A legal BUF_COUNT is from 2 to 16 (00_scope.md R6, 10_state.md R28). -/
theorem RegsLegal.bufCount_bounds {s : State} (h : RegsLegal s) :
    2 ≤ s.cfg.bufCount.toNat ∧ s.cfg.bufCount.toNat ≤ 16 := by
  obtain ⟨⟨-, hmax⟩, -⟩ := h.params
  obtain ⟨-, -, hreset | hlegal⟩ := h.cfg
  · rw [hreset]
    decide
  · obtain ⟨hlo, hhi⟩ := legalBufCount_iff.1 hlegal
    exact ⟨hlo, hhi.trans hmax⟩

/-! ### The host -/

theorem StorageInv.hostError {s : State} (h : StorageInv s) (w : Bool) (a : RegAddr) (c : ErrCode) :
    StorageInv (hostError w a c s) := h.of_kept (h.regs.hostError w a c) rfl rfl rfl rfl rfl

/-- A new stream starts with the first buffer empty, no buffer ready and an empty FIFO (40_control.md R107). -/
theorem storageInv_streamInit {s : State} (hregs : RegsLegal s) (hfits : startFits s = true) :
    StorageInv (streamInit s) where
  regs := ⟨hregs.params, hregs.cfg, hregs.live, fun _ => hfits⟩
  owned _ := by
    obtain ⟨hlo, -⟩ := hregs.bufCount_bounds
    exact ⟨(by decide : 1 ≤ 2).trans hlo, two_pos.trans_le hlo, Nat.zero_le _, nofun⟩
  fifo := Nat.zero_le _
  canonical := ⟨rfl, rfl⟩

theorem StorageInv.exec_start {s : State} (h : StorageInv s) : ∃ t, exec .start s = .next t ∧ StorageInv t :=
  exec_start_induct (h.of_kept (h.regs.of_kept rfl rfl rfl id) rfl rfl rfl rfl rfl)
    (fun _ hfits =>
      have hinit := storageInv_streamInit h.regs hfits
      hinit.of_kept (hinit.regs.of_kept rfl rfl rfl id) rfl rfl rfl rfl rfl)
    fun _ => h.hostError ..

/-- Every other operation keeps the pipeline, and starts no stream. -/
theorem StorageInv.exec {s : State} (h : StorageInv s) (i : Instr) : ∃ t, exec i s = .next t ∧ StorageInv t := by
  by_cases hi : i = .start
  · subst hi
    exact h.exec_start
  · obtain ⟨t, ht, hregs⟩ := h.regs.exec i
    obtain ⟨t', ht', hframe⟩ := exec_hostFrame hi s
    obtain ⟨t'', ht'', hconfig⟩ := exec_keepsConfig i s
    obtain ⟨hpipe, -⟩ := agentsWriteOwnState.2 i s t ht hi
    obtain rfl : t = t' := by rw [ht] at ht'; injection ht'
    obtain rfl : t = t'' := by rw [ht] at ht''; injection ht''
    exact ⟨t, ht, hregs, h.owned.of_kept hframe.running hconfig.cfg hpipe, hframe.fifo h.fifo, h.canonical.of_pipe hpipe⟩

/-! ### The consumer -/

/-- A POP takes the oldest index and copies canonical words to `out_buf` (46_pipeline.md R235, R236). -/
theorem consumerPop_storageInv {s t : State} (h : StorageInv s) (ht : consumerPop s = .next t) : StorageInv t := by
  have hregs : RegsLegal t := consumerAct_regsLegal (r := true) h.regs ht
  obtain ⟨hcanonical, -⟩ := h.canonical
  obtain ⟨-, e⟩ | ⟨-, hready, e⟩ | ⟨_, _, -, -, -, e⟩ | ⟨i, rest, b, hrun, hready, hb, e⟩ := consumerPop_cases s <;>
    rw [e] at ht <;> cases ht
  · exact h
  · exact ⟨hregs, h.owned, h.fifo, hcanonical, rfl⟩
  · refine ⟨hregs, fun _ => ?owned, h.fifo, hcanonical, ?outBuf⟩
    case owned =>
      obtain ⟨hlen, hidx, hpos, horder⟩ := h.owned hrun
      rw [hready] at hlen horder
      have hrest : rest.length + 1 ≤ s.cfg.bufCount.toNat := Nat.le_of_succ_le hlen
      exact ⟨hrest, hidx, hpos, ReadyInOrder.pop horder hrest⟩
    case outBuf =>
      obtain ⟨-, rfl⟩ := bufRead_eq_some.1 hb
      exact Memory.wf_slice _ _ hcanonical

theorem consumerAct_storageInv {r : Bool} {s t : State} (h : StorageInv s) (ht : consumerAct r s = .next t) :
    StorageInv t := by
  cases r with
  | false =>
    cases ht
    exact h
  | true => exact consumerPop_storageInv h ht

/-! ### The producer -/

theorem producerAct_regsLegal {s t : State} (h : RegsLegal s) (ht : producerAct s = .next t) : RegsLegal t := by
  obtain ⟨-, e⟩ | ⟨-, -, e⟩ | ⟨-, -, -, e⟩ | ⟨-, -, -, e⟩ := producerAct_cases s <;> rw [e] at ht
  · cases ht; exact h
  · obtain ⟨-, rfl⟩ := sampleStep_eq_next.1 ht
    exact h.of_kept (beforeSample_params s) (beforeSample_cfg s) (beforeSample_live s) (beforeSample_running s ▸ id)
  · cases ht; exact h.of_kept rfl rfl rfl id
  · cases ht; exact h

/-- A scheduler step takes at most one committed symbol from the FIFO (45_scheduler.md R216). -/
theorem schedulerStep_fifoBounded {s : State} (h : FifoBounded s) : FifoBounded (schedulerStep s) := by
  have hfetch : FifoBounded (schedulerFetch s) := by
    obtain ⟨q, rest, hq, e⟩ | e | e := schedulerFetch_cases s <;> rw [e]
    · exact h.of_le rfl (by simp [hq])
    · exact h
    · exact h
  exact hfetch.of_le (schedulerCount_params _) (by rw [schedulerStep, schedulerCount_symq])

theorem controlStep_fifoBounded {s : State} (h : FifoBounded s) : FifoBounded (controlStep s) := by
  unfold controlStep
  split
  · exact h
  · exact h
  · exact schedulerStep_fifoBounded h

/-- A sample fills one position of its buffer (46_pipeline.md R232). -/
theorem sampleStep_storageInv {s t : State} (h : StorageInv s) (hregs : RegsLegal t) (hrun : s.running = true)
    (hpos : s.pipe.fillPos.toNat < s.cfg.bufSize.toNat) (ht : sampleStep s = .next t) : StorageInv t := by
  obtain ⟨hlen, hidx, -, horder⟩ := h.owned hrun
  obtain ⟨hpool, hout⟩ := h.canonical
  rw [sampleStep_eq hidx hpos] at ht
  cases ht
  refine ⟨hregs, fun _ => ⟨hlen, hidx, ?filled, horder⟩, ?fifo, Memory.wf_write hpool, hout⟩
  case filled =>
    change (s.pipe.fillPos + 1#32).toNat ≤ s.cfg.bufSize.toNat
    rw [BitVec.toNat_add]
    exact (Nat.mod_le _ _).trans hpos
  case fifo => exact (controlStep_fifoBounded h.fifo).of_le (controlStep_params s).symm le_rfl

/-- A publish queues the filled buffer and moves on to the next one (R233). -/
theorem publish_storageInv {s : State} (h : StorageInv s) (hregs : RegsLegal (publish s)) (hrun : s.running = true)
    (hslot : s.pipe.ready.length + 1 < s.cfg.bufCount.toNat) : StorageInv (publish s) := by
  obtain ⟨-, hcount⟩ := h.regs.bufCount_bounds
  obtain ⟨-, hidx, -, horder⟩ := h.owned hrun
  have hn : 0 < s.cfg.bufCount.toNat := by omega
  have hnext : (publish s).pipe.fillIdx.toNat = (s.pipe.fillIdx.toNat + 1) % s.cfg.bufCount.toNat :=
    toNat_nextIdx hn hcount
  refine ⟨hregs, fun _ => ⟨?slot, ?index, Nat.zero_le _, ?order⟩, h.fifo, h.canonical⟩
  case slot =>
    change (s.pipe.ready ++ [s.pipe.fillIdx]).length + 1 ≤ s.cfg.bufCount.toNat
    rw [List.length_append]
    exact hslot
  case index =>
    rw [hnext]
    exact Nat.mod_lt _ hn
  case order =>
    rw [hnext]
    exact ReadyInOrder.publish horder hidx hslot

theorem producerAct_storageInv {s t : State} (h : StorageInv s) (ht : producerAct s = .next t) : StorageInv t := by
  have hregs := producerAct_regsLegal h.regs ht
  obtain ⟨-, e⟩ | ⟨hrun, hpos, e⟩ | ⟨hrun, -, hslot, e⟩ | ⟨-, -, -, e⟩ := producerAct_cases s <;> rw [e] at ht
  · cases ht; exact h
  · exact sampleStep_storageInv h hregs hrun hpos ht
  · cases ht; exact publish_storageInv h hregs hrun hslot
  · cases ht; exact h

/-! ### The whole step -/

theorem legalLive_reset : LegalLive LiveRegs.reset := by unfold LegalLive; decide +kernel

/-- The reset state is stopped and empty, with the reset values in its registers (70_reset_and_hazards.md R275). -/
theorem resetCycle_storageInv {s : State} (hparams : LegalParams s.params) : StorageInv (resetCycle s) where
  regs := ⟨hparams, ⟨.inl rfl, .inl rfl, .inl rfl⟩, legalLive_reset, nofun⟩
  owned := nofun
  fifo := Nat.zero_le _
  canonical := ⟨rfl, rfl⟩

theorem step_storageInv {s t : State} (h : StorageInv s) (hstep : step s = .next t) : StorageInv t := by
  cases hrst : (nextInputs s).rst with
  | true =>
    rw [step_reset hrst] at hstep
    cases hstep
    exact resetCycle_storageInv h.regs.params
  | false =>
    rw [step_cycle hrst] at hstep
    obtain ⟨u, v, hhost, hcons, hprod⟩ := cycle_eq_next.1 hstep
    have hbegin : StorageInv (beginCycle s) := h.of_kept (h.regs.of_kept rfl rfl rfl id) rfl rfl rfl rfl rfl
    have hu : StorageInv u := hostAct_induct hbegin hbegin.hostError hbegin.exec hhost
    exact producerAct_storageInv (consumerAct_storageInv hu hcons) hprod

/-- Settles O55: the queues and buffers with the registers, and the period state on its own. -/
theorem invariantKept : Obligations.InvariantKept := fun _ _ hinv hstep =>
  (step_storageInv hinv.storage hstep).machineInv (step_restingQuiet hinv.regsLegal hinv.quiet hstep)

end Sys2Proof.Machine
end

section
/-! PROOFS. The answer to a transaction (60_exceptions.md R255 to R262): a rejection, which is recorded in ERR, or an
acceptance; and what starts and stops a stream (R268). -/

namespace Sys2Proof.Machine

/-! ### The codes and the ERR record (R256, R257) -/

theorem ErrCode.code_bounds {c : ErrCode} (h : c ≠ .none) : 1 ≤ c.code.toNat ∧ c.code.toNat ≤ 9 := by
  cases c with
  | none => exact absurd rfl h
  | badAddr | access | busy | mode | notRunning | reservedValue | range | symqFull | device => decide

/-- The three fields of the record at their bits, as a number. -/
theorem errRecord_toNat (w : Bool) (a : RegAddr) (c : ErrCode) :
    (errRecord w a c).toNat = w.toNat * 2 ^ 16 + a.toNat * 2 ^ 8 + c.code.toNat := by
  have hbits : (errRecord w a c).toNat = (w.toNat <<< 8 ||| a.toNat) <<< 8 ||| c.code.toNat := by
    rw [errRecord, BitVec.toNat_append, BitVec.toNat_append, BitVec.toNat_ofBool]
  rw [hbits, ← Nat.shiftLeft_add_eq_or_of_lt a.isLt, ← Nat.shiftLeft_add_eq_or_of_lt c.code.isLt, Nat.shiftLeft_eq,
    Nat.shiftLeft_eq]
  omega

theorem verdictCode_ne_none (v : Verdict) : verdictCode v ≠ .none := by cases v <;> decide

/-! ### The answer of an operation -/

/-- The operation `i` is accepted: ERR is kept but by CLRERR, no stream starts but by START, and none stops but by STOP. -/
structure Accepted (i : Instr) (s t : State) : Prop where
  hostErr : t.out.hostErr = false
  err : i ≠ .clrErr → t.err = s.err
  starts : t.running = true → s.running = true ∨ i = .start
  stops : s.running = true → t.running = true ∨ i = .stop

/-- The operation `i` is rejected, which only a write is, or accepted. -/
def Answered (i : Instr) (s t : State) : Prop := i.isWrite = true ∧ Rejects i.addr s t ∨ Accepted i s t

/-- The shape of most accepted operations: neither ERR nor `running` is written. -/
theorem answered_of_kept {i : Instr} {s t : State} (herr : t.err = s.err) (hrun : t.running = s.running) :
    Answered i s (accept t) :=
  .inr ⟨rfl, fun _ => herr, fun hr => .inl (hrun ▸ hr), fun hr => .inl (hrun.trans hr)⟩

theorem answered_hostError {i : Instr} {c : ErrCode} {s : State} (hw : i.isWrite = true) (hc : c ≠ .none) :
    Answered i s (hostError true i.addr c s) := .inl ⟨hw, rejects_hostError hc⟩

/-! The checks of a write: each of them rejects with a code of its own. -/

theorem answered_unlessBusy {i : Instr} {s t : State} (hw : i.isWrite = true) (ht : Answered i s t) :
    Answered i s (unlessBusy i.addr s t) :=
  unlessBusy_induct (answered_hostError hw (by decide)) fun _ => ht

theorem answered_ifInRange {i : Instr} {l : Bool} {s t : State} (hw : i.isWrite = true) (ht : Answered i s t) :
    Answered i s (ifInRange l i.addr s t) :=
  ifInRange_induct (answered_hostError hw (by decide)) ht

theorem answered_ifListed {α : Type} {i : Instr} {c : Option α} {s : State} {t : α → State} (hw : i.isWrite = true)
    (ht : ∀ x, Answered i s (t x)) : Answered i s (ifListed c i.addr s t) :=
  ifListed_induct (answered_hostError hw (by decide)) ht

theorem answered_ifStreaming {i : Instr} {m : OpMode} {s t : State} (hw : i.isWrite = true) (ht : Answered i s t) :
    Answered i s (ifStreaming m i.addr s t) := by
  obtain ⟨-, e⟩ | ⟨-, -, e⟩ | ⟨-, -, e⟩ := ifStreaming_cases m i.addr s t <;> rw [e]
  · exact answered_hostError hw (by decide)
  · exact answered_hostError hw (by decide)
  · exact ht

/-! The two operations with checks of their own. -/

/-- START has no effect, starts a stream, or is rejected with RANGE or DEVICE (40_control.md R106). -/
theorem exec_start_answered (s : State) : ∃ t, exec .start s = .next t ∧ Answered .start s t := by
  refine ⟨_, exec_start s, ?_⟩
  split
  · exact answered_of_kept rfl rfl
  · split
    · split
      · exact .inr ⟨rfl, fun _ => rfl, fun _ => .inr rfl, fun _ => .inl rfl⟩
      · exact answered_hostError rfl (by decide)
    · exact answered_hostError rfl (by decide)

theorem exec_txByte_answered (d : Word64) (s : State) : ∃ t, exec (.txByte d) s = .next t ∧ Answered (.txByte d) s t := by
  refine ⟨_, rfl, answered_ifStreaming rfl ?_⟩
  split
  · unfold stageFrame
    split
    · exact answered_of_kept rfl rfl
    · exact answered_hostError rfl (by decide)
  · exact answered_hostError rfl (by decide)

/-- Every operation is answered in every state. -/
theorem exec_answered (i : Instr) (s : State) : ∃ t, exec i s = .next t ∧ Answered i s t := by
  cases hw : i.isWrite with
  | false =>
    obtain ⟨v, hv⟩ := exec_read hw s
    exact ⟨_, hv, .inr ⟨rfl, fun _ => rfl, .inl, .inl⟩⟩
  | true =>
    match i, hw with
    | .clrErr, _ => exact ⟨_, rfl, .inr ⟨rfl, fun hne => absurd rfl hne, .inl, .inl⟩⟩
    | .start, _ => exact exec_start_answered s
    | .stop, _ => exact ⟨_, rfl, .inr ⟨rfl, fun _ => rfl, nofun, fun _ => .inr rfl⟩⟩
    | .wrMode _, hw | .wrWaveform _, hw =>
      exact ⟨_, rfl, answered_unlessBusy hw (answered_ifListed hw fun _ => answered_of_kept rfl rfl)⟩
    | .wrSampleRate _, hw | .wrBufSize _, hw | .wrBufCount _, hw =>
      exact ⟨_, rfl, answered_unlessBusy hw (answered_ifInRange hw (answered_of_kept rfl rfl))⟩
    | .wrDataBits _, hw | .wrParity _, hw | .wrStopBits _, hw =>
      exact ⟨_, rfl, answered_ifListed hw fun _ => answered_of_kept rfl rfl⟩
    | .wrFreq _, hw | .wrEnvK1 _, hw | .wrEnvK2 _, hw | .wrHoldDuration _, hw | .wrMarkFreq _, hw | .wrSpaceFreq _, hw
    | .wrBaud _, hw | .wrIdleFreq _, hw =>
      exact ⟨_, rfl, answered_ifInRange hw (answered_of_kept rfl rfl)⟩
    | .wrVolume d, hw =>
      exact ⟨_, rfl, answered_ifInRange hw (answered_of_kept (storeVolume_err d s) (storeVolume_running d s))⟩
    | .wrFreqRaiseRate d, hw =>
      exact ⟨_, rfl, answered_ifInRange hw
        (answered_of_kept (storeFreqRaiseRate_err d s) (storeFreqRaiseRate_running d s))⟩
    | .wrVolRaiseRate d, hw =>
      exact ⟨_, rfl, answered_ifInRange hw
        (answered_of_kept (storeVolRaiseRate_err d s) (storeVolRaiseRate_running d s))⟩
    | .activate, hw =>
      exact ⟨_, rfl, answered_ifStreaming hw (answered_of_kept (enterRamping_err s) (enterRamping_running s))⟩
    | .deactivate, hw | .txCommit, hw | .txAbort, hw =>
      exact ⟨_, rfl, answered_ifStreaming hw (answered_of_kept rfl rfl)⟩
    | .txByte d, _ => exact exec_txByte_answered d s

/-! ### The answer to a word -/

/-- Every row of the opcode map has the direction and the address of its operation. -/
theorem opcodeMap_op : ∀ r ∈ opcodeMap, ∀ d,
    (r.op d).isWrite = fieldW r.pattern ∧ (r.op d).addr = fieldA r.pattern := by
  simp only [opcodeMap, List.forall_mem_cons, List.not_mem_nil, false_implies, implies_true, and_true]
  and_intros <;> exact fun _ => ⟨rfl, rfl⟩

theorem fields_of_decode {w : Bus73} {i : Instr} (h : decode w = .ok i) : fieldW w = i.isWrite ∧ fieldA w = i.addr := by
  obtain ⟨r, hr, hfits, rfl⟩ := selectOp_eq_some_iff.1 (decode_eq_ok_iff.1 h)
  obtain ⟨hw, ha⟩ := opcodeMap_op r hr (fieldD w)
  exact ⟨hfits.w.symm.trans hw.symm, hfits.addr.symm.trans ha.symm⟩

/-- Every word is rejected under its own direction and address, or is an operation that is accepted. -/
theorem hostAct_answered (w : Bus73) (s : State) : ∃ t, hostAct (some w) s = .next t ∧
    ((∃ c : ErrCode, c ≠ .none ∧ t = hostError (fieldW w) (fieldA w) c s) ∨ ∃ i, decode w = .ok i ∧ Accepted i s t) := by
  cases hd : decode w with
  | error v => exact ⟨_, hostAct_of_decode_error hd s, .inl ⟨_, verdictCode_ne_none v, rfl⟩⟩
  | ok i =>
    obtain ⟨t, ht, ⟨hw, c, hc, rfl⟩ | haccepted⟩ := exec_answered i s <;> rw [hostAct_of_decode_ok hd, ht]
    · obtain ⟨hfw, hfa⟩ := fields_of_decode hd
      exact ⟨_, rfl, .inl ⟨c, hc, by rw [hfw, hfa, hw]⟩⟩
    · exact ⟨_, rfl, .inr ⟨i, rfl, haccepted⟩⟩

/-- Settles O15, by whether the word is rejected or accepted. -/
theorem transactionAnswered : Obligations.TransactionAnswered := by
  refine ⟨fun w s => ?answer, fun w a c => ⟨errRecord_toNat w a c, by cases c <;> rfl⟩⟩
  obtain ⟨t, ht, ⟨c, hc, rfl⟩ | ⟨i, hd, haccepted⟩⟩ := hostAct_answered w s
  · obtain ⟨hlo, hhi⟩ := ErrCode.code_bounds hc
    exact ⟨_, ht, fun _ => ⟨c, hlo, hhi, errRecord_toNat .., rfl⟩, nofun⟩
  · refine ⟨t, ht, fun herr => absurd herr (by rw [haccepted.hostErr]; decide), fun _ hne => haccepted.err ?_⟩
    rintro rfl
    exact hne hd

/-! ### Starting and stopping a stream (R268) -/

/-- The consumer leaves `running` alone. -/
theorem consumerAct_running {r : Bool} {s t : State} (h : consumerAct r s = .next t) : t.running = s.running :=
  congrArg (·.running) (consumerAct_frame h)

/-- The producer leaves `running` alone. -/
theorem producerAct_running {s t : State} (h : producerAct s = .next t) : t.running = s.running := by
  obtain ⟨-, e⟩ | ⟨-, -, e⟩ | ⟨-, -, -, e⟩ | ⟨-, -, -, e⟩ := producerAct_cases s <;> rw [e] at h
  · cases h; rfl
  · obtain ⟨-, rfl⟩ := sampleStep_eq_next.1 h
    exact beforeSample_running s
  · cases h; rfl
  · cases h; rfl

/-- Of the words the host can present only START starts a stream, and only STOP stops one. -/
theorem hostAct_running {w : Option Bus73} {s u : State} (hu : hostAct w s = .next u) :
    (u.running = true → s.running = true ∨ ∃ t, w = some t ∧ decode t = .ok .start) ∧
    (s.running = true → u.running = true ∨ ∃ t, w = some t ∧ decode t = .ok .stop) := by
  cases w with
  | none =>
    cases hu
    exact ⟨.inl, .inl⟩
  | some w =>
    obtain ⟨t, ht, hanswer⟩ := hostAct_answered w s
    obtain rfl : t = u := by rw [ht] at hu; injection hu
    obtain ⟨c, -, rfl⟩ | ⟨i, hd, haccepted⟩ := hanswer
    · exact ⟨.inl, .inl⟩
    · have hword : ∀ j, i = j → ∃ t, some w = some t ∧ decode t = .ok j := fun _ hj => ⟨w, rfl, hj ▸ hd⟩
      exact ⟨fun hr => (haccepted.starts hr).imp_right (hword .start),
        fun hr => (haccepted.stops hr).imp_right (hword .stop)⟩

/-- Settles O54: a reset stops the stream, and in any other cycle only the host's action can change `running`. -/
theorem onlyStartStarts : Obligations.OnlyStartStarts := by
  intro s t hstep
  cases hrst : (nextInputs s).rst with
  | true =>
    rw [step_reset hrst] at hstep
    cases hstep
    exact ⟨fun _ => nofun, fun _ _ => .inl rfl⟩
  | false =>
    rw [step_cycle hrst] at hstep
    obtain ⟨u, v, hhost, hcons, hprod⟩ := cycle_eq_next.1 hstep
    obtain ⟨hstarts, hstops⟩ := hostAct_running hhost
    rw [(producerAct_running hprod).trans (consumerAct_running hcons)]
    exact ⟨fun hstopped hr => ⟨rfl, (hstarts hr).resolve_left (by simp [hstopped])⟩,
      fun hrun hstopped => .inr ((hstops hrun).resolve_left (by simp [hstopped]))⟩

end Sys2Proof.Machine
end

section
/-! PROOFS. The reset (70_reset_and_hazards.md R275, R277), and that no cycle stops the machine (60_exceptions.md R255,
46_pipeline.md R238). -/

namespace Sys2Proof.Machine

/-! ### No stop -/

/-- The oldest ready index is that of a buffer of the pool (46_pipeline.md R238), so a POP finds its words. -/
theorem consumerAct_completes {s : State} (h : StorageInv s) (r : Bool) : Completes (consumerAct r s) := by
  cases r with
  | false => exact ⟨s, rfl⟩
  | true =>
    obtain ⟨-, e⟩ | ⟨-, -, e⟩ | ⟨i, rest, hrun, hready, hout, -⟩ | ⟨_, _, _, -, -, -, e⟩ := consumerPop_cases s
    · exact ⟨_, e⟩
    · exact ⟨_, e⟩
    · obtain ⟨-, hidx, -, horder⟩ := h.owned hrun
      have hfirst := horder 0 (by simp [hready])
      simp only [hready, List.getElem_cons_zero] at hfirst
      exact absurd hout (by rw [hfirst, Nat.not_le]; exact Nat.mod_lt _ (Nat.zero_lt_of_lt hidx))
    · exact ⟨_, e⟩

/-- The position to fill is one of the pool's words (46_pipeline.md R238), so a sample can be stored. -/
theorem producerAct_completes {s : State} (h : StorageInv s) : Completes (producerAct s) := by
  obtain ⟨-, e⟩ | ⟨hrun, hpos, e⟩ | ⟨-, -, -, e⟩ | ⟨-, -, -, e⟩ := producerAct_cases s
  · exact ⟨_, e⟩
  · obtain ⟨-, hidx, -, -⟩ := h.owned hrun
    exact ⟨_, e.trans (sampleStep_eq hidx hpos)⟩
  · exact ⟨_, e⟩
  · exact ⟨_, e⟩

theorem beginCycle_storageInv {s : State} (h : StorageInv s) : StorageInv (beginCycle s) :=
  h.of_kept (h.regs.of_kept rfl rfl rfl id) rfl rfl rfl rfl rfl

theorem hostAct_storageInv {w : Option Bus73} {s u : State} (h : StorageInv s) (hu : hostAct w s = .next u) :
    StorageInv u :=
  hostAct_induct h h.hostError h.exec hu

/-- Settles O56: the host's action is always answered, and it and the consumer leave the next agent what it needs. -/
theorem stepNeverStops : Obligations.StepNeverStops := by
  intro s hinv
  cases hrst : (nextInputs s).rst with
  | true => exact ⟨_, step_reset hrst⟩
  | false =>
    obtain ⟨u, hu, -⟩ := hostAct_keepsConfig (nextInputs s).host (beginCycle s)
    have hinvU := hostAct_storageInv (beginCycle_storageInv hinv.storage) hu
    obtain ⟨v, hv⟩ := consumerAct_completes hinvU (nextInputs s).frameReq
    obtain ⟨t, ht⟩ := producerAct_completes (consumerAct_storageInv hinvU hv)
    exact ⟨t, (step_cycle hrst).trans (cycle_eq_next.2 ⟨u, v, hu, hv, ht⟩)⟩

/-! ### The reset state -/

/-- Settles O11: a reset cycle is the reset state, but for the parameters and the inputs that it keeps. -/
theorem stepReset : Obligations.StepReset := fun s hrst =>
  ⟨resetCycle s, step_reset hrst, rfl, rfl, rfl, rfl, rfl, rfl⟩

/-- The reset state, reset with no inputs listed, stays what it is. -/
theorem resetCycle_resetWith (p : Params) : resetCycle (State.resetWith p) = State.resetWith p := rfl

/-- Settles O60: what every reset cycle leaves meets the invariants. -/
theorem resetInvariants : Obligations.ResetInvariants := by
  intro p hp
  rw [← resetCycle_resetWith p]
  have hosc := resetCycle_oscInRange (State.resetWith p)
  exact ⟨(resetCycle_storageInv hp).machineInv fun _ => ⟨rfl, rfl⟩, hosc.tones, hosc.phase,
    resetCycle_volumeBounded _, carriedErrBounded_of_zero rfl⟩

end Sys2Proof.Machine
end
